-- ==== Sys2Proof/Word.lean ====
section
/-! DEFINITION. The two word types of the SCE: registers and operands are 32 bits (10_state.md, section 2), and
packet, key and parameter bytes are 8 bits (00_scope.md R9). -/

namespace Sys2Proof

/-- A 32-bit register, operand or result (10_state.md, section 2: "Every register is 32 bits wide"). -/
abbrev Word := BitVec 32

/-- One byte (00_scope.md R9: u8). -/
abbrev Byte := BitVec 8

/-- A finite byte string, byte 0 first (00_scope.md R9). -/
abbrev Bytes := List Byte

end Sys2Proof
end

