-- ==== Sys2Proof/Config.lean ====
section
/-! DEFINITION. The implementation parameters of 00_scope.md R6. Those with a default have it here; those the spec
leaves OPEN and that one core can show are constants without a body. -/

namespace Sys2Proof.Config

/-- NUM_CTX, the number of context slots (00_scope.md R6). -/
def numCtx : Nat := 16

/-- BUF_BYTES, the size of the packet buffer (00_scope.md R6). -/
def bufBytes : Nat := 16384

/-- MAX_AUTH_KEY_BYTES, the capacity of k_a (00_scope.md R6). -/
def maxAuthKeyBytes : Nat := 64

/-- MAX_MKI_BYTES (00_scope.md R6, fixed). -/
def maxMkiBytes : Nat := 16

/-- HMAC_SHA1_BYTES (00_scope.md R6, fixed). -/
def hmacSha1Bytes : Nat := 20

/-- HAS_SKEIN: the HMAC-Skein unit is present (00_scope.md R6, default false). -/
def hasSkein : Bool := false

/-- OPEN, without a body: SKEIN_MAC_BYTES lies in 1..64 (00_scope.md R6), so it is one more than a number below 64. -/
opaque skeinMacBytesPred : Fin 64

/-- SKEIN_MAC_BYTES, the length of SKEIN_MAC's output (00_scope.md R6, OPEN; log entry 10). -/
def skeinMacBytes : Nat := skeinMacBytesPred.val + 1

/-- OPEN, without a body: SKEIN_MAC, a total function from (key, message) to SKEIN_MAC_BYTES bytes
(42_authentication.md R186; log entry 10). -/
opaque skeinMac : Bytes → Bytes → Vector Byte skeinMacBytes

/-- The two values of FIRST_ROC_POLICY (00_scope.md R6). -/
inductive RocPolicy where
  /-- The first packet sets roc to 0. -/
  | zero
  /-- The first packet keeps the roc the slot was constructed with. -/
  | keep
deriving DecidableEq, Repr

/-- FIRST_ROC_POLICY (00_scope.md R6, default Zero; 90_conflicts.md C2; log entry 9). -/
def firstRocPolicy : RocPolicy := .zero

/-- OPEN, without a body: which 128 KiB block of the host's address space holds the aperture (00_scope.md R6,
BASE_ADDR; log entry 11). -/
opaque baseBlock : Nat

/-- BASE_ADDR: the host bus address of register offset 0, aligned to 128 KiB (00_scope.md R6). -/
def baseAddr : Nat := 131072 * baseBlock

end Sys2Proof.Config
end

