-- ==== Sys2Proof/Syntax.lean ====
section
/-! DEFINITION. The commands of the SCE as syntax: one constructor per row of spec/opcode_table.json
(30_encoding.md R101). A command word carries one operand field, the slot number CTX (R102); every other operand
is read from the latched ARG registers when the command runs (R104). -/

namespace Sys2Proof

/-- The eleven commands of 30_encoding.md R101. `ctx` is the slot number of the CTX field (R102). -/
inductive Instr where
  /-- 46_context_mgmt.md R270. -/
  | nop (ctx : Nat)
  /-- 46_context_mgmt.md R272. -/
  | ctxNew (ctx : Nat)
  /-- 46_context_mgmt.md R273. -/
  | ctxClone (ctx : Nat)
  /-- 46_context_mgmt.md R274. -/
  | ctxDestroy (ctx : Nat)
  /-- 46_context_mgmt.md R275. -/
  | ctxStatus (ctx : Nat)
  /-- 43_key_derivation.md R207. -/
  | derive (ctx : Nat)
  /-- 44_replay_index.md R227. -/
  | guess (ctx : Nat)
  /-- 44_replay_index.md R228. -/
  | check (ctx : Nat)
  /-- 44_replay_index.md R229. -/
  | update (ctx : Nat)
  /-- 45_packet_ops.md R250. -/
  | encrypt (ctx : Nat)
  /-- 45_packet_ops.md R251. -/
  | auth (ctx : Nat)
deriving DecidableEq, Repr

/-- The slot number a command names (30_encoding.md R102). -/
def Instr.ctx : Instr → Nat
  | .nop c | .ctxNew c | .ctxClone c | .ctxDestroy c | .ctxStatus c | .derive c
  | .guess c | .check c | .update c | .encrypt c | .auth c => c

end Sys2Proof
end

