-- ==== Sys2Proof/WellFormed.lean ====
section
/-! DEFINITION. Which commands have a command word. The CTX field is 8 bits (30_encoding.md R100), so a slot number
is 0..255; whether the slot exists is checked when the command runs (R102), not here. -/

namespace Sys2Proof

/-- The slot number fits the CTX field, bits [15:8] of the command word (30_encoding.md R100). -/
def Instr.wellFormed (i : Instr) : Bool := decide (i.ctx < 256)

end Sys2Proof
end

