-- ==== Sys2Proof/Decode.lean ====
section
/-! DEFINITION. Decoding a command word and encoding a command (30_encoding.md R100 to R103, R112, R114). Both are
written from the opcode map of R101. -/

namespace Sys2Proof

/-- Why a command word names no command (30_encoding.md R112). -/
inductive DecodeError where
  /-- OPCODE is not in the map of R101; carries the OPCODE value (R114 (a)). -/
  | illegalOpcode (op : Byte)
  /-- A legal OPCODE with RSVD not zero; carries the whole word (R114 (b)). -/
  | reservedBits (w : Word)
deriving DecidableEq, Repr

/-- Bits [7:0] of the command word (30_encoding.md R100). -/
def opcodeField (w : Word) : Byte := w.extractLsb' 0 8

/-- Bits [15:8] of the command word (30_encoding.md R100). -/
def ctxField (w : Word) : Byte := w.extractLsb' 8 8

/-- Bits [31:16] of the command word (30_encoding.md R100). -/
def rsvdField (w : Word) : BitVec 16 := w.extractLsb' 16 16

/-- The command an OPCODE selects for slot c, or none where OPCODE is illegal (30_encoding.md R101). -/
def decodeOpcode (op : Byte) (c : Nat) : Option Instr :=
  if op = 0x00 then some (.nop c)
  else if op = 0x01 then some (.ctxNew c)
  else if op = 0x02 then some (.ctxClone c)
  else if op = 0x03 then some (.ctxDestroy c)
  else if op = 0x04 then some (.ctxStatus c)
  else if op = 0x10 then some (.derive c)
  else if op = 0x20 then some (.guess c)
  else if op = 0x21 then some (.check c)
  else if op = 0x22 then some (.update c)
  else if op = 0x30 then some (.encrypt c)
  else if op = 0x31 then some (.auth c)
  else none

/-- Decoding, total on every command word (30_encoding.md R112): the opcode is judged before the reserved bits. -/
def decode (w : Word) : Except DecodeError Instr :=
  match decodeOpcode (opcodeField w) (ctxField w).toNat with
  | none => .error (.illegalOpcode (opcodeField w))
  | some i => if rsvdField w = 0 then .ok i else .error (.reservedBits w)

/-- The OPCODE of a command (30_encoding.md R101). -/
def Instr.opcode : Instr → Byte
  | .nop _ => 0x00
  | .ctxNew _ => 0x01
  | .ctxClone _ => 0x02
  | .ctxDestroy _ => 0x03
  | .ctxStatus _ => 0x04
  | .derive _ => 0x10
  | .guess _ => 0x20
  | .check _ => 0x21
  | .update _ => 0x22
  | .encrypt _ => 0x30
  | .auth _ => 0x31

/-- The command word of a command: RSVD = 0, then CTX, then OPCODE (30_encoding.md R100). -/
def encode (i : Instr) : Word := (0 : BitVec 16) ++ (BitVec.ofNat 8 i.ctx ++ i.opcode : BitVec 16)

/-- The command read from an opcode-table word of nbits bits; the bits above nbits are 0. -/
def decodeTableWord (nbits w : Nat) : Option Instr :=
  match decode (BitVec.ofNat 32 (w % 2 ^ nbits)) with
  | .ok i => some i
  | .error _ => none

end Sys2Proof
end

