-- ==== Sys2Proof/Machine/State.lean ====
section
/-! DEFINITION. The state of the SCE (10_state.md R20), as plain data, its reset (70_reset_and_hazards.md R331), and
the reasons a step can stop. -/

namespace Sys2Proof.Machine

/-- What a slot protects (10_state.md R22; 30_encoding.md R111). -/
inductive Kind where
  /-- 0: a data slot, the source's CryptoContext. -/
  | srtp
  /-- 1: a control slot, the source's CryptoContextCtrl. -/
  | srtcp
deriving DecidableEq, Repr

/-- The effective encryption algorithm (10_state.md R24, R34 (b)). -/
inductive EncAlgo where
  /-- 0. -/
  | null
  /-- 1: AES in counter mode. -/
  | aesCm
  /-- 2: AES in F8 mode. -/
  | aesF8
deriving DecidableEq, Repr

/-- The effective authentication algorithm (10_state.md R24, R34 (b)). -/
inductive AuthAlgo where
  /-- 0. -/
  | null
  /-- 1. -/
  | hmacSha1
  /-- 2. -/
  | hmacSkein
deriving DecidableEq, Repr

/-- One context slot (10_state.md R22 to R31). -/
structure Slot where
  /-- R22: the slot holds a context. -/
  valid : Bool
  /-- R22. -/
  kind : Kind
  /-- R23: the stream identifier; no command uses it for cryptography. -/
  ssrc : Word
  /-- R24. -/
  encAlgo : EncAlgo
  /-- R24: the requested encryption algorithm was refused at construction. -/
  encDis : Bool
  /-- R24. -/
  authAlgo : AuthAlgo
  /-- R24: the requested authentication algorithm was refused at construction. -/
  authDis : Bool
  /-- R25: master key length in bytes. -/
  mkLen : Byte
  /-- R25. -/
  masterKey : Vector Byte 32
  /-- R25: master salt length in bytes. -/
  msLen : Byte
  /-- R25. -/
  masterSalt : Vector Byte 14
  /-- R26, n_e: session cipher key length. -/
  nE : Byte
  /-- R26, n_a: session authentication key length. -/
  nA : Byte
  /-- R26, n_s: session salt length. -/
  nS : Byte
  /-- R27: tag length in bytes. -/
  tagLen : Byte
  /-- R27: MKI length in bytes. -/
  mkiLen : Byte
  /-- R27. -/
  mki : Vector Byte 16
  /-- R28: the key-derivation rate, an unsigned divisor of the packet index. -/
  kdr : BitVec 64
  /-- R29, k_e: session cipher key. -/
  kE : Vector Byte 32
  /-- R29, k_a: session authentication key. -/
  kA : Vector Byte Config.maxAuthKeyBytes
  /-- R29, k_s: session salt. -/
  kS : Vector Byte 14
  /-- R30: DeriveKeys has run since construction. -/
  keysValid : Bool
  /-- R30: the key-derivation index of the last DeriveKeys. -/
  lastR : BitVec 48
  /-- R31: committed roll-over counter. -/
  roc : Word
  /-- R31: ROC of the last guess. -/
  guessedRoc : Word
  /-- R31, s_l: last validated sequence number or SRTCP index. -/
  sL : Word
  /-- R31: s_l has been initialised. -/
  seqSet : Bool
  /-- R31: bit i means packet s_l - i has been seen. -/
  replayMask : BitVec 64
deriving DecidableEq, Repr

/-- The reset slot (70_reset_and_hazards.md R331): every field 0. -/
def Slot.reset : Slot where
  valid := false
  kind := .srtp
  ssrc := 0
  encAlgo := .null
  encDis := false
  authAlgo := .null
  authDis := false
  mkLen := 0
  masterKey := Vector.replicate 32 0
  msLen := 0
  masterSalt := Vector.replicate 14 0
  nE := 0
  nA := 0
  nS := 0
  tagLen := 0
  mkiLen := 0
  mki := Vector.replicate 16 0
  kdr := 0
  kE := Vector.replicate 32 0
  kA := Vector.replicate Config.maxAuthKeyBytes 0
  kS := Vector.replicate 14 0
  keysValid := false
  lastR := 0
  roc := 0
  guessedRoc := 0
  sL := 0
  seqSet := false
  replayMask := 0

/-- The fields of STATUS (10_state.md R43). Bits 7 and 31..16 hold nothing and read 0. -/
structure Status where
  /-- Bit 0. -/
  busy : Bool
  /-- Bit 1. -/
  done : Bool
  /-- Bit 2. -/
  err : Bool
  /-- Bit 3. -/
  accept : Bool
  /-- Bit 4. -/
  overrun : Bool
  /-- Bit 5. -/
  cfgEncDis : Bool
  /-- Bit 6. -/
  cfgAuthDis : Bool
  /-- Bits [15:8], ERRCODE. -/
  errCode : Byte
deriving DecidableEq, Repr

/-- STATUS = 0x00000000 (70_reset_and_hazards.md R331). -/
def Status.reset : Status where
  busy := false
  done := false
  err := false
  accept := false
  overrun := false
  cfgEncDis := false
  cfgAuthDis := false
  errCode := 0

/-- The width of a host access (20_memory.md R72, R74). DESIGN CHOICE: the model's host bus delivers no other width, such
as 64 bits; R72 refuses one at a register, and spec/ leaves one at the window open (log entry 20). -/
inductive Width where
  /-- 8 bits. -/
  | w8
  /-- 16 bits. -/
  | w16
  /-- 32 bits. -/
  | w32
deriving DecidableEq, Repr

/-- What can happen next at the SCE's boundary. The order of these inputs is data of State (log entry 2). -/
inductive Event where
  /-- A host bus read at an aperture offset (20_memory.md R70). -/
  | read (off : Nat) (width : Width)
  /-- A host bus write at an aperture offset; a narrow write carries its data in the low bits. -/
  | write (off : Nat) (width : Width) (data : Word)
  /-- The engine completes the command in flight (30_encoding.md R113). -/
  | engine
  /-- The hardware reset input (70_reset_and_hazards.md R330). -/
  | reset
deriving DecidableEq, Repr

/-- The packet buffer: (offset, byte) pairs, offsets strictly rising; an unlisted offset is unwritten
(10_state.md R33). -/
abbrev Memory := List Host.Cell

/-- The state of the SCE (10_state.md R20). ID, VERSION and CAPS0 to CAPS2 are constants; irq is `State.irq`. -/
structure State where
  /-- R21: the slot table. -/
  slots : Vector Slot Config.numCtx
  /-- R42, CMD. -/
  cmd : Word
  /-- R43, STATUS. -/
  status : Status
  /-- R44, IRQ_ENABLE bit 0. -/
  doneIe : Bool
  /-- R45, ERRINFO. -/
  errInfo : Word
  /-- R46, ARG0 to ARG7. -/
  arg : Vector Word 8
  /-- R47, RES0 to RES7. -/
  res : Vector Word 8
  /-- R48, LCMD, hidden. -/
  lcmd : Word
  /-- R48, LARG0 to LARG7, hidden. -/
  larg : Vector Word 8
  /-- R33, the packet buffer. -/
  buf : Memory
  /-- R53: the model-only fault record. -/
  faulted : Bool
  /-- The model's own: the data driven for the latest host read (log entry 3). -/
  readData : Option Word
  /-- The model's own: the inputs still to come, oldest first (log entry 2). -/
  schedule : List Event
deriving DecidableEq, Repr

/-- The machine after reset (70_reset_and_hazards.md R331). The two fields that are the model's own start empty
(log entries 2 and 3). -/
def State.reset : State where
  slots := Vector.replicate Config.numCtx Slot.reset
  cmd := 0
  status := Status.reset
  doneIe := false
  errInfo := 0
  arg := Vector.replicate 8 0
  res := Vector.replicate 8 0
  lcmd := 0
  larg := Vector.replicate 8 0
  buf := []
  faulted := false
  readData := none
  schedule := []

/-- Why a step can stop with a fault (00_scope.md R11, 60_exceptions.md R316). Each carries the state that holds the
record of it (10_state.md R53; log entry 1). -/
inductive Fault where
  /-- Raised by a command whose MemRead covers the unwritten buffer byte at `addr` (10_state.md R33). Safe: real
  hardware goes on with some byte. -/
  | commandReadUnwritten (addr : Nat) (record : State)
  /-- Raised by a host read of the unwritten buffer byte at `addr` (10_state.md R33). Safe, as above. -/
  | hostReadUnwritten (addr : Nat) (record : State)
  /-- Raised by every step of a state whose fault record is set: the record is never cleared (10_state.md R53).
  Safe. -/
  | recorded
deriving DecidableEq, Repr

/-- Why a step can be refused (00_scope.md R11, 60_exceptions.md R316). All but the first are host accesses; no
command is refused. -/
inductive Refusal where
  /-- An instruction without a meaning in this model, by mnemonic. Safe. -/
  | notModelled (mnemonic : String)
  /-- A register access that is not an aligned 32-bit access (20_memory.md R72). Safe. -/
  | registerAccess (off : Nat)
  /-- A misaligned buffer-window access (20_memory.md R74). Safe. -/
  | bufferMisaligned (off : Nat)
  /-- A buffer-window access while BUSY (20_memory.md R76). Safe. -/
  | bufferWhileBusy (off : Nat)
  /-- An access that covers a byte outside the 128 KiB aperture: not part of the SCE (20_memory.md R70; log entry 8).
  Safe. -/
  | outsideAperture (off : Nat)
deriving DecidableEq, Repr

/-- What one step or one command answers. -/
abbrev Result := Host.Outcome State Fault Refusal

end Sys2Proof.Machine
end

