-- ==== Sys2Proof/Machine/Bytes.lean ====
section
/-! DEFINITION. Byte strings (00_scope.md R9) and the two byte orders: big-endian inside the algorithms and the
parameter block (20_memory.md R79, R80), little-endian lanes on the host bus (R74). -/

namespace Sys2Proof.Machine

/-- zeros(n) (00_scope.md R9). -/
def zeros (n : Nat) : Bytes := List.replicate n 0

/-- rep(x, n) (00_scope.md R9). -/
def rep (x : Byte) (n : Nat) : Bytes := List.replicate n x

/-- a XOR b, applied to strings of equal length (00_scope.md R9). -/
def xorBytes (a b : Bytes) : Bytes := List.zipWith (· ^^^ ·) a b

/-- BE_n(v): the n-byte big-endian encoding of v modulo 2^(8n), most significant byte first (00_scope.md R9). -/
def be : Nat → Nat → Bytes
  | 0, _ => []
  | n + 1, v => BitVec.ofNat 8 (v / 256 ^ n) :: be n v

/-- beval(b): the big-endian value of b (00_scope.md R9). -/
def beval (b : Bytes) : Nat := b.foldl (fun acc x => acc * 256 + x.toNat) 0

/-- The n bytes of v with byte 0 in bits [7:0], the lane order of the host bus (20_memory.md R74). -/
def leBytes : Nat → Word → Bytes
  | 0, _ => []
  | n + 1, v => v.setWidth 8 :: leBytes n (v >>> 8)

/-- The word whose bits [7:0] are byte 0, bits [15:8] byte 1 and so on (20_memory.md R74). -/
def leWord : Bytes → Word
  | [] => 0
  | b :: bs => (leWord bs <<< 8) ||| b.setWidth 32

/-- b || zeros(n - len(b)), as a field of n bytes: a key field's bytes beyond its length are zero
(10_state.md R34 (a)). -/
def padTo (n : Nat) (b : Bytes) : Vector Byte n :=
  Vector.ofFn fun i => b.getD i.val 0

/-- prefix(field, n): the first n bytes of a key field (00_scope.md R9). -/
def fieldBytes {m : Nat} (field : Vector Byte m) (n : Byte) : Bytes := field.toList.take n.toNat

end Sys2Proof.Machine
end

