-- ==== Sys2Proof/Machine/Aes.lean ====
section
/-! DEFINITION. The AES block cipher unit (40_aes.md R130 to R138), encryption only. The state s[r][c] is held as the
16 bytes of the block, s[r][c] = b[r + 4c] (R131). -/

namespace Sys2Proof.Machine

/-- The S-box, one row of R132's table a line (40_aes.md R132). -/
def sboxTable : List Byte :=
  [0x63, 0x7c, 0x77, 0x7b, 0xf2, 0x6b, 0x6f, 0xc5, 0x30, 0x01, 0x67, 0x2b, 0xfe, 0xd7, 0xab, 0x76] ++
  [0xca, 0x82, 0xc9, 0x7d, 0xfa, 0x59, 0x47, 0xf0, 0xad, 0xd4, 0xa2, 0xaf, 0x9c, 0xa4, 0x72, 0xc0] ++
  [0xb7, 0xfd, 0x93, 0x26, 0x36, 0x3f, 0xf7, 0xcc, 0x34, 0xa5, 0xe5, 0xf1, 0x71, 0xd8, 0x31, 0x15] ++
  [0x04, 0xc7, 0x23, 0xc3, 0x18, 0x96, 0x05, 0x9a, 0x07, 0x12, 0x80, 0xe2, 0xeb, 0x27, 0xb2, 0x75] ++
  [0x09, 0x83, 0x2c, 0x1a, 0x1b, 0x6e, 0x5a, 0xa0, 0x52, 0x3b, 0xd6, 0xb3, 0x29, 0xe3, 0x2f, 0x84] ++
  [0x53, 0xd1, 0x00, 0xed, 0x20, 0xfc, 0xb1, 0x5b, 0x6a, 0xcb, 0xbe, 0x39, 0x4a, 0x4c, 0x58, 0xcf] ++
  [0xd0, 0xef, 0xaa, 0xfb, 0x43, 0x4d, 0x33, 0x85, 0x45, 0xf9, 0x02, 0x7f, 0x50, 0x3c, 0x9f, 0xa8] ++
  [0x51, 0xa3, 0x40, 0x8f, 0x92, 0x9d, 0x38, 0xf5, 0xbc, 0xb6, 0xda, 0x21, 0x10, 0xff, 0xf3, 0xd2] ++
  [0xcd, 0x0c, 0x13, 0xec, 0x5f, 0x97, 0x44, 0x17, 0xc4, 0xa7, 0x7e, 0x3d, 0x64, 0x5d, 0x19, 0x73] ++
  [0x60, 0x81, 0x4f, 0xdc, 0x22, 0x2a, 0x90, 0x88, 0x46, 0xee, 0xb8, 0x14, 0xde, 0x5e, 0x0b, 0xdb] ++
  [0xe0, 0x32, 0x3a, 0x0a, 0x49, 0x06, 0x24, 0x5c, 0xc2, 0xd3, 0xac, 0x62, 0x91, 0x95, 0xe4, 0x79] ++
  [0xe7, 0xc8, 0x37, 0x6d, 0x8d, 0xd5, 0x4e, 0xa9, 0x6c, 0x56, 0xf4, 0xea, 0x65, 0x7a, 0xae, 0x08] ++
  [0xba, 0x78, 0x25, 0x2e, 0x1c, 0xa6, 0xb4, 0xc6, 0xe8, 0xdd, 0x74, 0x1f, 0x4b, 0xbd, 0x8b, 0x8a] ++
  [0x70, 0x3e, 0xb5, 0x66, 0x48, 0x03, 0xf6, 0x0e, 0x61, 0x35, 0x57, 0xb9, 0x86, 0xc1, 0x1d, 0x9e] ++
  [0xe1, 0xf8, 0x98, 0x11, 0x69, 0xd9, 0x8e, 0x94, 0x9b, 0x1e, 0x87, 0xe9, 0xce, 0x55, 0x28, 0xdf] ++
  [0x8c, 0xa1, 0x89, 0x0d, 0xbf, 0xe6, 0x42, 0x68, 0x41, 0x99, 0x2d, 0x0f, 0xb0, 0x54, 0xbb, 0x16]

/-- SBOX[x] (40_aes.md R132). -/
def sbox (x : Byte) : Byte := sboxTable.getD x.toNat 0

/-- s[r][c] of a state held as its block (40_aes.md R131). -/
def stateAt (s : Bytes) (r c : Nat) : Byte := s.getD (r + 4 * c) 0

/-- The state whose byte s[r][c] is f r c, column by column (40_aes.md R131). -/
def stateOf (f : Nat → Nat → Byte) : Bytes :=
  [f 0 0, f 1 0, f 2 0, f 3 0, f 0 1, f 1 1, f 2 1, f 3 1,
   f 0 2, f 1 2, f 2 2, f 3 2, f 0 3, f 1 3, f 2 3, f 3 3]

/-- SubBytes (40_aes.md R133). -/
def subBytes (s : Bytes) : Bytes := stateOf fun r c => sbox (stateAt s r c)

/-- ShiftRows: row r is rotated left by r (40_aes.md R134). -/
def shiftRows (s : Bytes) : Bytes := stateOf fun r c => stateAt s r ((c + r) % 4)

/-- Multiplication by 2 in GF(2^8) (40_aes.md R135). -/
def xtime (a : Byte) : Byte := (a <<< 1) ^^^ (if 0x80 ≤ a.toNat then 0x1B else 0)

/-- mul3(a) = xtime(a) XOR a (40_aes.md R135). -/
def mul3 (a : Byte) : Byte := xtime a ^^^ a

/-- One output byte of MixColumns, row r, from the column's bytes a0..a3 (40_aes.md R135). -/
def mixByte (r : Nat) (a0 a1 a2 a3 : Byte) : Byte :=
  match r with
  | 0 => xtime a0 ^^^ mul3 a1 ^^^ a2 ^^^ a3
  | 1 => a0 ^^^ xtime a1 ^^^ mul3 a2 ^^^ a3
  | 2 => a0 ^^^ a1 ^^^ xtime a2 ^^^ mul3 a3
  | _ => mul3 a0 ^^^ a1 ^^^ a2 ^^^ xtime a3

/-- MixColumns (40_aes.md R135). -/
def mixColumns (s : Bytes) : Bytes :=
  stateOf fun r c => mixByte r (stateAt s 0 c) (stateAt s 1 c) (stateAt s 2 c) (stateAt s 3 c)

/-- Byte r of word i of a key schedule (40_aes.md R136). -/
def scheduleByte (w : List Bytes) (i r : Nat) : Byte := (w.getD i []).getD r 0

/-- AddRoundKey(rnd) (40_aes.md R136). -/
def addRoundKey (w : List Bytes) (rnd : Nat) (s : Bytes) : Bytes :=
  stateOf fun r c => stateAt s r c ^^^ scheduleByte w (4 * rnd + c) r

/-- RCON (40_aes.md R137). -/
def rcon : List Byte := [0x01, 0x02, 0x04, 0x08, 0x10, 0x20, 0x40, 0x80, 0x1B, 0x36]

/-- The t that word i of the schedule XORs into word i - Nk, from t = w[i-1] (40_aes.md R137). -/
def scheduleTemp (nk i : Nat) (t : Bytes) : Bytes :=
  if i % nk = 0 then
    [sbox (t.getD 1 0) ^^^ rcon.getD (i / nk - 1) 0, sbox (t.getD 2 0), sbox (t.getD 3 0), sbox (t.getD 0 0)]
  else if nk = 8 ∧ i % nk = 4 then
    [sbox (t.getD 0 0), sbox (t.getD 1 0), sbox (t.getD 2 0), sbox (t.getD 3 0)]
  else t

/-- Appends n further words to a schedule (40_aes.md R137). -/
def extendSchedule (nk : Nat) : Nat → List Bytes → List Bytes
  | 0, w => w
  | n + 1, w =>
    let i := w.length
    extendSchedule nk n
      (w ++ [xorBytes (w.getD (i - nk) []) (scheduleTemp nk i (w.getD (i - 1) []))])

/-- The key's own words w[0..Nk-1] (40_aes.md R137). -/
def keyWords (k : Bytes) : Nat → List Bytes
  | 0 => []
  | n + 1 => keyWords k n ++ [(k.drop (4 * n)).take 4]

/-- Nk = len(k) / 4 (40_aes.md R130). -/
def aesNk (k : Bytes) : Nat := k.length / 4

/-- Nr = Nk + 6 (40_aes.md R130). -/
def aesNr (k : Bytes) : Nat := aesNk k + 6

/-- Key expansion: 4(Nr+1) words of 4 bytes (40_aes.md R137). -/
def expandKey (k : Bytes) : List Bytes :=
  extendSchedule (aesNk k) (4 * (aesNr k + 1) - aesNk k) (keyWords k (aesNk k))

/-- Rounds rnd, rnd+1, ... for n rounds, each SubBytes, ShiftRows, MixColumns, AddRoundKey (40_aes.md R138). -/
def aesRounds (w : List Bytes) : Nat → Nat → Bytes → Bytes
  | 0, _, s => s
  | n + 1, rnd, s => aesRounds w n (rnd + 1) (addRoundKey w rnd (mixColumns (shiftRows (subBytes s))))

/-- The cipher under an expanded key of nr rounds (40_aes.md R138). -/
def aesWith (w : List Bytes) (nr : Nat) (b : Bytes) : Bytes :=
  addRoundKey w nr (shiftRows (subBytes (aesRounds w (nr - 1) 1 (addRoundKey w 0 b))))

/-- AES(k, b), for a key of 16 or 32 bytes and a block of 16 (40_aes.md R130, R138). -/
def aes (k b : Bytes) : Bytes := aesWith (expandKey k) (aesNr k) b

end Sys2Proof.Machine
end

