-- ==== Sys2Proof/Machine/CipherModes.lean ====
section
/-! DEFINITION. The counter-mode and F8 keystream units and the IV builders (41_cipher_modes.md R160 to R171). -/

namespace Sys2Proof.Machine

/-! ### Counter mode -/

/-- n keystream blocks from block counter j on; the counter is 2 bytes, so it wraps (41_cipher_modes.md R160, R161). -/
def cmBlocks (k iv14 : Bytes) : Nat → Nat → Bytes
  | 0, _ => []
  | n + 1, j => aes k (iv14 ++ be 2 j) ++ cmBlocks k iv14 n (j + 1)

/-- ceil(n / 16), the number of blocks of n bytes. -/
def blockCount (n : Nat) : Nat := (n + 15) / 16

/-- CmKeystream(k, iv14, n) (41_cipher_modes.md R161). -/
def cmKeystream (k iv14 : Bytes) (n : Nat) : Bytes := (cmBlocks k iv14 (blockCount n) 0).take n

/-- CmApply(k, iv14, d) (41_cipher_modes.md R162). -/
def cmApply (k iv14 d : Bytes) : Bytes := xorBytes d (cmKeystream k iv14 d.length)

/-! ### F8 mode -/

/-- The masked key k_m = k_e XOR (k_s || 0x55...) (41_cipher_modes.md R163). -/
def f8MaskedKey (ke ks : Bytes) : Bytes := xorBytes ke (ks ++ rep 0x55 (ke.length - ks.length))

/-- n blocks of the F8 chain from state S and counter J (41_cipher_modes.md R164). -/
def f8Blocks (ke ivp : Bytes) : Nat → Bytes → Nat → Bytes
  | 0, _, _ => []
  | n + 1, chain, j =>
    let next := aes ke (xorBytes (xorBytes chain ivp) (zeros 12 ++ be 4 j))
    next ++ f8Blocks ke ivp n next (j + 1)

/-- F8Keystream(k_e, k_s, iv16, n): every call starts from S = 0 and J = 0 (41_cipher_modes.md R164). -/
def f8Keystream (ke ks iv16 : Bytes) (n : Nat) : Bytes :=
  (f8Blocks ke (aes (f8MaskedKey ke ks) iv16) (blockCount n) (zeros 16) 0).take n

/-- F8Apply(k_e, k_s, iv16, d) (41_cipher_modes.md R165). -/
def f8Apply (ke ks iv16 d : Bytes) : Bytes := xorBytes d (f8Keystream ke ks iv16 d.length)

/-! ### IV builders -/

/-- salt14: a salt right-aligned in 14 bytes (41_cipher_modes.md R167). -/
def salt14 (salt : Bytes) : Bytes := zeros (14 - salt.length) ++ salt

/-- CmIvRtp(k_s, v, i) (41_cipher_modes.md R168). -/
def cmIvRtp (ks : Bytes) (v : Word) (i : BitVec 48) : Bytes :=
  xorBytes (salt14 ks) (zeros 4 ++ be 4 v.toNat ++ be 6 i.toNat)

/-- CmIvRtcp(k_s, v, x): the SRTCP index zero-extended to 48 bits (41_cipher_modes.md R169). -/
def cmIvRtcp (ks : Bytes) (v x : Word) : Bytes := cmIvRtp ks v (x.setWidth 48)

/-- F8IvRtp(hdr, r), from the 12 header bytes and the ROC (41_cipher_modes.md R170). -/
def f8IvRtp (hdr : Bytes) (roc : Word) : Bytes := 0x00 :: ((hdr.take 12).drop 1 ++ be 4 roc.toNat)

/-- F8IvRtcp(hdr, x), from the 8 header bytes and the SRTCP index with the E bit set (41_cipher_modes.md R171). -/
def f8IvRtcp (hdr : Bytes) (x : Word) : Bytes := zeros 4 ++ be 4 (0x80000000#32 ||| x).toNat ++ hdr.take 8

end Sys2Proof.Machine
end

