-- ==== Sys2Proof/Machine/Ops.lean ====
section
/-! DEFINITION. The operations every command shares: the packet buffer (10_state.md R33, 20_memory.md R77), the slot
table (10_state.md R21), the result registers (R47), completing a command (30_encoding.md R113) and raising an error
(60_exceptions.md R300 to R302). -/

namespace Sys2Proof.Machine

/-! ### The packet buffer -/

/-- The canonical form of the buffer: offsets strictly rising and inside the buffer. An unlisted byte is unwritten, so
no listed value equals what an unlisted offset holds. -/
abbrev Memory.wf (m : Memory) : Prop :=
  m.Pairwise (fun x y => x.1 < y.1) ∧ ∀ x ∈ m, x.1 < Config.bufBytes

/-- The byte at an offset, or none where it is unwritten (10_state.md R33). -/
def Memory.read : Memory → Nat → Option Byte
  | [], _ => none
  | (k, v) :: m, a => if k = a then some v else Memory.read m a

/-- The buffer with one byte set; keeps the offsets rising. -/
def Memory.write : Memory → Nat → Byte → Memory
  | [], a, b => [(a, b)]
  | (k, v) :: m, a, b =>
    if a < k then (a, b) :: (k, v) :: m
    else if a = k then (a, b) :: m
    else (k, v) :: Memory.write m a b

/-- MemRead(a, n) (20_memory.md R77): the n bytes from offset a, or the first unwritten offset among them. -/
def Memory.readBytes (m : Memory) (a : Nat) : Nat → Except Nat Bytes
  | 0 => .ok []
  | n + 1 =>
    match m.read a with
    | none => .error a
    | some b =>
      match Memory.readBytes m (a + 1) n with
      | .error e => .error e
      | .ok bs => .ok (b :: bs)

/-- MemWrite(a, len(v), v) (20_memory.md R77). -/
def Memory.writeBytes (m : Memory) (a : Nat) : Bytes → Memory
  | [] => m
  | b :: bs => Memory.writeBytes (m.write a b) (a + 1) bs

/-- The model-only fault record is set (10_state.md R53). -/
def State.recordFault (s : State) : State := { s with faulted := true }

/-- A command's MemRead: continues with the bytes, or records a fault where one is unwritten (10_state.md R33). -/
def State.load (s : State) (a n : Nat) (k : Bytes → Result) : Result :=
  match s.buf.readBytes a n with
  | .error x => .fault (.commandReadUnwritten x s.recordFault)
  | .ok bs => k bs

/-- A command's MemWrite (20_memory.md R77). -/
def State.store (s : State) (a : Nat) (v : Bytes) : State := { s with buf := s.buf.writeBytes a v }

/-- A range (a, n) fits in the buffer; the sum is unbounded, so it never wraps (60_exceptions.md R304). -/
def fits (a n : Nat) : Bool := decide (a + n ≤ Config.bufBytes)

/-! ### The slot table -/

/-- Slot c, or none where c >= NUM_CTX (30_encoding.md R102). -/
def State.slot? (s : State) (c : Nat) : Option Slot := s.slots[c]?

/-- Slot c where it exists and is valid (60_exceptions.md R301, checks 3 and 4). -/
def State.validSlot? (s : State) (c : Nat) : Option Slot := (s.slot? c).filter (·.valid)

/-- ctx[c] <- k; nothing where slot c does not exist. -/
def State.setSlot (s : State) (c : Nat) (k : Slot) : State := { s with slots := s.slots.setIfInBounds c k }

/-- RES[i] <- v (10_state.md R47). -/
def State.setRes (s : State) (i : Fin 8) (v : Word) : State := { s with res := s.res.set i v }

/-! ### Completion and errors -/

/-- Completion without an error: BUSY <- 0, DONE <- 1 (30_encoding.md R113). -/
def State.complete (s : State) : State :=
  { s with status := { s.status with busy := false, done := true } }

/-- The architectural errors (60_exceptions.md R300). -/
inductive CmdError where
  /-- 0x01. -/
  | illegalOpcode
  /-- 0x02. -/
  | reservedBits
  /-- 0x03. -/
  | badCtx
  /-- 0x04. -/
  | badKind
  /-- 0x05. -/
  | bounds
  /-- 0x06. -/
  | badParam
deriving DecidableEq, Repr

/-- The value STATUS.ERRCODE reports (60_exceptions.md R300). -/
def CmdError.code : CmdError → Byte
  | .illegalOpcode => 0x01
  | .reservedBits => 0x02
  | .badCtx => 0x03
  | .badKind => 0x04
  | .bounds => 0x05
  | .badParam => 0x06

/-- raise E(info): the command completes with the error, and nothing else changes (60_exceptions.md R302). The SCE
has no return from an error: the next issue clears it (R302, R310). -/
def State.raise (s : State) (e : CmdError) (info : Word) : State :=
  { s with
    status := { s.status with busy := false, done := true, err := true, errCode := e.code }
    errInfo := info }

/-- BadCtx unless slot c exists (60_exceptions.md R301, check 3); otherwise goes on with the slot. -/
def State.onSlot (s : State) (c : Nat) (k : Slot → Result) : Result :=
  match s.slot? c with
  | none => .next (s.raise .badCtx (BitVec.ofNat 32 c))
  | some x => k x

/-- BadCtx unless slot c exists and is valid (60_exceptions.md R301, checks 3 and 4); otherwise goes on with the
slot. -/
def State.onValidSlot (s : State) (c : Nat) (k : Slot → Result) : Result :=
  match s.validSlot? c with
  | none => .next (s.raise .badCtx (BitVec.ofNat 32 c))
  | some x => k x

end Sys2Proof.Machine
end

