-- ==== Sys2Proof/Machine/Kdf.lean ====
section
/-! DEFINITION. The KDF key-expansion unit (43_key_derivation.md R200 to R206). -/

namespace Sys2Proof.Machine

/-- r = RofIndex(kdr, i): 0 where kdr = 0, else i div kdr (43_key_derivation.md R201). -/
def rOfIndex (kdr : BitVec 64) (i : BitVec 48) : BitVec 48 :=
  if kdr = 0 then 0 else BitVec.ofNat 48 (i.toNat / kdr.toNat)

/-- KdfIv(label, r, ms) (43_key_derivation.md R202). -/
def kdfIv (label : Nat) (r : BitVec 48) (ms : Bytes) : Bytes :=
  xorBytes (salt14 ms) (be 14 (label * 2 ^ 48 + r.toNat))

/-- KDF(label, r, mk, ms, n) (43_key_derivation.md R200): AES-CM keyed by the master key, whatever the slot's
cipher. -/
def kdf (label : Nat) (r : BitVec 48) (mk ms : Bytes) (n : Nat) : Bytes := cmKeystream mk (kdfIv label r ms) n

/-- The label of the cipher key; the authentication key and the salt take the next two (43_key_derivation.md R203). -/
def kdfLabel : Kind → Nat
  | .srtp => 0x00
  | .srtcp => 0x03

/-- kdfOk: the master key is 16 or 32 bytes (10_state.md R35). -/
def Slot.kdfOk (k : Slot) : Bool := k.mkLen == 16 || k.mkLen == 32

/-- masterKey[0 .. mkLen). -/
def Slot.masterKeyBytes (k : Slot) : Bytes := fieldBytes k.masterKey k.mkLen

/-- masterSalt[0 .. msLen). -/
def Slot.masterSaltBytes (k : Slot) : Bytes := fieldBytes k.masterSalt k.msLen

/-- k_e[0 .. n_e). -/
def Slot.cipherKey (k : Slot) : Bytes := fieldBytes k.kE k.nE

/-- k_a[0 .. n_a). -/
def Slot.authKey (k : Slot) : Bytes := fieldBytes k.kA k.nA

/-- k_s[0 .. n_s). -/
def Slot.sessionSalt (k : Slot) : Bytes := fieldBytes k.kS k.nS

/-- DeriveKeys(c, i) on the slot's contents: all three session keys, keysValid and lastR, nothing else
(43_key_derivation.md R204). -/
def Slot.deriveKeys (k : Slot) (i : BitVec 48) : Slot :=
  let r := rOfIndex k.kdr i
  let l := kdfLabel k.kind
  { k with
    kE := padTo 32 (kdf l r k.masterKeyBytes k.masterSaltBytes k.nE.toNat)
    kA := padTo Config.maxAuthKeyBytes (kdf (l + 1) r k.masterKeyBytes k.masterSaltBytes k.nA.toNat)
    kS := padTo 14 (kdf (l + 2) r k.masterKeyBytes k.masterSaltBytes k.nS.toNat)
    keysValid := true
    lastR := r }

/-- NeedRekey(c, i) (43_key_derivation.md R206). -/
def Slot.needRekey (k : Slot) (i : BitVec 48) : Bool :=
  k.keysValid && k.kdr != 0 && rOfIndex k.kdr i != k.lastR

end Sys2Proof.Machine
end

