-- ==== Sys2Proof/Machine/Flags.lean ====
section
/-! DEFINITION. STATUS as the host sees it (10_state.md R43, R51), what issue clears (30_encoding.md R113), the
write-one-to-clear bits, and the interrupt output (60_exceptions.md R308). The SCE has no arithmetic flags (R51). -/

namespace Sys2Proof.Machine

/-- A flag in bit n of a word. -/
def flagAt (b : Bool) (n : Nat) : Word := (BitVec.ofBool b).setWidth 32 <<< n

/-- The word a read of STATUS returns (10_state.md R43): bits 7 and 31..16 are 0. -/
def Status.toWord (t : Status) : Word :=
  flagAt t.busy 0 ||| flagAt t.done 1 ||| flagAt t.err 2 ||| flagAt t.accept 3 ||| flagAt t.overrun 4
    ||| flagAt t.cfgEncDis 5 ||| flagAt t.cfgAuthDis 6 ||| (t.errCode.setWidth 32 <<< 8)

/-- A host write to STATUS: only DONE (bit 1) and OVERRUN (bit 4), and only where the written bit is 1
(10_state.md R43). -/
def Status.clearWritten (t : Status) (v : Word) : Status :=
  { t with done := t.done && !v.getLsbD 1, overrun := t.overrun && !v.getLsbD 4 }

/-- STATUS as issue leaves it: BUSY set, every other bit but OVERRUN cleared (30_encoding.md R113). -/
def Status.issued (t : Status) : Status :=
  { Status.reset with busy := true, overrun := t.overrun }

/-- The interrupt output: STATUS.DONE AND IRQ_ENABLE.DONE_IE (60_exceptions.md R308). -/
def State.irq (s : State) : Bool := s.status.done && s.doneIe

/-- STATUS.ACCEPT <- acc (44_replay_index.md R228). -/
def State.setAccept (s : State) (acc : Bool) : State := { s with status := { s.status with accept := acc } }

/-- STATUS.CFG_ENC_DIS and CFG_AUTH_DIS (60_exceptions.md R306). -/
def State.setCfg (s : State) (encDis authDis : Bool) : State :=
  { s with status := { s.status with cfgEncDis := encDis, cfgAuthDis := authDis } }

/-- Issue of command word w: CMD, LCMD and LARG latch, STATUS but OVERRUN and ERRINFO clear, BUSY <- 1
(30_encoding.md R113). -/
def State.issue (s : State) (w : Word) : State :=
  { s with cmd := w, lcmd := w, larg := s.arg, status := s.status.issued, errInfo := 0 }

/-- A host write of w to CMD: issue when idle; dropped with OVERRUN set when busy (30_encoding.md R113,
60_exceptions.md R305). -/
def State.writeCmd (s : State) (w : Word) : State :=
  if s.status.busy then { s with status := { s.status with overrun := true } } else s.issue w

end Sys2Proof.Machine
end

