-- ==== Sys2Proof/Machine/Operands.lean ====
section
/-! DEFINITION. The operands of the commands: the latched ARG registers (30_encoding.md R104 to R107) and the
parameter block of CTX_NEW (R108, R109). Bits a rule does not name are ignored (R114 (c)). -/

namespace Sys2Proof.Machine

/-- index = ARGhi[15:0] * 2^32 + ARGlo in an SRTP slot, ARGlo alone in an SRTCP slot (30_encoding.md R105). -/
def indexOperand (kind : Kind) (hi lo : Word) : BitVec 48 :=
  match kind with
  | .srtp => hi.setWidth 16 ++ lo
  | .srtcp => lo.setWidth 48

/-- DERIVE's index, from ARG0 and ARG1 (30_encoding.md R105). -/
def State.deriveIndex (s : State) (kind : Kind) : BitVec 48 := indexOperand kind s.larg[0] s.larg[1]

/-- ENCRYPT's index, from ARG3 and ARG4 (30_encoding.md R105). -/
def State.encryptIndex (s : State) (kind : Kind) : BitVec 48 := indexOperand kind s.larg[3] s.larg[4]

/-- seq = ARG0[15:0], zero-extended (30_encoding.md R107). -/
def State.seqOperand (s : State) : Word := (s.larg[0].setWidth 16).setWidth 32

/-- The x of CHECK and UPDATE: ARG0[15:0] in an SRTP slot, ARG0 in an SRTCP slot (30_encoding.md R107). -/
def State.xOperand (s : State) (kind : Kind) : Word :=
  match kind with
  | .srtp => s.seqOperand
  | .srtcp => s.larg[0]

/-- CTX_CLONE's kdr = ARG3 * 2^32 + ARG4 (30_encoding.md R106). -/
def State.kdrOperand (s : State) : BitVec 64 := s.larg[3] ++ s.larg[4]

/-- Bits [47:32] of a 48-bit value, zero-extended (44_replay_index.md R227, 43_key_derivation.md R207). -/
def hi16 (v : BitVec 48) : Word := (v.extractLsb' 32 16).setWidth 32

/-- Bits [31:0] of a 48-bit value (44_replay_index.md R227, 43_key_derivation.md R207). -/
def lo32 (v : BitVec 48) : Word := v.extractLsb' 0 32

/-- index >> 16, the ROC part of an SRTP index (30_encoding.md R105). -/
def rocPart (v : BitVec 48) : Word := v.extractLsb' 16 32

/-! ### The parameter block (30_encoding.md R108) -/

/-- The block's length in bytes (30_encoding.md R108). -/
def paramBlockBytes : Nat := 88

/-- Bytes 0 to 9 of the block, as requested (30_encoding.md R108). -/
structure ParamHead where
  /-- Offset 0. -/
  kind : Byte
  /-- Offset 1. -/
  encAlgo : Byte
  /-- Offset 2. -/
  authAlgo : Byte
  /-- Offset 3. -/
  mkLen : Byte
  /-- Offset 4. -/
  msLen : Byte
  /-- Offset 5. -/
  nE : Byte
  /-- Offset 6. -/
  nA : Byte
  /-- Offset 7. -/
  nS : Byte
  /-- Offset 8. -/
  tagLen : Byte
  /-- Offset 9. -/
  mkiLen : Byte
deriving DecidableEq, Repr

/-- The fields of block bytes 0 to 9 (30_encoding.md R108). -/
def ParamHead.ofBytes (b : Bytes) : ParamHead where
  kind := b.getD 0 0
  encAlgo := b.getD 1 0
  authAlgo := b.getD 2 0
  mkLen := b.getD 3 0
  msLen := b.getD 4 0
  nE := b.getD 5 0
  nA := b.getD 6 0
  nS := b.getD 7 0
  tagLen := b.getD 8 0
  mkiLen := b.getD 9 0

/-- The byte offset of the first field over its capacity, if any (30_encoding.md R109). -/
def ParamHead.overCapacity (q : ParamHead) : Option Nat :=
  if q.kind.toNat > 1 then some 0
  else if q.mkLen.toNat > 32 then some 3
  else if q.msLen.toNat > 14 then some 4
  else if q.nE.toNat > 32 then some 5
  else if q.nA.toNat > Config.maxAuthKeyBytes then some 6
  else if q.nS.toNat > 14 then some 7
  else if q.mkiLen.toNat > Config.maxMkiBytes then some 9
  else none

/-- Slot kind encoding: 0 = SRTP, 1 = SRTCP (30_encoding.md R111). -/
def Kind.ofByte (b : Byte) : Kind := if b = 0 then .srtp else .srtcp

/-- The bit a slot kind is encoded by (30_encoding.md R111). -/
def Kind.bit : Kind → Bool
  | .srtp => false
  | .srtcp => true

/-- Algorithm id to encryption algorithm; none is an unsupported id (30_encoding.md R110). -/
def EncAlgo.ofByte (b : Byte) : Option EncAlgo :=
  if b = 0 then some .null else if b = 1 then some .aesCm else if b = 2 then some .aesF8 else none

/-- Algorithm id to authentication algorithm; none is an unsupported id (30_encoding.md R110). -/
def AuthAlgo.ofByte (b : Byte) : Option AuthAlgo :=
  if b = 0 then some .null else if b = 1 then some .hmacSha1 else if b = 2 then some .hmacSkein else none

/-- The id of an encryption algorithm (30_encoding.md R110). -/
def EncAlgo.id : EncAlgo → Byte
  | .null => 0
  | .aesCm => 1
  | .aesF8 => 2

/-- The id of an authentication algorithm (30_encoding.md R110). -/
def AuthAlgo.id : AuthAlgo → Byte
  | .null => 0
  | .hmacSha1 => 1
  | .hmacSkein => 2

end Sys2Proof.Machine
end

