-- ==== Sys2Proof/Machine/ContextMgmt.lean ====
section
/-! DEFINITION. The context management commands NOP, CTX_NEW, CTX_CLONE, CTX_DESTROY and CTX_STATUS
(46_context_mgmt.md R270 to R275). -/

namespace Sys2Proof.Machine

/-! ### NOP -/

/-- NOP (46_context_mgmt.md R270): completes; CTX is ignored. -/
def execNop (_c : Nat) (s : State) : Result := .next s.complete

/-! ### CTX_NEW -/

/-- A master key length the KDF can run with (46_context_mgmt.md R271, kdfOk'). -/
def ParamHead.kdfOk (q : ParamHead) : Bool := q.mkLen == 16 || q.mkLen == 32

/-- encOk: the requested encryption algorithm can run (46_context_mgmt.md R271). -/
def ParamHead.encOk (q : ParamHead) : Bool :=
  match EncAlgo.ofByte q.encAlgo with
  | none => false
  | some .null => true
  | some .aesCm => q.kdfOk && (q.nE == 16 || q.nE == 32)
  | some .aesF8 => q.kdfOk && (q.nE == 16 || q.nE == 32) && decide (q.nS.toNat ≤ q.nE.toNat)

/-- authOk: the requested authentication algorithm can run, on an SCE with or without the Skein unit
(46_context_mgmt.md R271). -/
def ParamHead.authOk (hasSkein : Bool) (skeinBytes : Nat) (q : ParamHead) : Bool :=
  match AuthAlgo.ofByte q.authAlgo with
  | none => false
  | some .null => true
  | some .hmacSha1 => q.kdfOk && decide (q.tagLen.toNat ≤ Config.hmacSha1Bytes)
  | some .hmacSkein => hasSkein && q.kdfOk && decide (q.tagLen.toNat ≤ skeinBytes)

/-- The effective encryption algorithm: the requested one, or Null where it cannot run (46_context_mgmt.md R271;
10_state.md R24; log entry 6). -/
def ParamHead.effectiveEnc (q : ParamHead) : EncAlgo :=
  if q.encOk then (EncAlgo.ofByte q.encAlgo).getD .null else .null

/-- The effective authentication algorithm (46_context_mgmt.md R271; 10_state.md R24; log entry 6). -/
def ParamHead.effectiveAuth (hasSkein : Bool) (skeinBytes : Nat) (q : ParamHead) : AuthAlgo :=
  if q.authOk hasSkein skeinBytes then (AuthAlgo.ofByte q.authAlgo).getD .null else .null

/-- The slot CTX_NEW constructs: the reset slot with the block's fields and the effective algorithms of Configure
(46_context_mgmt.md R271, R272). -/
def newSlot (hasSkein : Bool) (skeinBytes : Nat) (q : ParamHead) (ssrc : Word) (kdr : BitVec 64)
    (mk ms mki : Bytes) : Slot :=
  { Slot.reset with
    valid := true
    kind := Kind.ofByte q.kind
    ssrc := ssrc
    kdr := kdr
    encAlgo := q.effectiveEnc
    encDis := !q.encOk
    authAlgo := q.effectiveAuth hasSkein skeinBytes
    authDis := !q.authOk hasSkein skeinBytes
    mkLen := q.mkLen
    msLen := q.msLen
    nE := q.nE
    nA := q.nA
    nS := q.nS
    tagLen := q.tagLen
    mkiLen := q.mkiLen
    masterKey := padTo 32 mk
    masterSalt := padTo 14 ms
    mki := padTo 16 mki }

/-- Reads the block's bytes from 12 on: ssrc, kdr, and the key, salt and MKI bytes within their lengths
(46_context_mgmt.md R272; 30_encoding.md R108). -/
def State.loadParamRest (s : State) (pb : Nat) (q : ParamHead)
    (k : Word → BitVec 64 → Bytes → Bytes → Bytes → Result) : Result :=
  s.load (pb + 12) 4 fun ssrc =>
  s.load (pb + 16) 8 fun kdr =>
  s.load (pb + 24) q.mkLen.toNat fun mk =>
  s.load (pb + 56) q.msLen.toNat fun ms =>
  s.load (pb + 72) q.mkiLen.toNat fun mki =>
  k (BitVec.ofNat 32 (beval ssrc)) (BitVec.ofNat 64 (beval kdr)) mk ms mki

/-- A newly constructed slot is stored, its refused algorithms are reported in STATUS, and the command completes
(46_context_mgmt.md R272, R273; 60_exceptions.md R306). -/
def State.installSlot (s : State) (c : Nat) (k : Slot) : State :=
  ((s.setSlot c k).setCfg k.encDis k.authDis).complete

/-- CTX_NEW (46_context_mgmt.md R272). -/
def execCtxNew (c : Nat) (s : State) : Result :=
  s.onSlot c fun _ =>
    let pb := s.larg[0].toNat
    if !fits pb paramBlockBytes then .next (s.raise .bounds s.larg[0])
    else
      s.load pb 10 fun head =>
        let q := ParamHead.ofBytes head
        match q.overCapacity with
        | some off => .next (s.raise .badParam (BitVec.ofNat 32 off))
        | none =>
          s.loadParamRest pb q fun ssrc kdr mk ms mki =>
            .next (s.installSlot c (newSlot Config.hasSkein Config.skeinMacBytes q ssrc kdr mk ms mki))

/-! ### CTX_CLONE -/

/-- The clone of slot t: its kind, algorithms, master key and salt, lengths and MKI, with a new SSRC, rate and ROC and
everything else reset (46_context_mgmt.md R273). -/
def cloneSlot (t : Slot) (ssrc roc : Word) (kdr : BitVec 64) : Slot :=
  let roc' := match t.kind with
    | .srtp => roc
    | .srtcp => 0
  { Slot.reset with
    valid := true
    kind := t.kind
    encAlgo := t.encAlgo
    encDis := t.encDis
    authAlgo := t.authAlgo
    authDis := t.authDis
    mkLen := t.mkLen
    masterKey := t.masterKey
    msLen := t.msLen
    masterSalt := t.masterSalt
    nE := t.nE
    nA := t.nA
    nS := t.nS
    tagLen := t.tagLen
    mkiLen := t.mkiLen
    mki := t.mki
    ssrc := ssrc
    kdr := kdr
    roc := roc'
    guessedRoc := roc' }

/-- CTX_CLONE (46_context_mgmt.md R273): the destination slot is checked first, then the source slot, whose BadCtx
reports the whole of ARG0 (60_exceptions.md R303). -/
def execCtxClone (c : Nat) (s : State) : Result :=
  s.onSlot c fun _ =>
    s.onValidSlot s.larg[0].toNat fun t =>
      .next (s.installSlot c (cloneSlot t s.larg[1] s.larg[2] s.kdrOperand))

/-! ### CTX_DESTROY -/

/-- CTX_DESTROY (46_context_mgmt.md R274). -/
def execCtxDestroy (c : Nat) (s : State) : Result :=
  s.onSlot c fun _ => .next (s.setSlot c Slot.reset).complete

/-! ### CTX_STATUS -/

/-- RES0 of CTX_STATUS (46_context_mgmt.md R275). -/
def Slot.statusWord0 (k : Slot) : Word :=
  flagAt k.valid 0 ||| flagAt k.kind.bit 1 ||| flagAt k.seqSet 2 ||| flagAt k.keysValid 3 ||| flagAt k.encDis 4
    ||| flagAt k.authDis 5 ||| (k.encAlgo.id.setWidth 32 <<< 8) ||| (k.authAlgo.id.setWidth 32 <<< 12)
    ||| (k.tagLen.setWidth 32 <<< 16) ||| (k.mkiLen.setWidth 32 <<< 24)

/-- RES7 of CTX_STATUS (46_context_mgmt.md R275). -/
def Slot.statusWord7 (k : Slot) : Word :=
  k.nE.setWidth 32 ||| (k.nA.setWidth 32 <<< 8) ||| (k.nS.setWidth 32 <<< 16) ||| (k.mkLen.setWidth 32 <<< 24)

/-- RES0 to RES7 of CTX_STATUS (46_context_mgmt.md R275). -/
def Slot.statusWords (k : Slot) : Vector Word 8 :=
  #v[k.statusWord0, k.roc, k.guessedRoc, k.sL, k.replayMask.extractLsb' 32 32, k.replayMask.extractLsb' 0 32,
    k.ssrc, k.statusWord7]

/-- CTX_STATUS (46_context_mgmt.md R275). -/
def execCtxStatus (c : Nat) (s : State) : Result :=
  s.onSlot c fun k => .next ({ s with res := k.statusWords } : State).complete

end Sys2Proof.Machine
end

