-- ==== Sys2Proof/Machine/KeyDerivation.lean ====
section
/-! DEFINITION. The DERIVE command (43_key_derivation.md R207). -/

namespace Sys2Proof.Machine

/-- RES0 to RES2 of DERIVE (43_key_derivation.md R207). -/
def State.setDeriveResult (s : State) (derived : Word) (r : BitVec 48) : State :=
  ((s.setRes 0 derived).setRes 1 (hi16 r)).setRes 2 (lo32 r)

/-- DERIVE (43_key_derivation.md R207): without a usable master key it derives nothing and reports zeros. -/
def execDerive (c : Nat) (s : State) : Result :=
  s.onValidSlot c fun k =>
    let i := s.deriveIndex k.kind
    if k.kdfOk then
      .next ((s.setSlot c (k.deriveKeys i)).setDeriveResult 1 (rOfIndex k.kdr i)).complete
    else
      .next (s.setDeriveResult 0 0).complete

end Sys2Proof.Machine
end

