-- ==== Sys2Proof/Machine/Authentication.lean ====
section
/-! DEFINITION. The authentication unit: SHA-1, HMAC and the MAC dispatch (42_authentication.md R180 to R187). -/

namespace Sys2Proof.Machine

/-! ### SHA-1 -/

/-- The number z of zero bytes in SHA-1's padding: the least with len + 1 + z + 8 a multiple of 64
(42_authentication.md R181). -/
def sha1PadZeros (len : Nat) : Nat := (119 - len % 64) % 64

/-- pad(M) (42_authentication.md R181). -/
def sha1Pad (m : Bytes) : Bytes := m ++ 0x80 :: (zeros (sha1PadZeros m.length) ++ be 8 (8 * m.length))

/-- The five working words, H or (a, b, c, d, e) (42_authentication.md R182, R183). -/
structure Sha1State where
  /-- H0 or a. -/
  a : Word
  /-- H1 or b. -/
  b : Word
  /-- H2 or c. -/
  c : Word
  /-- H3 or d. -/
  d : Word
  /-- H4 or e. -/
  e : Word
deriving DecidableEq, Repr

/-- The initial hash (42_authentication.md R182). -/
def sha1Init : Sha1State := ⟨0x67452301, 0xEFCDAB89, 0x98BADCFE, 0x10325476, 0xC3D2E1F0⟩

/-- rotl(x, n) (42_authentication.md R182). -/
def rotl (x : Word) (n : Nat) : Word := (x <<< n) ||| (x >>> (32 - n))

/-- f_t(b, c, d) (42_authentication.md R182). -/
def sha1F (t : Nat) (b c d : Word) : Word :=
  if t < 20 then (b &&& c) ||| (~~~b &&& d)
  else if t < 40 then b ^^^ c ^^^ d
  else if t < 60 then (b &&& c) ||| (b &&& d) ||| (c &&& d)
  else b ^^^ c ^^^ d

/-- K_t (42_authentication.md R182). -/
def sha1K (t : Nat) : Word :=
  if t < 20 then 0x5A827999 else if t < 40 then 0x6ED9EBA1 else if t < 60 then 0x8F1BBCDC else 0xCA62C1D6

/-- W[0..n-1] from a block (42_authentication.md R183). -/
def sha1BlockWords (block : Bytes) : Nat → List Word
  | 0 => []
  | n + 1 => sha1BlockWords block n ++ [BitVec.ofNat 32 (beval ((block.drop (4 * n)).take 4))]

/-- Appends n further words W[t] to the schedule (42_authentication.md R183). -/
def sha1Extend : Nat → List Word → List Word
  | 0, w => w
  | n + 1, w =>
    let t := w.length
    sha1Extend n
      (w ++ [rotl (w.getD (t - 3) 0 ^^^ w.getD (t - 8) 0 ^^^ w.getD (t - 14) 0 ^^^ w.getD (t - 16) 0) 1])

/-- One round t with schedule word w (42_authentication.md R183). -/
def sha1Round (t : Nat) (w : Word) (s : Sha1State) : Sha1State where
  a := rotl s.a 5 + sha1F t s.b s.c s.d + s.e + sha1K t + w
  b := s.a
  c := rotl s.b 30
  d := s.c
  e := s.d

/-- The rounds t, t+1, ... over the schedule words given (42_authentication.md R183). -/
def sha1Rounds : Nat → List Word → Sha1State → Sha1State
  | _, [], s => s
  | t, w :: ws, s => sha1Rounds (t + 1) ws (sha1Round t w s)

/-- The compression of one 64-byte block into H (42_authentication.md R183). -/
def sha1Compress (h : Sha1State) (block : Bytes) : Sha1State :=
  let r := sha1Rounds 0 (sha1Extend 64 (sha1BlockWords block 16)) h
  ⟨h.a + r.a, h.b + r.b, h.c + r.c, h.d + r.d, h.e + r.e⟩

/-- The compression of n 64-byte blocks in order (42_authentication.md R183). -/
def sha1Blocks : Nat → Bytes → Sha1State → Sha1State
  | 0, _, h => h
  | n + 1, m, h => sha1Blocks n (m.drop 64) (sha1Compress h (m.take 64))

/-- SHA1(M), 20 bytes (42_authentication.md R183). -/
def sha1 (m : Bytes) : Bytes :=
  let p := sha1Pad m
  let h := sha1Blocks (p.length / 64) p sha1Init
  be 4 h.a.toNat ++ be 4 h.b.toNat ++ be 4 h.c.toNat ++ be 4 h.d.toNat ++ be 4 h.e.toNat

/-! ### HMAC -/

/-- K0, the key prepared for a block of 64 bytes (42_authentication.md R184). -/
def hmacKey (key : Bytes) : Bytes :=
  let k := if key.length > 64 then sha1 key else key
  k ++ zeros (64 - k.length)

/-- HMAC_SHA1(key, msg) (42_authentication.md R185). -/
def hmacSha1 (key msg : Bytes) : Bytes :=
  sha1 (xorBytes (hmacKey key) (rep 0x5C 64) ++ sha1 (xorBytes (hmacKey key) (rep 0x36 64) ++ msg))

/-! ### MAC dispatch -/

/-- Mac(alg, key, msg) (42_authentication.md R180, R186); it is never called with Null. -/
def mac (alg : AuthAlgo) (key msg : Bytes) : Bytes :=
  match alg with
  | .null => []
  | .hmacSha1 => hmacSha1 key msg
  | .hmacSkein => (Config.skeinMac key msg).toList

/-- macLen(alg) (42_authentication.md R180). -/
def macLen (alg : AuthAlgo) : Nat :=
  match alg with
  | .null => 0
  | .hmacSha1 => Config.hmacSha1Bytes
  | .hmacSkein => Config.skeinMacBytes

/-- The tag: the first tagLen bytes of the MAC (42_authentication.md R187). -/
def tagOf (alg : AuthAlgo) (key msg : Bytes) (tagLen : Nat) : Bytes := (mac alg key msg).take tagLen

/-- The MAC input over the region's bytes: an SRTP slot appends the ROC, an SRTCP slot nothing
(42_authentication.md R188, R189). -/
def macInput (kind : Kind) (region : Bytes) (roc : Word) : Bytes :=
  match kind with
  | .srtp => region ++ be 4 roc.toNat
  | .srtcp => region

end Sys2Proof.Machine
end

