-- ==== Sys2Proof/Machine/PacketOps.lean ====
section
/-! DEFINITION. The packet commands ENCRYPT and AUTH (45_packet_ops.md R250, R251). -/

namespace Sys2Proof.Machine

/-! ### ENCRYPT -/

/-- hmin, the header bytes the F8 IV needs (45_packet_ops.md R250). -/
def f8HeaderBytes : Kind → Nat
  | .srtp => 12
  | .srtcp => 8

/-- The counter-mode IV for a packet of the slot (45_packet_ops.md R250; 41_cipher_modes.md R168, R169). -/
def Slot.cmIv (k : Slot) (ssrc : Word) (i : BitVec 48) : Bytes :=
  match k.kind with
  | .srtp => cmIvRtp k.sessionSalt ssrc i
  | .srtcp => cmIvRtcp k.sessionSalt ssrc (lo32 i)

/-- The F8 IV for a packet of the slot, from its header bytes (45_packet_ops.md R250; 41_cipher_modes.md R170,
R171). -/
def Slot.f8Iv (k : Slot) (hdr : Bytes) (i : BitVec 48) : Bytes :=
  match k.kind with
  | .srtp => f8IvRtp hdr (rocPart i)
  | .srtcp => f8IvRtcp hdr (lo32 i)

/-- ENCRYPT's keystream step: reads the payload at p + h and, for AES-F8, the header at p, and continues with the
payload XORed with the keystream (45_packet_ops.md R250). -/
def State.cipherPayload (s : State) (k : Slot) (p h l : Nat) (ssrc : Word) (i : BitVec 48)
    (cont : Bytes → Result) : Result :=
  s.load (p + h) l fun d =>
    match k.encAlgo with
    | .null => cont d
    | .aesCm => cont (cmApply k.cipherKey (k.cmIv ssrc i) d)
    | .aesF8 =>
      s.load p (f8HeaderBytes k.kind) fun hdr => cont (f8Apply k.cipherKey k.sessionSalt (k.f8Iv hdr i) d)

/-- The slot ENCRYPT encrypts with: its keys derived again where NeedRekey holds (45_packet_ops.md R250). -/
def Slot.rekeyed (k : Slot) (i : BitVec 48) : Slot := if k.needRekey i then k.deriveKeys i else k

/-- ENCRYPT applies a keystream: an algorithm is enabled and keys have been derived (45_packet_ops.md R250). -/
def Slot.encrypts (k : Slot) : Bool := k.encAlgo != .null && k.keysValid

/-- RES0 of ENCRYPT: bit 0 keystream applied, bit 1 keys derived again (45_packet_ops.md R250). -/
def encryptResult (applied rekeyed : Bool) : Word := flagAt applied 0 ||| flagAt rekeyed 1

/-- ENCRYPT (45_packet_ops.md R250): encrypts and decrypts. -/
def execEncrypt (c : Nat) (s : State) : Result :=
  s.onValidSlot c fun k =>
    let p := s.larg[0].toNat
    let h := s.larg[1].toNat
    let l := s.larg[2].toNat
    let i := s.encryptIndex k.kind
    if !fits p (h + l) then .next (s.raise .bounds s.larg[0])
    else if k.encAlgo == .aesF8 && decide (h < f8HeaderBytes k.kind) then .next (s.raise .badParam s.larg[1])
    else
      let k' := k.rekeyed i
      let t := s.setSlot c k'
      if k'.encrypts then
        s.cipherPayload k' p h l s.larg[5] i fun o =>
          .next ((t.store (p + h) o).setRes 0 (encryptResult true (k.needRekey i))).complete
      else
        .next (t.setRes 0 (encryptResult false (k.needRekey i))).complete

/-! ### AUTH -/

/-- AUTH writes a tag: an algorithm is enabled and keys have been derived (45_packet_ops.md R251). -/
def Slot.authenticates (k : Slot) : Bool := k.authAlgo != .null && k.keysValid

/-- The tag of a region's bytes under the slot's authentication key (45_packet_ops.md R251). -/
def Slot.tag (k : Slot) (region : Bytes) (roc : Word) : Bytes :=
  tagOf k.authAlgo k.authKey (macInput k.kind region roc) k.tagLen.toNat

/-- AUTH (45_packet_ops.md R251). -/
def execAuth (c : Nat) (s : State) : Result :=
  s.onValidSlot c fun k =>
    let a := s.larg[0].toNat
    let n := s.larg[1].toNat
    let t := s.larg[3].toNat
    if !fits a n then .next (s.raise .bounds s.larg[0])
    else if !k.authenticates then .next (s.setRes 0 0).complete
    else if !fits t k.tagLen.toNat then .next (s.raise .bounds s.larg[3])
    else
      s.load a n fun region =>
        .next ((s.store t (k.tag region s.larg[2])).setRes 0 (k.tagLen.setWidth 32)).complete

end Sys2Proof.Machine
end

