-- ==== Sys2Proof/Machine/Replay.lean ====
section
/-! DEFINITION. The ROC guessing FSM and the 64-bit replay window (44_replay_index.md R220 to R229), as functions of a
slot. Arithmetic is on unbounded numbers (R220); FIRST_ROC_POLICY is an argument (R221). -/

namespace Sys2Proof.Machine

/-- FirstPacket(c, x): the index state initialised from the first packet (44_replay_index.md R221). -/
def Slot.firstPacket (policy : Config.RocPolicy) (k : Slot) (x : Word) : Slot :=
  match k.kind with
  | .srtp =>
    let roc := match policy with
      | .zero => 0
      | .keep => k.roc
    { k with sL := x, seqSet := true, roc := roc, guessedRoc := roc }
  | .srtcp => { k with sL := x, seqSet := true }

/-- The v of GuessRoc from roc, s_l and seq (44_replay_index.md R222). A difference compared with 32768 is moved to the
other side of the comparison, where it cannot be negative; r - 1 on naturals stops at 0, which is R222's lower clamp. -/
def guessRocFrom (r s seq : Nat) : Nat :=
  if s < 32768 then
    if seq > s + 32768 then r - 1 else r
  else
    if s > seq + 32768 then min (r + 1) (2 ^ 32 - 1) else r

/-- GuessRoc(c, seq) (44_replay_index.md R222). -/
def Slot.guessRoc (k : Slot) (seq : Word) : Word :=
  BitVec.ofNat 32 (guessRocFrom k.roc.toNat k.sL.toNat seq.toNat)

/-- The 48-bit index v * 2^16 + seq (44_replay_index.md R223). -/
def packetIndex (v seq : Word) : BitVec 48 := BitVec.ofNat 48 (v.toNat * 2 ^ 16 + seq.toNat)

/-- Delta(c, x): how far x lies ahead of the last validated packet (44_replay_index.md R224). -/
def Slot.delta (k : Slot) (x : Word) : Int :=
  match k.kind with
  | .srtp => ((k.guessRoc x).toNat * 2 ^ 16 + x.toNat : Int) - (k.roc.toNat * 2 ^ 16 + k.sL.toNat : Int)
  | .srtcp => (x.toNat : Int) - (k.sL.toNat : Int)

/-- ReplayBit(mask, off): 0 at offsets of 64 or more (44_replay_index.md R225; 90_conflicts.md C3). -/
def replayBit (mask : BitVec 64) (off : Nat) : Bool := if off ≥ 64 then false else mask.getLsbD off

/-- ShiftWindow(mask, d): 0 at shifts of 64 or more (44_replay_index.md R226). -/
def shiftWindow (mask : BitVec 64) (d : Nat) : BitVec 64 := if d ≥ 64 then 0 else mask <<< d

/-- guessedRoc <- GuessRoc(c, x) in an SRTP slot (44_replay_index.md R228, R229). -/
def Slot.recordGuess (k : Slot) (x : Word) : Slot :=
  match k.kind with
  | .srtp => { k with guessedRoc := k.guessRoc x }
  | .srtcp => k

/-- The verdict on a packet that is not the first, from its delta (44_replay_index.md R228). -/
def acceptDelta (mask : BitVec 64) (d : Int) : Bool :=
  if d > 0 then true
  else if (-d).toNat > 64 then false
  else !replayBit mask (-d).toNat

/-- A null-algorithm context: both effective algorithms are Null (44_replay_index.md R228). -/
def Slot.isNull (k : Slot) : Bool := k.encAlgo == .null && k.authAlgo == .null

/-- CHECK on the slot's contents: the verdict and the slot afterwards (44_replay_index.md R228). -/
def Slot.check (policy : Config.RocPolicy) (k : Slot) (x : Word) : Bool × Slot :=
  if k.isNull then (true, k)
  else if !k.seqSet then (true, k.firstPacket policy x)
  else (acceptDelta k.replayMask (k.delta x), k.recordGuess x)

/-- UPDATE's commit on a slot whose first packet has been seen (44_replay_index.md R229). -/
def Slot.commit (k : Slot) (x : Word) : Slot :=
  let d := k.delta x
  let k' := k.recordGuess x
  if d > 0 then
    { k' with
      replayMask := shiftWindow k.replayMask d.toNat ||| 1
      sL := x
      roc := match k.kind with
        | .srtp => k.guessRoc x
        | .srtcp => k.roc }
  else if (-d).toNat < 64 then { k' with replayMask := k.replayMask ||| (1#64 <<< (-d).toNat) }
  else k'

/-- UPDATE on the slot's contents (44_replay_index.md R229). -/
def Slot.update (policy : Config.RocPolicy) (k : Slot) (x : Word) : Slot :=
  (if k.seqSet then k else k.firstPacket policy x).commit x

/-- GUESS on the slot's contents: the index and the slot afterwards (44_replay_index.md R227). -/
def Slot.guess (policy : Config.RocPolicy) (k : Slot) (seq : Word) : BitVec 48 × Slot :=
  if k.seqSet then
    (packetIndex (k.guessRoc seq) seq, { k with guessedRoc := k.guessRoc seq })
  else
    (packetIndex (k.firstPacket policy seq).roc seq, k.firstPacket policy seq)

end Sys2Proof.Machine
end

