-- ==== Sys2Proof/Machine/ReplayIndex.lean ====
section
/-! DEFINITION. The GUESS, CHECK and UPDATE commands (44_replay_index.md R227 to R229). -/

namespace Sys2Proof.Machine

/-- GUESS (44_replay_index.md R227): BadKind on an SRTCP slot. -/
def execGuess (c : Nat) (s : State) : Result :=
  s.onValidSlot c fun k =>
    match k.kind with
    | .srtcp => .next (s.raise .badKind (BitVec.ofNat 32 c))
    | .srtp =>
      let g := k.guess Config.firstRocPolicy s.seqOperand
      .next (((s.setSlot c g.2).setRes 0 (hi16 g.1)).setRes 1 (lo32 g.1)).complete

/-- CHECK (44_replay_index.md R228): the verdict is STATUS.ACCEPT and RES0; a rejection is no error. -/
def execCheck (c : Nat) (s : State) : Result :=
  s.onValidSlot c fun k =>
    let v := k.check Config.firstRocPolicy (s.xOperand k.kind)
    .next (((s.setSlot c v.2).setAccept v.1).setRes 0 (flagAt v.1 0)).complete

/-- UPDATE (44_replay_index.md R229). -/
def execUpdate (c : Nat) (s : State) : Result :=
  s.onValidSlot c fun k =>
    .next (s.setSlot c (k.update Config.firstRocPolicy (s.xOperand k.kind))).complete

end Sys2Proof.Machine
end

