-- ==== Sys2Proof/Machine/Dispatch.lean ====
section
/-! DEFINITION. One arm per command (30_encoding.md R101). -/

namespace Sys2Proof.Machine

-- Runs one command to its completion on the latched operands.
def exec (i : Instr) (s : State) : Host.Outcome State Fault Refusal :=
  match i with
  | .nop c => Sys2Proof.Machine.execNop c s
  | .ctxNew c => Sys2Proof.Machine.execCtxNew c s
  | .ctxClone c => Sys2Proof.Machine.execCtxClone c s
  | .ctxDestroy c => Sys2Proof.Machine.execCtxDestroy c s
  | .ctxStatus c => Sys2Proof.Machine.execCtxStatus c s
  | .derive c => Sys2Proof.Machine.execDerive c s
  | .guess c => Sys2Proof.Machine.execGuess c s
  | .check c => Sys2Proof.Machine.execCheck c s
  | .update c => Sys2Proof.Machine.execUpdate c s
  | .encrypt c => Sys2Proof.Machine.execEncrypt c s
  | .auth c => Sys2Proof.Machine.execAuth c s

end Sys2Proof.Machine
end

