-- ==== Sys2Proof/Machine/HostPort.lean ====
section
/-! DEFINITION. The host port: the aperture map (20_memory.md R70, R71), register accesses (R72, R73; 10_state.md R40 to
R47) and buffer-window accesses (R74, R76). -/

namespace Sys2Proof.Machine

/-! ### The aperture -/

/-- The size of the host aperture, 128 KiB (20_memory.md R70). -/
def apertureBytes : Nat := 0x20000

/-- The aperture offset of the buffer window (20_memory.md R71). -/
def windowBase : Nat := 0x10000

/-- The aperture offset of a host bus address, or none where the address is not the SCE's (20_memory.md R70). -/
def apertureOffset (addr : Nat) : Option Nat :=
  if Config.baseAddr ≤ addr ∧ addr < Config.baseAddr + apertureBytes then some (addr - Config.baseAddr) else none

/-- The bytes an access covers (20_memory.md R72, R74). -/
def Width.bytes : Width → Nat
  | .w8 => 1
  | .w16 => 2
  | .w32 => 4

/-- Naturally aligned: the offset is a multiple of the access's size (20_memory.md R72, R74). -/
def aligned (off : Nat) (width : Width) : Bool := off % width.bytes == 0

/-- The regions of the aperture map (20_memory.md R71). -/
inductive Region where
  /-- Offsets 0x00000..0x0FFFF, the registers and the reserved offsets after them. -/
  | registers
  /-- The packet buffer, from 0x10000 on. -/
  | window
  /-- Reserved, above the window. -/
  | reserved
  /-- Not the SCE's. -/
  | outside
deriving DecidableEq, Repr

/-- The region of an aperture offset (20_memory.md R71). -/
def Region.ofOffset (off : Nat) : Region :=
  if off < windowBase then .registers
  else if off < windowBase + Config.bufBytes then .window
  else if off < apertureBytes then .reserved
  else .outside

/-! ### Registers -/

/-- The host-visible registers (10_state.md R40 to R47). -/
inductive Reg where
  /-- R40. -/
  | id
  /-- R40. -/
  | version
  /-- R41. -/
  | caps0
  /-- R41. -/
  | caps1
  /-- R42. -/
  | cmd
  /-- R43. -/
  | status
  /-- R41. -/
  | caps2
  /-- R44. -/
  | irqEnable
  /-- R45. -/
  | errInfo
  /-- R46. -/
  | arg (i : Fin 8)
  /-- R47. -/
  | res (i : Fin 8)
  /-- A reserved offset (20_memory.md R73). -/
  | reserved
deriving DecidableEq, Repr

/-- The register at an aligned offset (10_state.md R40 to R47; 20_memory.md R71). -/
def Reg.ofOffset (off : Nat) : Reg :=
  if off = 0x000 then .id
  else if off = 0x004 then .version
  else if off = 0x008 then .caps0
  else if off = 0x00C then .caps1
  else if off = 0x010 then .cmd
  else if off = 0x014 then .status
  else if off = 0x018 then .caps2
  else if off = 0x01C then .irqEnable
  else if off = 0x020 then .errInfo
  else if 0x040 ≤ off ∧ off < 0x060 then .arg (Fin.ofNat 8 ((off - 0x040) / 4))
  else if 0x060 ≤ off ∧ off < 0x080 then .res (Fin.ofNat 8 ((off - 0x060) / 4))
  else .reserved

/-- ID, the ASCII bytes "SCE1" (10_state.md R40). -/
def idValue : Word := 0x53434531

/-- VERSION (10_state.md R40). -/
def versionValue : Word := 0x00000001

/-- CAPS2 on an SCE with or without the Skein unit (10_state.md R41). -/
def caps2Value (hasSkein : Bool) (skeinBytes : Nat) : Word :=
  flagAt hasSkein 0 ||| (BitVec.ofNat 8 Config.maxAuthKeyBytes).setWidth 32 <<< 8
    ||| (BitVec.ofNat 8 Config.maxMkiBytes).setWidth 32 <<< 16
    ||| (if hasSkein then (BitVec.ofNat 8 skeinBytes).setWidth 32 <<< 24 else 0)

/-- The word a read of a register returns (10_state.md R40 to R47); a reserved offset reads 0 (20_memory.md R73). -/
def State.readReg (s : State) : Reg → Word
  | .id => idValue
  | .version => versionValue
  | .caps0 => BitVec.ofNat 32 Config.numCtx
  | .caps1 => BitVec.ofNat 32 Config.bufBytes
  | .cmd => s.cmd
  | .status => s.status.toWord
  | .caps2 => caps2Value Config.hasSkein Config.skeinMacBytes
  | .irqEnable => flagAt s.doneIe 0
  | .errInfo => s.errInfo
  | .arg i => s.arg[i]
  | .res i => s.res[i]
  | .reserved => 0

/-- The state after a write of a register: CMD issues, STATUS clears, IRQ_ENABLE and ARG store, and every other
register ignores the write (10_state.md R40 to R47; 20_memory.md R73). -/
def State.writeReg (s : State) (r : Reg) (v : Word) : State :=
  match r with
  | .cmd => s.writeCmd v
  | .status => { s with status := s.status.clearWritten v }
  | .irqEnable => { s with doneIe := v.getLsbD 0 }
  | .arg i => { s with arg := s.arg.set i v }
  | .id | .version | .caps0 | .caps1 | .caps2 | .errInfo | .res _ | .reserved => s

/-! ### Accesses -/

/-- The data a host read returns, on the host port (log entry 3). -/
def State.driveRead (s : State) (v : Word) : State := { s with readData := some v }

/-- A host read at an aperture offset (20_memory.md R72 to R76). It changes nothing but the data driven (R73). The
reserved region above the window reads 0 at every width (92_eei_decisions.md D3; DEDUCED for the narrow and the
misaligned reads, log entry 7). -/
def State.hostRead (s : State) (off : Nat) (width : Width) : Result :=
  match Region.ofOffset off with
  | .registers =>
    if width = .w32 ∧ aligned off width then .next (s.driveRead (s.readReg (Reg.ofOffset off)))
    else .refused (.registerAccess off)
  | .window =>
    if s.status.busy then .refused (.bufferWhileBusy off)
    else if !aligned off width then .refused (.bufferMisaligned off)
    else
      match s.buf.readBytes (off - windowBase) width.bytes with
      | .error a => .fault (.hostReadUnwritten a s.recordFault)
      | .ok bs => .next (s.driveRead (leWord bs))
  | .reserved =>
    if off + width.bytes ≤ apertureBytes then .next (s.driveRead 0) else .refused (.outsideAperture off)
  | .outside => .refused (.outsideAperture off)

/-- A host write at an aperture offset (20_memory.md R72 to R76); a narrow write stores the low bits of its data
(R74), and a write to a reserved offset is ignored (R73). -/
def State.hostWrite (s : State) (off : Nat) (width : Width) (v : Word) : Result :=
  match Region.ofOffset off with
  | .registers =>
    if width = .w32 ∧ aligned off width then .next (s.writeReg (Reg.ofOffset off) v)
    else .refused (.registerAccess off)
  | .window =>
    if s.status.busy then .refused (.bufferWhileBusy off)
    else if !aligned off width then .refused (.bufferMisaligned off)
    else .next (s.store (off - windowBase) (leBytes width.bytes v))
  | .reserved => if off + width.bytes ≤ apertureBytes then .next s else .refused (.outsideAperture off)
  | .outside => .refused (.outsideAperture off)

end Sys2Proof.Machine
end

