-- ==== Sys2Proof/Machine/Engine.lean ====
section
/-! DEFINITION. The command engine (30_encoding.md R112, R113) and the order in which the SCE serves what happens at its
boundary (20_memory.md R81; log entry 2). -/

namespace Sys2Proof.Machine

/-- The command in flight runs to its completion: LCMD is decoded, an illegal or reserved word completes with its error,
and every other word runs as its command (30_encoding.md R112, R113, R114). -/
def State.runLatched (s : State) : Result :=
  match decode s.lcmd with
  | .ok i => exec i s
  | .error (.illegalOpcode op) => .next (s.raise .illegalOpcode (op.setWidth 32))
  | .error (.reservedBits w) => .next (s.raise .reservedBits w)

/-- The engine's turn: it completes the command in flight, and does nothing when idle (60_exceptions.md R315). -/
def State.engineTurn (s : State) : Result := if s.status.busy then s.runLatched else .next s

/-- The reset input: every element of the state at its reset value, whether or not a command is in flight
(70_reset_and_hazards.md R330, R331). The inputs still to come are the outside world's and stay. -/
def State.hardReset (s : State) : State := { State.reset with schedule := s.schedule }

/-- One input is served. -/
def State.serve (s : State) : Event → Result
  | .read off width => s.hostRead off width
  | .write off width v => s.hostWrite off width v
  | .engine => s.engineTurn
  | .reset => .next s.hardReset

/-- The oldest input is taken from the schedule and served; with none left, the engine has its turn, so a command in
flight always completes (70_reset_and_hazards.md R345). A recorded fault is never cleared (10_state.md R53). -/
def State.advance (s : State) : Result :=
  if s.faulted then .fault .recorded
  else
    match s.schedule with
    | [] => s.engineTurn
    | e :: rest => ({ s with schedule := rest } : State).serve e

/-- State s with command word w issued and its completion as the next input: what a host's write of w to CMD and the
engine's turn after it bring about (30_encoding.md R113; log entry 5). -/
def State.stage (s : State) (w : Word) : State := { s.issue w with schedule := .engine :: s.schedule }

end Sys2Proof.Machine
end

