-- ==== Sys2Proof/Machine/Step.lean ====
section
/-! DEFINITION. One step of the SCE: the next input at its boundary, or the completion of the command in flight. -/

namespace Sys2Proof.Machine

/-- One step (20_memory.md R81). -/
def step (s : State) : Host.Outcome State Fault Refusal := s.advance

/-- s with an opcode-table word of nbits bits issued and about to run (log entry 5). -/
def State.withFetchWord (s : State) (nbits w : Nat) : State := s.stage (BitVec.ofNat 32 (w % 2 ^ nbits))

end Sys2Proof.Machine
end

