-- ==== Sys2Proof/Machine/Assembler.lean ====
section
/-! DEFINITION. The assembler syntax and the pseudo-commands (30_encoding.md R116, R117), as the host accesses they
stand for. The host's own control flow between accesses (reading RES, comparing tags, IF) is the host program's. -/

namespace Sys2Proof.Machine

/-- An assembled command (30_encoding.md R116). -/
inductive AsmCommand where
  /-- NOP. -/
  | nop
  /-- CTX_NEW c, pb. -/
  | ctxNew (c : Nat) (pb : Word)
  /-- CTX_CLONE c, src, ssrc, roc, kdr. -/
  | ctxClone (c : Nat) (src ssrc roc : Word) (kdr : BitVec 64)
  /-- CTX_DESTROY c. -/
  | ctxDestroy (c : Nat)
  /-- CTX_STATUS c. -/
  | ctxStatus (c : Nat)
  /-- DERIVE c, index. -/
  | derive (c : Nat) (index : BitVec 48)
  /-- GUESS c, seq. -/
  | guess (c : Nat) (seq : BitVec 16)
  /-- CHECK c, x. -/
  | check (c : Nat) (x : Word)
  /-- UPDATE c, x. -/
  | update (c : Nat) (x : Word)
  /-- ENCRYPT c, p, h, l, index, ssrc. -/
  | encrypt (c : Nat) (p h l : Word) (index : BitVec 48) (ssrc : Word)
  /-- AUTH c, a, n, roc, t. -/
  | auth (c : Nat) (a n roc t : Word)
deriving DecidableEq, Repr

/-- The command an assembled line issues (30_encoding.md R116). -/
def AsmCommand.instr : AsmCommand → Instr
  | .nop => .nop 0
  | .ctxNew c _ => .ctxNew c
  | .ctxClone c _ _ _ _ => .ctxClone c
  | .ctxDestroy c => .ctxDestroy c
  | .ctxStatus c => .ctxStatus c
  | .derive c _ => .derive c
  | .guess c _ => .guess c
  | .check c _ => .check c
  | .update c _ => .update c
  | .encrypt c _ _ _ _ _ => .encrypt c
  | .auth c _ _ _ _ => .auth c

/-- The values an assembled line writes to ARG0, ARG1, ... (30_encoding.md R116). -/
def AsmCommand.args : AsmCommand → List Word
  | .nop => []
  | .ctxNew _ pb => [pb]
  | .ctxClone _ src ssrc roc kdr => [src, ssrc, roc, kdr.extractLsb' 32 32, kdr.extractLsb' 0 32]
  | .ctxDestroy _ => []
  | .ctxStatus _ => []
  | .derive _ i => [hi16 i, lo32 i]
  | .guess _ seq => [seq.setWidth 32]
  | .check _ x => [x]
  | .update _ x => [x]
  | .encrypt _ p h l i v => [p, h, l, hi16 i, lo32 i, v]
  | .auth _ a n roc t => [a, n, roc, t]

/-- Host writes of successive ARG registers from ARGi on (10_state.md R46). -/
def writeArgs : Nat → List Word → List Event
  | _, [] => []
  | i, v :: vs => .write (0x040 + 4 * i) .w32 v :: writeArgs (i + 1) vs

/-- The host accesses of an assembled line and the WAIT after it: the ARG registers first, CMD last, then the engine's
turn (30_encoding.md R116). -/
def AsmCommand.events (a : AsmCommand) : List Event :=
  writeArgs 0 a.args ++ [.write 0x010 .w32 (encode a.instr), .engine]

/-- WRBUF: bytes stored into the buffer window from a buffer offset on, as 8-bit accesses (30_encoding.md R116;
20_memory.md R74). -/
def writeBufEvents (off : Nat) : Bytes → List Event
  | [] => []
  | b :: bs => .write (windowBase + off) .w8 (b.setWidth 32) :: writeBufEvents (off + 1) bs

/-- PROTECT_RTP c, p, h, l, i, v, t (30_encoding.md R117). -/
def protectRtp (c : Nat) (p h l : Word) (i : BitVec 48) (v t : Word) : List AsmCommand :=
  [.encrypt c p h l i v, .auth c p (h + l) (rocPart i) t]

/-- UNPROTECT_RTP's first two commands, before the index is known to the host (30_encoding.md R117). -/
def unprotectRtpLookup (c : Nat) (seq : BitVec 16) : List AsmCommand := [.guess c seq, .check c (seq.setWidth 32)]

/-- UNPROTECT_RTP's AUTH into a scratch tag range, on an accepted packet of index i (30_encoding.md R117). -/
def unprotectRtpAuth (c : Nat) (p h l : Word) (i : BitVec 48) (scratch : Word) : List AsmCommand :=
  [.auth c p (h + l) (rocPart i) scratch]

/-- UNPROTECT_RTP's last two commands, after the host found the tags equal (30_encoding.md R117). -/
def unprotectRtpFinish (c : Nat) (p h l : Word) (i : BitVec 48) (v : Word) (seq : BitVec 16) : List AsmCommand :=
  [.encrypt c p h l i v, .update c (seq.setWidth 32)]

/-- PROTECT_RTCP c, p, l, i, v, t: ENCRYPT behind the 8-byte header, the host's trailer BE32(0x80000000 | i), AUTH over
header, payload and trailer (30_encoding.md R117). -/
def protectRtcp (c : Nat) (p l i v t : Word) : List Event :=
  (AsmCommand.encrypt c p 8 l (i.setWidth 48) v).events
    ++ writeBufEvents (p + 8 + l).toNat (be 4 (0x80000000#32 ||| i).toNat)
    ++ (AsmCommand.auth c p (8 + l + 4) 0 t).events

end Sys2Proof.Machine
end

