-- ==== Sys2Proof/Safety.lean ====
section
/-! DEFINITION. What claims about the SCE are stated in: the slot invariants of 10_state.md R34 and the state invariant
around them, what a command leaves unchanged, which buffer bytes are written, and what is secret (10_state.md R32). -/

namespace Sys2Proof

/-- How many RES words, from RES0 on, a command writes when it completes without an error (30_encoding.md R104). -/
def Instr.resWords : Instr → Nat
  | .nop _ | .ctxNew _ | .ctxClone _ | .ctxDestroy _ | .update _ => 0
  | .ctxStatus _ => 8
  | .derive _ => 3
  | .guess _ => 2
  | .check _ | .encrypt _ | .auth _ => 1

end Sys2Proof

namespace Sys2Proof.Machine

/-! ### Invariants -/

/-- The bytes of a key field from offset n on are zero (10_state.md R34 (a)). -/
def zeroFrom {m : Nat} (field : Vector Byte m) (n : Nat) : Prop := ∀ (i : Nat) (h : i < m), n ≤ i → field[i] = 0

/-- The invariants of one slot: R34 (a) to (f) with the capacities of R25 to R27, R22's invalid slot, and what the
fields of an underived (R29, R30) and of an unstarted slot (R31) hold. -/
structure Slot.Ok (k : Slot) : Prop where
  /-- R25. -/
  mkLen_le : k.mkLen.toNat ≤ 32
  /-- R25. -/
  msLen_le : k.msLen.toNat ≤ 14
  /-- R26. -/
  nE_le : k.nE.toNat ≤ 32
  /-- R26. -/
  nA_le : k.nA.toNat ≤ Config.maxAuthKeyBytes
  /-- R26. -/
  nS_le : k.nS.toNat ≤ 14
  /-- R27. -/
  mkiLen_le : k.mkiLen.toNat ≤ Config.maxMkiBytes
  /-- R34 (a). -/
  masterKey_zero : zeroFrom k.masterKey k.mkLen.toNat
  /-- R34 (a). -/
  masterSalt_zero : zeroFrom k.masterSalt k.msLen.toNat
  /-- R34 (a). -/
  mki_zero : zeroFrom k.mki k.mkiLen.toNat
  /-- R34 (a). -/
  kE_zero : zeroFrom k.kE k.nE.toNat
  /-- R34 (a). -/
  kA_zero : zeroFrom k.kA k.nA.toNat
  /-- R34 (a). -/
  kS_zero : zeroFrom k.kS k.nS.toNat
  /-- R34 (c). -/
  enc_usable : k.encAlgo ≠ .null → k.kdfOk = true ∧ (k.nE.toNat = 16 ∨ k.nE.toNat = 32)
  /-- R34 (c). -/
  f8_usable : k.encAlgo = .aesF8 → k.nS.toNat ≤ k.nE.toNat
  /-- R34 (d). -/
  auth_usable : k.authAlgo ≠ .null → k.kdfOk = true
  /-- R34 (d). -/
  sha1_tag : k.authAlgo = .hmacSha1 → k.tagLen.toNat ≤ Config.hmacSha1Bytes
  /-- R34 (d). -/
  skein_tag : k.authAlgo = .hmacSkein → Config.hasSkein = true ∧ k.tagLen.toNat ≤ Config.skeinMacBytes
  /-- R34 (e). -/
  srtp_seq : k.kind = .srtp → k.sL.toNat ≤ 65535
  /-- R34 (f). -/
  srtcp_roc : k.kind = .srtcp → k.roc = 0 ∧ k.guessedRoc = 0
  /-- R204: keys are derived only from a usable master key. -/
  keys_usable : k.keysValid = true → k.kdfOk = true
  /-- R29, R30: without derived keys the session keys and lastR are zero. -/
  keys_absent : k.keysValid = false → zeroFrom k.kE 0 ∧ zeroFrom k.kA 0 ∧ zeroFrom k.kS 0 ∧ k.lastR = 0
  /-- R31, R221: before the first packet s_l and the window are zero. -/
  unstarted : k.seqSet = false → k.sL = 0 ∧ k.replayMask = 0
  /-- R22. -/
  invalid_reset : k.valid = false → k = Slot.reset

/-- The invariant of the machine: every slot's, the buffer's canonical form, CMD equal to LCMD (10_state.md R48), no
fault recorded (R53), and what STATUS and ERRINFO can hold together (R43, R45; 60_exceptions.md R302). -/
structure State.Ok (s : State) : Prop where
  /-- R34. -/
  slots : ∀ c k, s.slot? c = some k → k.Ok
  /-- R33. -/
  buf : Memory.wf s.buf
  /-- R48. -/
  latch : s.cmd = s.lcmd
  /-- R53. -/
  noFault : s.faulted = false
  /-- R113: issue cleared every completion bit. -/
  busy_clear : s.status.busy = true →
    s.status = { Status.reset with busy := true, overrun := s.status.overrun } ∧ s.errInfo = 0
  /-- R43, R45: without an error, ERRCODE and ERRINFO are 0. -/
  noErr_clear : s.status.err = false → s.status.errCode = 0 ∧ s.errInfo = 0
  /-- R300, R302: with an error, ERRCODE is 1 to 6, and ACCEPT and CFG_* are 0. -/
  err_code : s.status.err = true →
    1 ≤ s.status.errCode.toNat ∧ s.status.errCode.toNat ≤ 6 ∧ s.status.accept = false
      ∧ s.status.cfgEncDis = false ∧ s.status.cfgAuthDis = false

/-! ### What is written -/

/-- The buffer bytes of a range have all been written (10_state.md R33). -/
def Memory.written (m : Memory) (a n : Nat) : Prop := ∀ j, j < n → ∃ b, m.read (a + j) = some b

/-- The buffer bytes of a range are these. -/
def Memory.holds (m : Memory) (a : Nat) (v : Bytes) : Prop := ∀ (j : Nat) (h : j < v.length), m.read (a + j) = some v[j]

/-! ### Frames -/

/-- No command writes CMD, IRQ_ENABLE, ARG, LCMD or LARG, the fault record, or the model's own fields. -/
structure State.KeepsHostSide (s t : State) : Prop where
  cmd : t.cmd = s.cmd
  doneIe : t.doneIe = s.doneIe
  arg : t.arg = s.arg
  lcmd : t.lcmd = s.lcmd
  larg : t.larg = s.larg
  faulted : t.faulted = s.faulted
  readData : t.readData = s.readData
  schedule : t.schedule = s.schedule

/-- Every slot but c is unchanged. -/
def State.KeepsOtherSlots (s t : State) (c : Nat) : Prop := ∀ j, j ≠ c → t.slot? j = s.slot? j

/-- Every slot is unchanged. -/
def State.KeepsSlots (s t : State) : Prop := ∀ j, t.slot? j = s.slot? j

/-- Every buffer byte reads as before. -/
def State.KeepsBuffer (s t : State) : Prop := ∀ a, t.buf.read a = s.buf.read a

/-- Every buffer byte outside the n bytes from offset a reads as before. -/
def State.KeepsBufferOutside (s t : State) (a n : Nat) : Prop :=
  ∀ x, x < a ∨ a + n ≤ x → t.buf.read x = s.buf.read x

/-- Every RES word from RESn on is unchanged (10_state.md R47). -/
def State.KeepsResFrom (s t : State) (n : Nat) : Prop := ∀ (i : Nat) (h : i < 8), n ≤ i → t.res[i] = s.res[i]

/-- The command completed without an error: BUSY clear, DONE set, every other STATUS bit and ERRINFO as before
(30_encoding.md R113). -/
def State.Completes (s t : State) : Prop :=
  t.status = { s.status with busy := false, done := true } ∧ t.errInfo = s.errInfo

/-- The command completed with an error and its info; nothing but STATUS and ERRINFO changed (60_exceptions.md R302). -/
structure State.Errs (s t : State) (code : Byte) (info : Word) : Prop where
  status : t.status = { s.status with busy := false, done := true, err := true, errCode := code }
  errInfo : t.errInfo = info
  slots : t.slots = s.slots
  res : t.res = s.res
  buf : t.buf = s.buf
  hostSide : s.KeepsHostSide t


/-! ### Parts of a slot -/

/-- The fields construction fixes: validity, kind, SSRC, algorithms, master key and salt, lengths, MKI and rate
(10_state.md R22 to R28). -/
structure Slot.SameConfig (k l : Slot) : Prop where
  valid : l.valid = k.valid
  kind : l.kind = k.kind
  ssrc : l.ssrc = k.ssrc
  encAlgo : l.encAlgo = k.encAlgo
  encDis : l.encDis = k.encDis
  authAlgo : l.authAlgo = k.authAlgo
  authDis : l.authDis = k.authDis
  mkLen : l.mkLen = k.mkLen
  masterKey : l.masterKey = k.masterKey
  msLen : l.msLen = k.msLen
  masterSalt : l.masterSalt = k.masterSalt
  nE : l.nE = k.nE
  nA : l.nA = k.nA
  nS : l.nS = k.nS
  tagLen : l.tagLen = k.tagLen
  mkiLen : l.mkiLen = k.mkiLen
  mki : l.mki = k.mki
  kdr : l.kdr = k.kdr

/-- The session keys and their status (10_state.md R29, R30). -/
structure Slot.SameKeys (k l : Slot) : Prop where
  kE : l.kE = k.kE
  kA : l.kA = k.kA
  kS : l.kS = k.kS
  keysValid : l.keysValid = k.keysValid
  lastR : l.lastR = k.lastR

/-- The index and replay state (10_state.md R31). -/
structure Slot.SameIndex (k l : Slot) : Prop where
  roc : l.roc = k.roc
  guessedRoc : l.guessedRoc = k.guessedRoc
  sL : l.sL = k.sL
  seqSet : l.seqSet = k.seqSet
  replayMask : l.replayMask = k.replayMask

/-! ### The index arithmetic, as 44_replay_index.md writes it -/

/-- The ROC guess in the integers of 44_replay_index.md R220 and R222, both clamps included. -/
def Slot.guessInt (k : Slot) (seq : Int) : Int :=
  if (k.sL.toNat : Int) < 32768 then
    if seq - k.sL.toNat > 32768 then max ((k.roc.toNat : Int) - 1) 0 else k.roc.toNat
  else
    if (k.sL.toNat : Int) - 32768 > seq then min ((k.roc.toNat : Int) + 1) (2 ^ 32 - 1) else k.roc.toNat

/-- The ROC guess as a number: it is never negative. -/
def Slot.guessNat (k : Slot) (seq : Nat) : Nat := (k.guessInt seq).toNat

/-- Where the last validated packet stands: roc * 2^16 + s_l in an SRTP slot, s_l in an SRTCP slot (R224). -/
def Slot.lastNat (k : Slot) : Nat :=
  match k.kind with
  | .srtp => k.roc.toNat * 65536 + k.sL.toNat
  | .srtcp => k.sL.toNat

/-- Where packet x stands: its guessed index in an SRTP slot, x in an SRTCP slot (R224). -/
def Slot.currentNat (k : Slot) (x : Nat) : Nat :=
  match k.kind with
  | .srtp => k.guessNat x * 65536 + x
  | .srtcp => x

/-- The packet operand x of CHECK and UPDATE as a number (30_encoding.md R107). -/
def State.xNat (s : State) (kind : Kind) : Nat :=
  match kind with
  | .srtp => s.larg[0].toNat % 65536
  | .srtcp => s.larg[0].toNat

/-- The roc a first packet leaves in an SRTP slot (44_replay_index.md R221). -/
def Slot.firstRoc (policy : Config.RocPolicy) (k : Slot) : Word :=
  match policy with
  | .zero => 0
  | .keep => k.roc

/-! ### Key derivation, as 43_key_derivation.md writes it -/

/-- The key-derivation index of packet index i under the slot's rate (R201). -/
def Slot.rNat (k : Slot) (i : Nat) : Nat := if k.kdr = 0 then 0 else i / k.kdr.toNat

/-- The n bytes of the slot's KDF output under a label, at key-derivation index r (R200, R202): AES-CM under the master
key, at the 14-byte IV of the right-aligned master salt XOR the label and r. -/
def Slot.kdfBytes (k : Slot) (label r n : Nat) : Bytes :=
  let mk := k.masterKey.toList.take k.mkLen.toNat
  let ms := k.masterSalt.toList.take k.msLen.toNat
  cmKeystream mk (xorBytes (zeros (14 - ms.length) ++ ms) (be 14 (label * 2 ^ 48 + r))) n

/-- Slot l is slot k with its session keys derived at packet index i: each key field holds its label's KDF output and
zeros after it, keysValid and lastR are written, and no other field changes (R203, R204). -/
structure Slot.DerivedAt (k l : Slot) (i : Nat) : Prop where
  rest : l = { k with kE := l.kE, kA := l.kA, kS := l.kS, keysValid := true, lastR := BitVec.ofNat 48 (k.rNat i) }
  kE : ∀ (j : Nat) (h : j < 32),
    l.kE[j] = (k.kdfBytes (match k.kind with | .srtp => 0 | .srtcp => 3) (k.rNat i) k.nE.toNat).getD j 0
  kA : ∀ (j : Nat) (h : j < Config.maxAuthKeyBytes),
    l.kA[j] = (k.kdfBytes (match k.kind with | .srtp => 1 | .srtcp => 4) (k.rNat i) k.nA.toNat).getD j 0
  kS : ∀ (j : Nat) (h : j < 14),
    l.kS[j] = (k.kdfBytes (match k.kind with | .srtp => 2 | .srtcp => 5) (k.rNat i) k.nS.toNat).getD j 0

/-! ### Secrecy -/

/-- A slot with its secrets blanked: master key and salt, session keys and session salt (10_state.md R32). -/
def Slot.redact (k : Slot) : Slot :=
  { k with
    masterKey := Vector.replicate 32 0
    masterSalt := Vector.replicate 14 0
    kE := Vector.replicate 32 0
    kA := Vector.replicate Config.maxAuthKeyBytes 0
    kS := Vector.replicate 14 0 }

/-- Two states that agree on everything but the slots' secrets. -/
def State.AgreeButSecrets (s t : State) : Prop :=
  (∀ c, (s.slot? c).map Slot.redact = (t.slot? c).map Slot.redact)
    ∧ ({ s with slots := t.slots } : State) = t

end Sys2Proof.Machine
end

