-- ==== Sys2Proof/Certificates/Slice0/Obligations.lean ====
section
/-! DEFINITION. The statements for the provers, each read from the rules its docstring names. -/

open Sys2Proof Sys2Proof.Machine

/-! ### Encoding (30_encoding.md) -/

/-- One word of every row of the opcode map, written out from 30_encoding.md R100 and R101, decodes to its command. -/
def Obligations.DecodeOfWrittenOutWords : Prop :=
  decode 0x00000000#32 = .ok (.nop 0) ∧ decode 0x0000C800#32 = .ok (.nop 200)
    ∧ decode 0x00000201#32 = .ok (.ctxNew 2) ∧ decode 0x00000102#32 = .ok (.ctxClone 1)
    ∧ decode 0x00000303#32 = .ok (.ctxDestroy 3) ∧ decode 0x00000204#32 = .ok (.ctxStatus 2)
    ∧ decode 0x00000110#32 = .ok (.derive 1) ∧ decode 0x00000220#32 = .ok (.guess 2)
    ∧ decode 0x0000FF21#32 = .ok (.check 255) ∧ decode 0x00000322#32 = .ok (.update 3)
    ∧ decode 0x00000130#32 = .ok (.encrypt 1) ∧ decode 0x00000131#32 = .ok (.auth 1)

/-- Decoding and encoding are inverse to each other: the word of a command whose slot number fits the CTX field decodes to
the command, and a word that decodes to a command is that command's word (30_encoding.md R100, R101, R112). -/
def Obligations.DecodeAndEncodeAreInverse : Prop :=
  (∀ i : Instr, i.wellFormed = true → decode (encode i) = .ok i)
    ∧ ∀ (w : Word) (i : Instr), decode w = .ok i → i.wellFormed = true ∧ encode i = w

/-- Decoding on every 32-bit word, judged on the number the word is: an opcode outside the map is illegal whatever the
reserved bits, a legal one with bits [31:16] not zero is reserved, and every other word is the opcode's command with
slot bits [15:8] (30_encoding.md R112). -/
def Obligations.DecodeIsTotalAndOrdered : Prop :=
  ∀ w : Word,
    let op := w.toNat % 256
    let legal := op ∈ [0x00, 0x01, 0x02, 0x03, 0x04, 0x10, 0x20, 0x21, 0x22, 0x30, 0x31]
    (¬ legal → decode w = .error (.illegalOpcode (BitVec.ofNat 8 op)))
      ∧ (legal → w.toNat / 65536 ≠ 0 → decode w = .error (.reservedBits w))
      ∧ (legal → w.toNat / 65536 = 0 →
          ∃ i, decode w = .ok i ∧ i.opcode.toNat = op ∧ i.ctx = w.toNat / 256 % 256)

/-! ### The step and the issue protocol (30_encoding.md R113, 20_memory.md R81) -/

/-- When the engine has its turn on a command word that decodes to i, the step is exec of i (30_encoding.md R113). That
the engine has its turn where no input is left, and that its turn leaves the schedule, is the model's choice of how the
order of inputs is data (log entry 2); R345 of 70_reset_and_hazards.md says only that the command completes. -/
def Obligations.StepRunsTheDecodedCommand : Prop :=
  ∀ (s : State) (i : Instr), s.faulted = false → s.status.busy = true → decode s.lcmd = .ok i →
    (s.schedule = [] → step s = exec i s)
      ∧ ∀ rest, s.schedule = .engine :: rest → step s = exec i { s with schedule := rest }

/-- A command word with a legal OPCODE and RSVD not zero completes, at the engine's turn, with ReservedBits, ERRINFO the
whole word, and nothing else changes (30_encoding.md R103; the code and ERRINFO are 60_exceptions.md R300's). -/
def Obligations.ReservedWordRaisesReservedBits : Prop :=
  ∀ s : State, s.faulted = false → s.status.busy = true → s.schedule.head?.getD .engine = .engine →
    s.lcmd.toNat % 256 ∈ [0x00, 0x01, 0x02, 0x03, 0x04, 0x10, 0x20, 0x21, 0x22, 0x30, 0x31] →
    s.lcmd.toNat / 65536 ≠ 0 →
    ∃ t, step s = .next t ∧ ({ s with schedule := s.schedule.tail } : State).Errs t 0x02 s.lcmd

/-- A command word with any other OPCODE completes, at the engine's turn, with IllegalOpcode, ERRINFO the OPCODE, and
nothing else changes, whatever its other bits (30_encoding.md R114; 60_exceptions.md R300, R301). -/
def Obligations.IllegalWordRaisesIllegalOpcode : Prop :=
  ∀ s : State, s.faulted = false → s.status.busy = true → s.schedule.head?.getD .engine = .engine →
    s.lcmd.toNat % 256 ∉ [0x00, 0x01, 0x02, 0x03, 0x04, 0x10, 0x20, 0x21, 0x22, 0x30, 0x31] →
    ∃ t, step s = .next t
      ∧ ({ s with schedule := s.schedule.tail } : State).Errs t 0x01 (BitVec.ofNat 32 (s.lcmd.toNat % 256))

/-- A host write to CMD while idle issues: CMD and LCMD hold the word, LARG the ARG registers, STATUS reads BUSY and
the old OVERRUN alone, ERRINFO is 0, and nothing else changes (30_encoding.md R113). -/
def Obligations.CmdWriteWhileIdleIssues : Prop :=
  ∀ (s : State) (w : Word) (rest : List Event), s.faulted = false → s.status.busy = false →
    s.schedule = .write 0x010 .w32 w :: rest →
    ∃ t, step s = .next t ∧ t.cmd = w ∧ t.lcmd = w ∧ t.larg = s.arg
      ∧ t.status.toWord = (if s.status.overrun then 0x11#32 else 0x01#32) ∧ t.errInfo = 0
      ∧ t.slots = s.slots ∧ t.arg = s.arg ∧ t.res = s.res ∧ t.buf = s.buf ∧ t.doneIe = s.doneIe
      ∧ t.faulted = false ∧ t.readData = s.readData ∧ t.schedule = rest

/-- Overrun (60_exceptions.md R305): a CMD write while BUSY sets OVERRUN and nothing else; OVERRUN stays through every
step that is not a STATUS write with bit 4 set or the reset input; and a STATUS write with bit 4 set clears it. -/
def Obligations.OverrunIsSetAndSticky : Prop :=
  (∀ (s : State) (w : Word) (rest : List Event), s.faulted = false → s.status.busy = true →
      s.schedule = .write 0x010 .w32 w :: rest →
      step s = .next { s with status := { s.status with overrun := true }, schedule := rest })
    ∧ (∀ s t : State, step s = .next t → s.status.overrun = true →
        (∀ (v : Word) (rest : List Event), s.schedule = .write 0x014 .w32 v :: rest → v.getLsbD 4 = false) →
        (∀ rest : List Event, s.schedule ≠ .reset :: rest) → t.status.overrun = true)
    ∧ (∀ (s : State) (v : Word) (rest : List Event), s.faulted = false → v.getLsbD 4 = true →
        s.schedule = .write 0x014 .w32 v :: rest → ∃ t, step s = .next t ∧ t.status.overrun = false)

/-- At the engine's turn a command in flight completes in one step, or faults at a buffer byte that is unwritten; it is
never refused (70_reset_and_hazards.md R345, 60_exceptions.md R316). -/
def Obligations.CommandInFlightCompletes : Prop :=
  ∀ s : State, s.faulted = false → s.status.busy = true → s.schedule.head?.getD .engine = .engine →
    (∃ t, step s = .next t ∧ t.status.busy = false ∧ t.status.done = true)
      ∨ ∃ a r, step s = .fault (.commandReadUnwritten a r) ∧ s.buf.read a = none

/-- The reset input, even while a command is in flight, leaves the reset values (70_reset_and_hazards.md R330, R331).
That the inputs still to come stay is the model's choice (log entry 14). -/
def Obligations.ResetInputLeavesResetValues : Prop :=
  ∀ (s : State) (rest : List Event), s.faulted = false → s.schedule = .reset :: rest →
    ∃ t, step s = .next t ∧ (∀ c, c < Config.numCtx → t.slot? c = some Slot.reset)
      ∧ t.cmd = 0 ∧ t.lcmd = 0 ∧ t.status.toWord = 0 ∧ t.doneIe = false ∧ t.errInfo = 0
      ∧ (∀ (i : Nat) (h : i < 8), t.arg[i] = 0 ∧ t.larg[i] = 0 ∧ t.res[i] = 0)
      ∧ (∀ a, t.buf.read a = none) ∧ t.irq = false ∧ t.faulted = false ∧ t.schedule = rest

/-- An assembled line (30_encoding.md R116): its ARG writes and its CMD write, served in order from an idle state, leave
the command of its row issued, LARG0, LARG1, ... holding the row's ARG values and the other LARG words the ARG registers'.
That a line's events end in one engine's turn, for the WAIT a program writes after it, is the model's choice (log
entries 2 and 19). -/
def Obligations.AssembledLineIssuesItsCommand : Prop :=
  ∀ (s : State) (a : AsmCommand) (rest : List Event), s.faulted = false → s.status.busy = false →
    s.schedule = a.events ++ rest →
    let row : Nat × Nat × List Word := match a with
      | .nop => (0, 0x00, [])
      | .ctxNew c pb => (c, 0x01, [pb])
      | .ctxClone c src ssrc roc kdr =>
        (c, 0x02, [src, ssrc, roc, BitVec.ofNat 32 (kdr.toNat / 2 ^ 32), BitVec.ofNat 32 (kdr.toNat % 2 ^ 32)])
      | .ctxDestroy c => (c, 0x03, [])
      | .ctxStatus c => (c, 0x04, [])
      | .derive c i => (c, 0x10, [BitVec.ofNat 32 (i.toNat / 2 ^ 32), BitVec.ofNat 32 (i.toNat % 2 ^ 32)])
      | .guess c seq => (c, 0x20, [BitVec.ofNat 32 seq.toNat])
      | .check c x => (c, 0x21, [x])
      | .update c x => (c, 0x22, [x])
      | .encrypt c p h l i v =>
        (c, 0x30, [p, h, l, BitVec.ofNat 32 (i.toNat / 2 ^ 32), BitVec.ofNat 32 (i.toNat % 2 ^ 32), v])
      | .auth c a n roc t => (c, 0x31, [a, n, roc, t])
    ∃ t : State, Host.Core.run Sys2Proof.core (row.2.2.length + 1) s = .next t ∧ t.status.busy = true
      ∧ t.lcmd = encode a.instr ∧ (row.1 < 256 → t.lcmd.toNat = row.1 * 2 ^ 8 + row.2.1)
      ∧ (∀ (i : Nat) (h : i < 8), t.larg[i] = row.2.2.getD i s.arg[i])
      ∧ t.schedule = .engine :: rest ∧ t.slots = s.slots ∧ t.buf = s.buf ∧ t.res = s.res

/-! ### Invariants -/

/-- The reset state meets the invariant (70_reset_and_hazards.md R331; 10_state.md R34). -/
def Obligations.ResetMeetsInvariant : Prop := State.reset.Ok

/-- Every step keeps the invariant: R34 (a) to (f) and R22 in every slot, the buffer's canonical form, CMD = LCMD, and
what STATUS and ERRINFO hold together (10_state.md). -/
def Obligations.StepKeepsInvariant : Prop := ∀ s t : State, s.Ok → step s = .next t → t.Ok

/-- The SCE's AES uses: in a slot that meets the invariant, an encrypting slot's cipher key and F8 masked key, and the
master key DERIVE runs with (a usable one) and ENCRYPT's automatic rekey runs with (derived keys), are 16 or 32 bytes, and
both aligned salts are 14 (40_aes.md R130, R139; 10_state.md R34, R35; 43_key_derivation.md R206). -/
def Obligations.AesKeysAreSixteenOrThirtyTwoBytes : Prop :=
  ∀ k : Slot, k.Ok →
    (k.encAlgo ≠ .null → k.cipherKey.length = k.nE.toNat ∧ (k.nE.toNat = 16 ∨ k.nE.toNat = 32)
        ∧ (f8MaskedKey k.cipherKey k.sessionSalt).length = k.nE.toNat)
      ∧ (k.kdfOk = true → k.masterKeyBytes.length = 16 ∨ k.masterKeyBytes.length = 32)
      ∧ (k.keysValid = true → k.masterKeyBytes.length = 16 ∨ k.masterKeyBytes.length = 32)
      ∧ (salt14 k.sessionSalt).length = 14 ∧ (salt14 k.masterSaltBytes).length = 14

/-! ### Host port (20_memory.md, 10_state.md R40 to R47) -/

/-- ID and VERSION read their constants in every state, and a write to either changes nothing (10_state.md R40). -/
def Obligations.IdentityRegisters : Prop :=
  ∀ (s : State) (rest : List Event), s.faulted = false →
    (s.schedule = .read 0x000 .w32 :: rest →
        step s = .next { s with readData := some 0x53434531#32, schedule := rest })
      ∧ (s.schedule = .read 0x004 .w32 :: rest →
        step s = .next { s with readData := some 0x00000001#32, schedule := rest })
      ∧ ∀ v : Word, (s.schedule = .write 0x000 .w32 v :: rest ∨ s.schedule = .write 0x004 .w32 v :: rest) →
        step s = .next { s with schedule := rest }

/-- A read of STATUS returns each flag in its bit, ERRCODE in bits [15:8], and 0 in bit 7 and bits [31:16]
(10_state.md R43). -/
def Obligations.StatusReadsItsFields : Prop :=
  ∀ (s : State) (rest : List Event), s.faulted = false → s.schedule = .read 0x014 .w32 :: rest →
    ∃ w : Word, step s = .next { s with readData := some w, schedule := rest }
      ∧ w.getLsbD 0 = s.status.busy ∧ w.getLsbD 1 = s.status.done ∧ w.getLsbD 2 = s.status.err
      ∧ w.getLsbD 3 = s.status.accept ∧ w.getLsbD 4 = s.status.overrun ∧ w.getLsbD 5 = s.status.cfgEncDis
      ∧ w.getLsbD 6 = s.status.cfgAuthDis ∧ w.getLsbD 7 = false
      ∧ w.toNat / 256 = s.status.errCode.toNat

/-- A host write to STATUS changes only bits 1 and 4 of its word, and only where the written bit is 1
(10_state.md R43). -/
def Obligations.StatusWriteClearsDoneAndOverrun : Prop :=
  ∀ (s : State) (v : Word) (rest : List Event), s.faulted = false → s.schedule = .write 0x014 .w32 v :: rest →
    ∃ t, step s = .next t ∧ t.status.toWord = s.status.toWord &&& ~~~(v &&& 0x12#32)
      ∧ ({ t with status := s.status } : State) = { s with schedule := rest }

/-- IRQ_ENABLE (10_state.md R44): a write stores bit 0 alone, a read returns bit 0 and zeros, and the interrupt output
is DONE and DONE_IE. -/
def Obligations.IrqEnableRegister : Prop :=
  State.reset.doneIe = false
    ∧ (∀ (s : State) (v : Word) (rest : List Event), s.faulted = false →
        s.schedule = .write 0x01C .w32 v :: rest →
        step s = .next { s with doneIe := v.getLsbD 0, schedule := rest })
    ∧ (∀ (s : State) (rest : List Event), s.faulted = false → s.schedule = .read 0x01C .w32 :: rest →
        step s = .next { s with readData := some (if s.doneIe then 1#32 else 0#32), schedule := rest })
    ∧ ∀ s : State, s.irq = true ↔ s.status.done = true ∧ s.doneIe = true

/-- An aligned 32-bit read of a reserved offset returns 0 and a write to one is ignored; above the window that holds at
every width and alignment inside the aperture (20_memory.md R71, R73; 92_eei_decisions.md D3). That a narrow or misaligned
read there returns 0 is the model's reading of D3 (log entry 7). -/
def Obligations.ReservedOffsetsReadZeroAndIgnoreWrites : Prop :=
  ∀ (s : State) (off : Nat) (width : Width) (v : Word) (rest : List Event), s.faulted = false →
    (width = .w32 ∧ off % 4 = 0 ∧ ((0x024 ≤ off ∧ off < 0x040) ∨ (0x080 ≤ off ∧ off < 0x10000))
      ∨ (0x10000 + Config.bufBytes ≤ off ∧ off + width.bytes ≤ 0x20000)) →
    (s.schedule = .read off width :: rest → step s = .next { s with readData := some 0, schedule := rest })
      ∧ (s.schedule = .write off width v :: rest → step s = .next { s with schedule := rest })

/-- A register access that is not an aligned 32-bit access is refused, read or write, in every state
(20_memory.md R72). -/
def Obligations.RegisterAccessesAreAlignedWords : Prop :=
  ∀ (s : State) (off : Nat) (width : Width) (v : Word) (rest : List Event), s.faulted = false → off < 0x10000 →
    (width ≠ .w32 ∨ off % 4 ≠ 0) →
    (s.schedule = .read off width :: rest ∨ s.schedule = .write off width v :: rest) →
    step s = .refused (.registerAccess off)

/-- While BUSY every buffer-window access is refused, and register accesses are not (20_memory.md R76). -/
def Obligations.WindowIsRefusedWhileBusy : Prop :=
  ∀ (s : State) (off : Nat) (width : Width) (v : Word) (rest : List Event), s.faulted = false →
    s.status.busy = true →
    (0x10000 ≤ off → off < 0x10000 + Config.bufBytes →
        (s.schedule = .read off width :: rest ∨ s.schedule = .write off width v :: rest) →
        step s = .refused (.bufferWhileBusy off))
      ∧ (off < 0x10000 → off % 4 = 0 →
        (s.schedule = .read off .w32 :: rest ∨ s.schedule = .write off .w32 v :: rest) → ∃ t, step s = .next t)

/-- An aligned buffer-window write while idle stores byte j of its data, bits [8j+7:8j], at window offset w + j, and
leaves every other byte and everything else as it was; a misaligned access, write or read, is refused (20_memory.md
R74). -/
def Obligations.WindowWriteStoresLanes : Prop :=
  ∀ (s : State) (w : Nat) (width : Width) (v : Word) (rest : List Event), s.faulted = false →
    s.status.busy = false → w < Config.bufBytes →
    (w % width.bytes = 0 → s.schedule = .write (0x10000 + w) width v :: rest →
        ∃ t, step s = .next t
          ∧ (∀ j, j < width.bytes → t.buf.read (w + j) = some (v.extractLsb' (8 * j) 8))
          ∧ s.KeepsBufferOutside t w width.bytes
          ∧ ({ t with buf := s.buf } : State) = { s with schedule := rest })
      ∧ (w % width.bytes ≠ 0 →
        (s.schedule = .write (0x10000 + w) width v :: rest ∨ s.schedule = .read (0x10000 + w) width :: rest) →
        step s = .refused (.bufferMisaligned (0x10000 + w)))

/-- A buffer-window read of written bytes returns byte w + j in bits [8j+7:8j], and changes nothing but the data driven;
a read that covers an unwritten byte records a fault (20_memory.md R74, 10_state.md R33). The zeros above an 8-bit or a
16-bit read are the model's choice (log entry 18). -/
def Obligations.WindowReadReturnsLanes : Prop :=
  ∀ (s : State) (w : Nat) (width : Width) (rest : List Event), s.faulted = false → s.status.busy = false →
    w + width.bytes ≤ Config.bufBytes → w % width.bytes = 0 → s.schedule = .read (0x10000 + w) width :: rest →
    (∀ b : Bytes, b.length = width.bytes → s.buf.holds w b →
        ∃ v : Word, step s = .next { s with readData := some v, schedule := rest }
          ∧ (∀ (j : Nat) (h : j < b.length), v.extractLsb' (8 * j) 8 = b[j]) ∧ v.toNat < 2 ^ (8 * width.bytes))
      ∧ (¬ s.buf.written w width.bytes → ∃ a r, step s = .fault (.hostReadUnwritten a r) ∧ r.faulted = true)

/-! ### All commands -/

/-- Every command that completes, with or without an error, clears BUSY, sets DONE, leaves OVERRUN, raises irq exactly
where DONE_IE is set, and writes no host register but STATUS, ERRINFO and RES (30_encoding.md R113; 60_exceptions.md
R302, R308). -/
def Obligations.CompletionOfEveryCommand : Prop :=
  ∀ (i : Instr) (s t : State), exec i s = .next t →
    t.status.busy = false ∧ t.status.done = true ∧ t.status.overrun = s.status.overrun ∧ t.irq = s.doneIe
      ∧ s.KeepsHostSide t

/-- No command is ever refused, and every command but CTX_NEW, ENCRYPT and AUTH answers a next state from every state
and every operand (60_exceptions.md R316; 20_memory.md R78). -/
def Obligations.CommandsAreNeverRefused : Prop :=
  (∀ (i : Instr) (s : State) (r : Refusal), exec i s ≠ .refused r)
    ∧ ∀ (c : Nat) (s : State), ∀ i ∈ [Instr.nop c, .ctxClone c, .ctxDestroy c, .ctxStatus c, .derive c, .guess c,
        .check c, .update c], ∃ t, exec i s = .next t

/-- A command faults only at a buffer byte that is unwritten, and the record it leaves is the state before the command
with the fault record set (10_state.md R33, R53; which state the record holds is the model's choice, log entry 13). -/
def Obligations.CommandsFaultOnlyAtUnwrittenBytes : Prop :=
  ∀ (i : Instr) (s : State) (f : Fault), exec i s = .fault f →
    ∃ a, f = .commandReadUnwritten a { s with faulted := true } ∧ s.buf.read a = none

/-- The frame of every command. Slots: only the command's own slot may change, and NOP, CTX_STATUS and AUTH change none.
RES: only the words of 30_encoding.md R104. Buffer: ENCRYPT changes only the L payload bytes from P + H, AUTH only
the tagLen bytes from T, and every other command none (20_memory.md R78; 45_packet_ops.md R250, R251). -/
def Obligations.FrameOfEveryCommand : Prop :=
  ∀ (i : Instr) (s t : State), exec i s = .next t →
    s.KeepsOtherSlots t i.ctx
      ∧ (∀ c, (i = .nop c ∨ i = .ctxStatus c ∨ i = .auth c) → s.KeepsSlots t)
      ∧ s.KeepsResFrom t i.resWords
      ∧ ((∀ c, i ≠ .encrypt c ∧ i ≠ .auth c) → s.KeepsBuffer t)
      ∧ (∀ c, i = .encrypt c →
          s.KeepsBufferOutside t (s.larg[0].toNat + s.larg[1].toNat) s.larg[2].toNat)
      ∧ (∀ c k, i = .auth c → s.slot? c = some k → s.KeepsBufferOutside t s.larg[3].toNat k.tagLen.toNat)

/-- The frame of STATUS and ERRINFO: only CHECK writes ACCEPT, only CTX_NEW and CTX_CLONE write the CFG bits, and a command
leaves ERR, ERRCODE and ERRINFO as they were unless it ends in an error, whose code is one of the four a command can
raise (10_state.md R43, R45; 30_encoding.md R113; 60_exceptions.md R300, R302, R306). -/
def Obligations.StatusFrameOfEveryCommand : Prop :=
  ∀ (i : Instr) (s t : State), exec i s = .next t →
    ((∀ c, i ≠ .check c) → t.status.accept = s.status.accept)
      ∧ ((∀ c, i ≠ .ctxNew c ∧ i ≠ .ctxClone c) →
          t.status.cfgEncDis = s.status.cfgEncDis ∧ t.status.cfgAuthDis = s.status.cfgAuthDis)
      ∧ ((t.status.err = s.status.err ∧ t.status.errCode = s.status.errCode ∧ t.errInfo = s.errInfo)
        ∨ ∃ code info, s.Errs t code info ∧ 3 ≤ code.toNat ∧ code.toNat ≤ 6)

/-- An error is precise: a command that ends with ERR newly set has changed nothing but STATUS and ERRINFO, and its code
is BadCtx, BadKind, Bounds or BadParam (60_exceptions.md R300, R302). -/
def Obligations.ErrorsChangeOnlyStatusAndErrinfo : Prop :=
  ∀ (i : Instr) (s t : State), exec i s = .next t → s.status.err = false → t.status.err = true →
    ∃ code info, s.Errs t code info ∧ 3 ≤ code.toNat ∧ code.toNat ≤ 6

/-- Every command but NOP raises BadCtx on a slot number of NUM_CTX or more; NOP ignores it (30_encoding.md R102). -/
def Obligations.SlotNumberOutOfRangeRaisesBadCtx : Prop :=
  ∀ (c : Nat) (s : State), Config.numCtx ≤ c →
    (∀ i ∈ [Instr.ctxNew c, .ctxClone c, .ctxDestroy c, .ctxStatus c, .derive c, .guess c, .check c, .update c,
        .encrypt c, .auth c], ∃ t, exec i s = .next t ∧ s.Errs t 0x03 (BitVec.ofNat 32 c))
      ∧ exec (.nop c) s = exec (.nop 0) s ∧ ∃ t, exec (.nop c) s = .next t ∧ s.Completes t

/-- On an invalid slot the six commands that need a context raise BadCtx with the slot number, whatever their operands;
and CTX_CLONE with a source that is out of range or invalid raises it with all 32 bits of ARG0 (60_exceptions.md R301,
checks 4 and 5; R303). -/
def Obligations.InvalidSlotRaisesBadCtx : Prop :=
  (∀ (c : Nat) (s : State) (k : Slot), s.slot? c = some k → k.valid = false →
      ∀ i ∈ [Instr.derive c, .guess c, .check c, .update c, .encrypt c, .auth c],
        ∃ t, exec i s = .next t ∧ s.Errs t 0x03 (BitVec.ofNat 32 c))
    ∧ ∀ (c : Nat) (s : State), c < Config.numCtx → (∀ u, s.slot? s.larg[0].toNat = some u → u.valid = false) →
        ∃ t, exec (.ctxClone c) s = .next t ∧ s.Errs t 0x03 s.larg[0]

/-- The fields construction fixes change only by CTX_NEW, CTX_CLONE and CTX_DESTROY; the session keys, keysValid and
lastR only by those, DERIVE and ENCRYPT; the index and replay state only by the first three, GUESS, CHECK and UPDATE
(10_state.md R22 to R31). -/
def Obligations.WhichCommandsWriteWhichSlotFields : Prop :=
  ∀ (i : Instr) (s t : State) (j : Nat) (k l : Slot), exec i s = .next t → s.slot? j = some k → t.slot? j = some l →
    (∀ c, i ≠ .ctxNew c ∧ i ≠ .ctxClone c ∧ i ≠ .ctxDestroy c) →
    k.SameConfig l
      ∧ ((∀ c, i ≠ .derive c ∧ i ≠ .encrypt c) → k.SameKeys l)
      ∧ ((∀ c, i ≠ .guess c ∧ i ≠ .check c ∧ i ≠ .update c) → k.SameIndex l)

/-- Secrecy as noninterference: from two states that differ at most in their slots' master keys and salts, session keys
and session salts, every step but the engine's turn on an ENCRYPT or AUTH in flight (whose outputs depend on the keys by
design) answers next states that again differ at most there; so no register, read data, RES word or buffer byte then
depends on a secret (10_state.md R32). -/
def Obligations.SecretsDoNotReachTheHost : Prop :=
  ∀ s t s' : State, s.AgreeButSecrets t →
    (s.status.busy = true → s.schedule.head?.getD .engine = .engine →
      ∀ c, decode s.lcmd ≠ .ok (.encrypt c) ∧ decode s.lcmd ≠ .ok (.auth c)) →
    step s = .next s' → ∃ t', step t = .next t' ∧ s'.AgreeButSecrets t'

/-! ### Context management (46_context_mgmt.md) -/

/-- NOP completes and changes nothing else; its slot number is ignored; its opcode is 0x00, with RSVD 0, and ReservedBits
otherwise (46_context_mgmt.md R270). -/
def Obligations.NopOnlyCompletes : Prop :=
  (∀ (c : Nat) (s : State), ∃ t, exec (.nop c) s = .next t ∧ s.Completes t ∧ t.slots = s.slots ∧ t.res = s.res
      ∧ t.buf = s.buf ∧ s.KeepsHostSide t)
    ∧ ∀ w : Word, w.toNat % 256 = 0x00 →
      (w.toNat / 65536 = 0 → decode w = .ok (.nop (w.toNat / 256)))
        ∧ (w.toNat / 65536 ≠ 0 → decode w = .error (.reservedBits w))

/-- CTX_NEW constructs the slot from its parameter block: every field from its bytes, the effective algorithms and Dis
bits of Configure, the Dis bits reported in STATUS, and everything else of the slot reset (46_context_mgmt.md R271,
R272; 30_encoding.md R108, R110, R111). -/
def Obligations.CtxNewBuildsTheSlotFromTheBlock : Prop :=
  ∀ (c : Nat) (s : State) (b : Nat → Byte), c < Config.numCtx → s.larg[0].toNat + 88 ≤ Config.bufBytes →
    (∀ j, (j < 10 ∨ (12 ≤ j ∧ j < 24) ∨ (24 ≤ j ∧ j < 24 + (b 3).toNat) ∨ (56 ≤ j ∧ j < 56 + (b 4).toNat)
        ∨ (72 ≤ j ∧ j < 72 + (b 9).toNat)) → s.buf.read (s.larg[0].toNat + j) = some (b j)) →
    (b 0).toNat ≤ 1 → (b 3).toNat ≤ 32 → (b 4).toNat ≤ 14 → (b 5).toNat ≤ 32 →
    (b 6).toNat ≤ Config.maxAuthKeyBytes → (b 7).toNat ≤ 14 → (b 9).toNat ≤ Config.maxMkiBytes →
    let kdf := (b 3).toNat = 16 ∨ (b 3).toNat = 32
    let aesKey := (b 5).toNat = 16 ∨ (b 5).toNat = 32
    ∃ t k, exec (.ctxNew c) s = .next t ∧ t.slot? c = some k
      ∧ k.valid = true ∧ (k.kind = .srtcp ↔ (b 0).toNat = 1)
      ∧ k.mkLen = b 3 ∧ k.msLen = b 4 ∧ k.nE = b 5 ∧ k.nA = b 6 ∧ k.nS = b 7 ∧ k.tagLen = b 8 ∧ k.mkiLen = b 9
      ∧ k.ssrc = b 12 ++ b 13 ++ b 14 ++ b 15
      ∧ k.kdr = b 16 ++ b 17 ++ b 18 ++ b 19 ++ b 20 ++ b 21 ++ b 22 ++ b 23
      ∧ (∀ (j : Nat) (h : j < 32), k.masterKey[j] = if j < (b 3).toNat then b (24 + j) else 0)
      ∧ (∀ (j : Nat) (h : j < 14), k.masterSalt[j] = if j < (b 4).toNat then b (56 + j) else 0)
      ∧ (∀ (j : Nat) (h : j < 16), k.mki[j] = if j < (b 9).toNat then b (72 + j) else 0)
      ∧ (k.encAlgo = .aesCm ↔ (b 1).toNat = 1 ∧ kdf ∧ aesKey)
      ∧ (k.encAlgo = .aesF8 ↔ (b 1).toNat = 2 ∧ kdf ∧ aesKey ∧ (b 7).toNat ≤ (b 5).toNat)
      ∧ (k.encDis = true ↔ k.encAlgo = .null ∧ (b 1).toNat ≠ 0)
      ∧ (k.authAlgo = .hmacSha1 ↔ (b 2).toNat = 1 ∧ kdf ∧ (b 8).toNat ≤ 20)
      ∧ (k.authAlgo = .hmacSkein ↔ (b 2).toNat = 2 ∧ Config.hasSkein = true ∧ kdf ∧ (b 8).toNat ≤ Config.skeinMacBytes)
      ∧ (k.authDis = true ↔ k.authAlgo = .null ∧ (b 2).toNat ≠ 0)
      ∧ Slot.reset.SameKeys k ∧ Slot.reset.SameIndex k
      ∧ t.status = { s.status with busy := false, done := true, cfgEncDis := k.encDis, cfgAuthDis := k.authDis }
      ∧ t.errInfo = s.errInfo

/-- The capacity checks on the parameter block, in increasing byte offset: the first field over its capacity raises
BadParam with ERRINFO its byte offset, and a block within its capacities raises no error, whatever the algorithms make of
it (30_encoding.md R109). -/
def Obligations.CtxNewReportsTheFirstFieldOverCapacity : Prop :=
  ∀ (c : Nat) (s : State) (b : Nat → Byte), c < Config.numCtx → s.larg[0].toNat + 88 ≤ Config.bufBytes →
    (∀ j, j < 10 → s.buf.read (s.larg[0].toNat + j) = some (b j)) →
    let exceeds : Nat → Prop := fun o =>
      (o = 0 ∧ (b 0).toNat > 1) ∨ (o = 3 ∧ (b 3).toNat > 32) ∨ (o = 4 ∧ (b 4).toNat > 14)
        ∨ (o = 5 ∧ (b 5).toNat > 32) ∨ (o = 6 ∧ (b 6).toNat > Config.maxAuthKeyBytes)
        ∨ (o = 7 ∧ (b 7).toNat > 14) ∨ (o = 9 ∧ (b 9).toNat > 16)
    (∀ off, exceeds off → (∀ o, o < off → ¬ exceeds o) →
        ∃ t, exec (.ctxNew c) s = .next t ∧ s.Errs t 0x06 (BitVec.ofNat 32 off))
      ∧ ((∀ o, ¬ exceeds o) → s.buf.written s.larg[0].toNat 88 →
        ∃ t, exec (.ctxNew c) s = .next t ∧ t.status.err = s.status.err ∧ t.status.errCode = s.status.errCode
          ∧ t.errInfo = s.errInfo)

/-- CTX_CLONE constructs the destination from a valid source slot: the source's kind, algorithms, master key and salt,
lengths and MKI, the operands' SSRC and rate, roc and guessedRoc from the operand in an SRTP slot and 0 in an SRTCP
slot, no session keys and no index state (46_context_mgmt.md R273; 30_encoding.md R106). -/
def Obligations.CtxCloneCopiesTheSource : Prop :=
  ∀ (c : Nat) (s : State) (u : Slot), c < Config.numCtx → s.slot? s.larg[0].toNat = some u → u.valid = true →
    ∃ t k, exec (.ctxClone c) s = .next t ∧ t.slot? c = some k
      ∧ Slot.SameConfig { u with ssrc := s.larg[1], kdr := BitVec.ofNat 64 (s.larg[3].toNat * 2 ^ 32 + s.larg[4].toNat) } k
      ∧ Slot.reset.SameKeys k ∧ k.sL = 0 ∧ k.seqSet = false ∧ k.replayMask = 0
      ∧ (u.kind = .srtp → k.roc = s.larg[2] ∧ k.guessedRoc = s.larg[2])
      ∧ (u.kind = .srtcp → k.roc = 0 ∧ k.guessedRoc = 0)
      ∧ t.status = { s.status with busy := false, done := true, cfgEncDis := u.encDis, cfgAuthDis := u.authDis }
      ∧ t.errInfo = s.errInfo

/-- CTX_DESTROY, opcode 0x03, leaves every field and every key byte of its slot 0, on a valid slot and on an invalid one,
so that a command that needs a valid slot then raises BadCtx; it fails only on a slot number of NUM_CTX or more
(46_context_mgmt.md R274). -/
def Obligations.CtxDestroyLeavesTheResetSlot : Prop :=
  ∀ (c : Nat) (s : State), ∃ t, exec (.ctxDestroy c) s = .next t
    ∧ (c < 256 → decode (BitVec.ofNat 32 (c * 256 + 0x03)) = .ok (.ctxDestroy c))
    ∧ (c < Config.numCtx → s.KeepsOtherSlots t c ∧ s.Completes t ∧ t.res = s.res ∧ t.buf = s.buf ∧ s.KeepsHostSide t
        ∧ ∃ k, t.slot? c = some k ∧ k = Slot.reset ∧ k.valid = false ∧ k.kind = .srtp ∧ k.ssrc = 0 ∧ k.kdr = 0
          ∧ k.encAlgo = .null ∧ k.encDis = false ∧ k.authAlgo = .null ∧ k.authDis = false
          ∧ k.mkLen = 0 ∧ k.msLen = 0 ∧ k.nE = 0 ∧ k.nA = 0 ∧ k.nS = 0 ∧ k.tagLen = 0 ∧ k.mkiLen = 0
          ∧ (∀ (j : Nat) (h : j < 32), k.masterKey[j] = 0 ∧ k.kE[j] = 0)
          ∧ (∀ (j : Nat) (h : j < 14), k.masterSalt[j] = 0 ∧ k.kS[j] = 0)
          ∧ (∀ (j : Nat) (h : j < Config.maxAuthKeyBytes), k.kA[j] = 0) ∧ (∀ (j : Nat) (h : j < 16), k.mki[j] = 0)
          ∧ k.keysValid = false ∧ k.lastR = 0 ∧ k.roc = 0 ∧ k.guessedRoc = 0 ∧ k.sL = 0 ∧ k.seqSet = false
          ∧ k.replayMask = 0)
    ∧ (∀ i ∈ [Instr.derive c, .guess c, .check c, .update c, .encrypt c, .auth c],
        ∃ u, exec i t = .next u ∧ t.Errs u 0x03 (BitVec.ofNat 32 c))
    ∧ (Config.numCtx ≤ c → s.Errs t 0x03 (BitVec.ofNat 32 c))

/-- CTX_STATUS, opcode 0x04, reads the slot's non-secret state into RES0 to RES7, field by field, and changes nothing else;
an invalid slot, which holds the reset values, reads as zeros; it fails only on a slot number of NUM_CTX or more
(46_context_mgmt.md R275). -/
def Obligations.CtxStatusReadsTheSlot : Prop :=
  ∀ (c : Nat) (s : State), ∃ t, exec (.ctxStatus c) s = .next t
    ∧ (c < 256 → decode (BitVec.ofNat 32 (c * 256 + 0x04)) = .ok (.ctxStatus c))
    ∧ (∀ k, s.slot? c = some k → k.Ok → k.valid = false → ∀ (i : Nat) (h : i < 8), t.res[i] = 0)
    ∧ (∀ k, s.slot? c = some k → s.Completes t ∧ t.slots = s.slots ∧ t.buf = s.buf ∧ s.KeepsHostSide t
        ∧ t.res[0].getLsbD 0 = k.valid ∧ t.res[0].getLsbD 1 = (k.kind == .srtcp) ∧ t.res[0].getLsbD 2 = k.seqSet
        ∧ t.res[0].getLsbD 3 = k.keysValid ∧ t.res[0].getLsbD 4 = k.encDis ∧ t.res[0].getLsbD 5 = k.authDis
        ∧ t.res[0].extractLsb' 6 2 = 0
        ∧ (t.res[0].extractLsb' 8 4).toNat = (match k.encAlgo with | .null => 0 | .aesCm => 1 | .aesF8 => 2)
        ∧ (t.res[0].extractLsb' 12 4).toNat = (match k.authAlgo with | .null => 0 | .hmacSha1 => 1 | .hmacSkein => 2)
        ∧ t.res[0].extractLsb' 16 8 = k.tagLen ∧ t.res[0].extractLsb' 24 8 = k.mkiLen
        ∧ t.res[1] = k.roc ∧ t.res[2] = k.guessedRoc ∧ t.res[3] = k.sL ∧ t.res[4] ++ t.res[5] = k.replayMask
        ∧ t.res[6] = k.ssrc ∧ t.res[7] = k.mkLen ++ k.nS ++ k.nA ++ k.nE)
    ∧ (Config.numCtx ≤ c → s.Errs t 0x03 (BitVec.ofNat 32 c))

/-! ### Key derivation (43_key_derivation.md) -/

/-- r is 0 for a rate of 0 and i div kdr otherwise, and for a power of two it is the shift (43_key_derivation.md
R201). -/
def Obligations.KeyDerivationIndex : Prop :=
  ∀ (kdr : BitVec 64) (i : BitVec 48),
    (kdr = 0 → (rOfIndex kdr i).toNat = 0) ∧ (kdr ≠ 0 → (rOfIndex kdr i).toNat = i.toNat / kdr.toNat)
      ∧ ∀ n, kdr.toNat = 2 ^ n → rOfIndex kdr i = i >>> n

/-- DERIVE on a valid slot with a usable master key writes the three session keys, each the AES-CM keystream under the
master key at its label's IV padded with zeros, sets keysValid and lastR, reports RES0 = 1 and r, and changes nothing
else of the slot; the index is 48 bits in an SRTP slot and ARG1 alone in an SRTCP slot (43_key_derivation.md R200 to
R204, R207; 30_encoding.md R105). -/
def Obligations.DeriveWritesTheSessionKeys : Prop :=
  ∀ (c : Nat) (s : State) (k : Slot), s.slot? c = some k → k.valid = true →
    (k.mkLen.toNat = 16 ∨ k.mkLen.toNat = 32) → k.nE.toNat ≤ 32 → k.nA.toNat ≤ Config.maxAuthKeyBytes →
    k.nS.toNat ≤ 14 →
    let i : Nat := match k.kind with
      | .srtp => s.larg[0].toNat % 2 ^ 16 * 2 ^ 32 + s.larg[1].toNat
      | .srtcp => s.larg[1].toNat
    let r : Nat := if k.kdr = 0 then 0 else i / k.kdr.toNat
    let mk := k.masterKey.toList.take k.mkLen.toNat
    let ms := k.masterSalt.toList.take k.msLen.toNat
    let label : Nat := match k.kind with
      | .srtp => 0
      | .srtcp => 3
    let key : Nat → Nat → Bytes := fun l n =>
      cmKeystream mk (xorBytes (zeros (14 - ms.length) ++ ms) (be 14 (l * 2 ^ 48 + r))) n
    ∃ t kE kA kS, exec (.derive c) s = .next t ∧ s.Completes t
      ∧ t.slot? c = some { k with kE := kE, kA := kA, kS := kS, keysValid := true, lastR := BitVec.ofNat 48 r }
      ∧ kE.toList = key label k.nE.toNat ++ zeros (32 - k.nE.toNat)
      ∧ kA.toList = key (label + 1) k.nA.toNat ++ zeros (Config.maxAuthKeyBytes - k.nA.toNat)
      ∧ kS.toList = key (label + 2) k.nS.toNat ++ zeros (14 - k.nS.toNat)
      ∧ t.res[0] = 1 ∧ t.res[1].toNat = r / 2 ^ 32 ∧ t.res[2].toNat = r % 2 ^ 32

/-- DERIVE without a usable master key derives nothing: RES0 to RES2 are 0 and the slot is unchanged
(43_key_derivation.md R207; 60_exceptions.md R307). -/
def Obligations.DeriveWithoutMasterKeyIsANoOp : Prop :=
  ∀ (c : Nat) (s : State) (k : Slot), s.slot? c = some k → k.valid = true → k.mkLen.toNat ≠ 16 → k.mkLen.toNat ≠ 32 →
    ∃ t, exec (.derive c) s = .next t ∧ s.Completes t ∧ t.slots = s.slots ∧ t.res[0] = 0 ∧ t.res[1] = 0 ∧ t.res[2] = 0

/-! ### Index and replay (44_replay_index.md) -/

/-- GUESS on a valid SRTP slot answers the 48-bit index in RES0 and RES1: for a first packet the sequence number under
the first packet's ROC, which it initialises, and otherwise the guess of R222, of which only guessedRoc is kept
(44_replay_index.md R221, R222, R223, R227). -/
def Obligations.GuessAnswersTheIndex : Prop :=
  ∀ (c : Nat) (s : State) (k : Slot), s.slot? c = some k → k.valid = true → k.kind = .srtp →
    let seq := s.larg[0].toNat % 65536
    let roc0 := k.firstRoc Config.firstRocPolicy
    let v : Nat := if k.seqSet then k.guessNat seq else roc0.toNat
    ∃ t, exec (.guess c) s = .next t ∧ s.Completes t
      ∧ t.res[0].toNat * 2 ^ 32 + t.res[1].toNat = v * 65536 + seq
      ∧ t.slot? c = some (if k.seqSet then { k with guessedRoc := BitVec.ofNat 32 v }
          else { k with sL := BitVec.ofNat 32 seq, seqSet := true, roc := roc0, guessedRoc := roc0 })

/-- GUESS on a valid SRTCP slot raises BadKind with the slot number (44_replay_index.md R227; 60_exceptions.md R300). -/
def Obligations.GuessOnSrtcpRaisesBadKind : Prop :=
  ∀ (c : Nat) (s : State) (k : Slot), s.slot? c = some k → k.valid = true → k.kind = .srtcp →
    ∃ t, exec (.guess c) s = .next t ∧ s.Errs t 0x04 (BitVec.ofNat 32 c)

/-- CHECK's verdict on a valid slot, in STATUS.ACCEPT and RES0: a null-algorithm slot accepts and is unchanged; a first
packet is accepted and initialises the index state; any other packet is accepted where it is newer, or exactly 64
behind, or less than 64 behind with its bit clear, and only guessedRoc is written (44_replay_index.md R221, R224,
R225, R228). -/
def Obligations.CheckVerdict : Prop :=
  ∀ (c : Nat) (s : State) (k : Slot), s.slot? c = some k → k.valid = true →
    let x := s.xNat k.kind
    let roc0 := k.firstRoc Config.firstRocPolicy
    ∃ t acc l, exec (.check c) s = .next t ∧ t.slot? c = some l
      ∧ t.status = { s.status with busy := false, done := true, accept := acc } ∧ t.errInfo = s.errInfo
      ∧ t.res[0] = (if acc then 1 else 0)
      ∧ (k.encAlgo = .null ∧ k.authAlgo = .null → acc = true ∧ l = k)
      ∧ (¬ (k.encAlgo = .null ∧ k.authAlgo = .null) → k.seqSet = false →
          acc = true ∧ l = (match k.kind with
            | .srtp => { k with sL := BitVec.ofNat 32 x, seqSet := true, roc := roc0, guessedRoc := roc0 }
            | .srtcp => { k with sL := BitVec.ofNat 32 x, seqSet := true }))
      ∧ (¬ (k.encAlgo = .null ∧ k.authAlgo = .null) → k.seqSet = true →
          (acc = true ↔ k.lastNat < k.currentNat x ∨ k.lastNat = k.currentNat x + 64
            ∨ (k.lastNat < k.currentNat x + 64 ∧ k.replayMask.getLsbD (k.lastNat - k.currentNat x) = false))
            ∧ l = (match k.kind with
              | .srtp => { k with guessedRoc := BitVec.ofNat 32 (k.guessNat x) }
              | .srtcp => k))

/-- UPDATE on a valid slot: a newer packet advances s_l, commits the guessed ROC in an SRTP slot, and shifts the window
by its lead, to nothing at 64 or more, setting bit 0; an older packet sets its bit where the window reaches it and
changes no other committed state (44_replay_index.md R224, R226, R229). -/
def Obligations.UpdateCommitsThePacket : Prop :=
  ∀ (c : Nat) (s : State) (k : Slot), s.slot? c = some k → k.valid = true → k.seqSet = true →
    let x := s.xNat k.kind
    let lead := k.currentNat x - k.lastNat
    let behind := k.lastNat - k.currentNat x
    let g : Slot := match k.kind with
      | .srtp => { k with guessedRoc := BitVec.ofNat 32 (k.guessNat x) }
      | .srtcp => k
    ∃ t, exec (.update c) s = .next t ∧ s.Completes t
      ∧ (k.lastNat < k.currentNat x →
          t.slot? c = some { g with
            sL := BitVec.ofNat 32 x
            roc := match k.kind with
              | .srtp => BitVec.ofNat 32 (k.guessNat x)
              | .srtcp => k.roc
            replayMask := if lead < 64 then BitVec.ofNat 64 (k.replayMask.toNat * 2 ^ lead) ||| 1 else 1 })
      ∧ (k.currentNat x ≤ k.lastNat →
          t.slot? c = some { g with
            replayMask := if behind < 64 then k.replayMask ||| BitVec.ofNat 64 (2 ^ behind) else k.replayMask })

/-- UPDATE of a first packet initialises the index state and sets bit 0 (44_replay_index.md R221, R229). -/
def Obligations.UpdateOfAFirstPacket : Prop :=
  ∀ (c : Nat) (s : State) (k : Slot), s.slot? c = some k → k.valid = true → k.seqSet = false →
    let x := s.xNat k.kind
    let roc0 := k.firstRoc Config.firstRocPolicy
    ∃ t, exec (.update c) s = .next t ∧ s.Completes t
      ∧ t.slot? c = some (match k.kind with
          | .srtp => { k with sL := BitVec.ofNat 32 x, seqSet := true, roc := roc0, guessedRoc := roc0,
                              replayMask := k.replayMask ||| 1 }
          | .srtcp => { k with sL := BitVec.ofNat 32 x, seqSet := true, replayMask := k.replayMask ||| 1 })

/-- A packet once committed is a replay: after UPDATE of a packet less than 64 behind s_l, or newer, or first, CHECK of
the same packet on that slot rejects it, where the slot is not a null-algorithm context (44_replay_index.md R228,
R229). -/
def Obligations.CheckAfterUpdateRejects : Prop :=
  ∀ (c : Nat) (s t : State) (k : Slot), s.slot? c = some k → k.valid = true →
    ¬ (k.encAlgo = .null ∧ k.authAlgo = .null) →
    (k.seqSet = true → k.lastNat < k.currentNat (s.xNat k.kind) + 64) →
    exec (.update c) s = .next t →
    ∃ u, exec (.check c) t = .next u ∧ u.status.accept = false ∧ u.res[0] = 0

/-- ROC monotonicity: in a slot that has seen its first packet no command but CTX_NEW, CTX_CLONE and CTX_DESTROY lowers
roc (44_replay_index.md R230; 10_state.md R34 (g)). -/
def Obligations.RocNeverDecreases : Prop :=
  ∀ (i : Instr) (s t : State) (j : Nat) (k l : Slot), exec i s = .next t → s.slot? j = some k → t.slot? j = some l →
    k.seqSet = true → (∀ c, i ≠ .ctxNew c ∧ i ≠ .ctxClone c ∧ i ≠ .ctxDestroy c) → k.roc.toNat ≤ l.roc.toNat

/-! ### Packet operations (45_packet_ops.md) -/

/-- ENCRYPT with AES-CM XORs the payload with the counter-mode keystream at the IV of SSRC and index, writes it in place,
and reports RES0; the session keys are first derived again at the index where the rate is not 0 and the key-derivation
index is not the last one (45_packet_ops.md R250; 30_encoding.md R105; 43_key_derivation.md R206; 41_cipher_modes.md R161,
R162, R167 to R169). -/
def Obligations.EncryptAppliesTheCounterModeKeystream : Prop :=
  ∀ (c : Nat) (s : State) (k : Slot) (d : Bytes), s.slot? c = some k → k.valid = true → k.encAlgo = .aesCm →
    k.keysValid = true → s.larg[0].toNat + (s.larg[1].toNat + s.larg[2].toNat) ≤ Config.bufBytes →
    d.length = s.larg[2].toNat → s.buf.holds (s.larg[0].toNat + s.larg[1].toNat) d →
    let i : Nat := match k.kind with
      | .srtp => s.larg[3].toNat % 2 ^ 16 * 2 ^ 32 + s.larg[4].toNat
      | .srtcp => s.larg[4].toNat
    let rekeys : Prop := k.kdr ≠ 0 ∧ i / k.kdr.toNat ≠ k.lastR.toNat
    ∃ t l, exec (.encrypt c) s = .next t ∧ s.Completes t ∧ t.slot? c = some l
      ∧ (rekeys → k.DerivedAt l i ∧ t.res[0] = 3) ∧ (¬ rekeys → l = k ∧ t.res[0] = 1)
      ∧ (let key := l.kE.toList.take k.nE.toNat
         let salt := l.kS.toList.take k.nS.toNat
         let iv := xorBytes (zeros (14 - salt.length) ++ salt) (zeros 4 ++ be 4 s.larg[5].toNat ++ be 6 i)
         t.buf.holds (s.larg[0].toNat + s.larg[1].toNat) (xorBytes d (cmKeystream key iv d.length)))

/-- ENCRYPT with AES-F8 XORs the payload with the F8 keystream at the IV built from the packet's header, in place, and
reports RES0; the header must cover the IV's bytes, and the session keys are first derived again as for AES-CM
(45_packet_ops.md R250; 30_encoding.md R105; 43_key_derivation.md R206; 41_cipher_modes.md R164, R165, R170, R171). -/
def Obligations.EncryptAppliesTheF8Keystream : Prop :=
  ∀ (c : Nat) (s : State) (k : Slot) (d hdr : Bytes), s.slot? c = some k → k.valid = true → k.encAlgo = .aesF8 →
    k.keysValid = true → s.larg[0].toNat + (s.larg[1].toNat + s.larg[2].toNat) ≤ Config.bufBytes →
    d.length = s.larg[2].toNat → s.buf.holds (s.larg[0].toNat + s.larg[1].toNat) d →
    hdr.length = (match k.kind with | .srtp => 12 | .srtcp => 8) → hdr.length ≤ s.larg[1].toNat →
    s.buf.holds s.larg[0].toNat hdr →
    let i : Nat := match k.kind with
      | .srtp => s.larg[3].toNat % 2 ^ 16 * 2 ^ 32 + s.larg[4].toNat
      | .srtcp => s.larg[4].toNat
    let rekeys : Prop := k.kdr ≠ 0 ∧ i / k.kdr.toNat ≠ k.lastR.toNat
    let iv := match k.kind with
      | .srtp => 0x00 :: (hdr.drop 1 ++ be 4 (i / 2 ^ 16))
      | .srtcp => zeros 4 ++ be 4 (0x80000000#32 ||| s.larg[4]).toNat ++ hdr
    ∃ t l, exec (.encrypt c) s = .next t ∧ s.Completes t ∧ t.slot? c = some l
      ∧ (rekeys → k.DerivedAt l i ∧ t.res[0] = 3) ∧ (¬ rekeys → l = k ∧ t.res[0] = 1)
      ∧ (let key := l.kE.toList.take k.nE.toNat
         let salt := l.kS.toList.take k.nS.toNat
         t.buf.holds (s.larg[0].toNat + s.larg[1].toNat) (xorBytes d (f8Keystream key salt iv d.length)))

/-- ENCRYPT on a slot whose encryption is Null, or without session keys, changes no byte and reads none; it still derives
the keys again at a key-derivation boundary and reports that in RES0 bit 1 (45_packet_ops.md R250; 41_cipher_modes.md
R172; 43_key_derivation.md R206; 30_encoding.md R105; 60_exceptions.md R307). -/
def Obligations.EncryptWithoutCipherOrKeysIsANoOp : Prop :=
  ∀ (c : Nat) (s : State) (k : Slot), s.slot? c = some k → k.valid = true →
    s.larg[0].toNat + (s.larg[1].toNat + s.larg[2].toNat) ≤ Config.bufBytes →
    (k.encAlgo = .null ∨ (k.keysValid = false
      ∧ (k.encAlgo = .aesF8 → (match k.kind with | .srtp => 12 | .srtcp => 8) ≤ s.larg[1].toNat))) →
    let i : Nat := match k.kind with
      | .srtp => s.larg[3].toNat % 2 ^ 16 * 2 ^ 32 + s.larg[4].toNat
      | .srtcp => s.larg[4].toNat
    let rekeys : Prop := k.keysValid = true ∧ k.kdr ≠ 0 ∧ i / k.kdr.toNat ≠ k.lastR.toNat
    ∃ t l, exec (.encrypt c) s = .next t ∧ s.Completes t ∧ s.KeepsBuffer t ∧ t.slot? c = some l
      ∧ (rekeys → k.DerivedAt l i ∧ t.res[0] = 2) ∧ (¬ rekeys → l = k ∧ s.KeepsSlots t ∧ t.res[0] = 0)

/-- The range checks of the packet commands and of CTX_NEW, on unbounded sums, in the order of the command rules: Bounds
with ERRINFO the range's start offset (pb, P, A or T), and after it BadParam with ERRINFO = H for AES-F8 with a header
shorter than 12 (SRTP) or 8 (SRTCP) bytes (60_exceptions.md R301, R304; 45_packet_ops.md R250, R251). -/
def Obligations.RangeErrors : Prop :=
  (∀ (c : Nat) (s : State), c < Config.numCtx → Config.bufBytes < s.larg[0].toNat + 88 →
      ∃ t, exec (.ctxNew c) s = .next t ∧ s.Errs t 0x05 s.larg[0])
    ∧ ∀ (c : Nat) (s : State) (k : Slot), s.slot? c = some k → k.valid = true →
        (Config.bufBytes < s.larg[0].toNat + s.larg[1].toNat + s.larg[2].toNat →
            ∃ t, exec (.encrypt c) s = .next t ∧ s.Errs t 0x05 s.larg[0])
          ∧ (s.larg[0].toNat + s.larg[1].toNat + s.larg[2].toNat ≤ Config.bufBytes → k.encAlgo = .aesF8 →
              s.larg[1].toNat < (match k.kind with | .srtp => 12 | .srtcp => 8) →
              ∃ t, exec (.encrypt c) s = .next t ∧ s.Errs t 0x06 s.larg[1])
          ∧ (Config.bufBytes < s.larg[0].toNat + s.larg[1].toNat →
              ∃ t, exec (.auth c) s = .next t ∧ s.Errs t 0x05 s.larg[0])
          ∧ (s.larg[0].toNat + s.larg[1].toNat ≤ Config.bufBytes → k.authAlgo ≠ .null → k.keysValid = true →
              Config.bufBytes < s.larg[3].toNat + k.tagLen.toNat →
              ∃ t, exec (.auth c) s = .next t ∧ s.Errs t 0x05 s.larg[3])

/-- Round trip: ENCRYPT issued twice with the same operands restores the whole buffer, for every algorithm, slot kind,
length and operand, whether or not the first one derived the keys again or ended in an error (45_packet_ops.md R252
(a), R250; 41_cipher_modes.md R162, R165). -/
def Obligations.EncryptTwiceRestoresTheBuffer : Prop :=
  ∀ (c : Nat) (s t : State), Memory.wf s.buf → exec (.encrypt c) s = .next t →
    ∃ u, exec (.encrypt c) t = .next u ∧ u.buf = s.buf

/-- Determinism across slots: two slots of one kind with the same algorithms, key fields and rate, given the same
operands and buffer, leave the same buffer and RES0 (45_packet_ops.md R252 (b)). -/
def Obligations.PacketCommandsDependOnKeysAndOperands : Prop :=
  ∀ (c d : Nat) (s t : State) (k l : Slot), s.slot? c = some k → s.slot? d = some l →
    k.SameConfig { l with ssrc := k.ssrc } → k.SameKeys l →
    (exec (.encrypt c) s = .next t → k.valid = true →
        ∃ u, exec (.encrypt d) s = .next u ∧ u.buf = t.buf ∧ u.res = t.res)
      ∧ (exec (.auth c) s = .next t → k.valid = true →
        ∃ u, exec (.auth d) s = .next u ∧ u.buf = t.buf ∧ u.res = t.res)

/-- AUTH writes the first tagLen bytes of the MAC of the region, followed in an SRTP slot by the ROC operand, under the
slot's authentication key, and reports tagLen (45_packet_ops.md R251; 42_authentication.md R180, R187 to R189). -/
def Obligations.AuthWritesTheTag : Prop :=
  ∀ (c : Nat) (s : State) (k : Slot) (m : Bytes), s.slot? c = some k → k.valid = true → k.authAlgo ≠ .null →
    k.keysValid = true → s.larg[0].toNat + s.larg[1].toNat ≤ Config.bufBytes →
    s.larg[3].toNat + k.tagLen.toNat ≤ Config.bufBytes → m.length = s.larg[1].toNat →
    s.buf.holds s.larg[0].toNat m →
    let key := k.kA.toList.take k.nA.toNat
    let input := match k.kind with
      | .srtp => m ++ be 4 s.larg[2].toNat
      | .srtcp => m
    let full := match k.authAlgo with
      | .hmacSkein => (Config.skeinMac key input).toList
      | _ => hmacSha1 key input
    ∃ t, exec (.auth c) s = .next t ∧ s.Completes t ∧ t.buf.holds s.larg[3].toNat (full.take k.tagLen.toNat)
      ∧ t.res[0].toNat = k.tagLen.toNat

/-- AUTH on a slot whose authentication is Null, or without session keys, writes nothing and reports 0; its tag range is
not checked (45_packet_ops.md R251; 60_exceptions.md R307). -/
def Obligations.AuthWithoutMacOrKeysIsANoOp : Prop :=
  ∀ (c : Nat) (s : State) (k : Slot), s.slot? c = some k → k.valid = true →
    (k.authAlgo = .null ∨ k.keysValid = false) → s.larg[0].toNat + s.larg[1].toNat ≤ Config.bufBytes →
    ∃ t, exec (.auth c) s = .next t ∧ s.Completes t ∧ t.buf = s.buf ∧ t.res[0] = 0

/-! ### The units (40_aes.md to 42_authentication.md) -/

/-- A keystream of n bytes has n bytes and is the prefix of every longer one at the same key and IV, in both modes; so a
partial block uses the prefix of a full one (41_cipher_modes.md R161, R164). -/
def Obligations.KeystreamsArePrefixes : Prop :=
  ∀ (k ks iv : Bytes) (m n : Nat), m ≤ n →
    (cmKeystream k iv n).length = n ∧ (cmKeystream k iv n).take m = cmKeystream k iv m
      ∧ (f8Keystream k ks iv n).length = n ∧ (f8Keystream k ks iv n).take m = f8Keystream k ks iv m

/-- SHA-1's padded message is M, 0x80, z zero bytes and the 8-byte bit length, with z the least that makes the length a
multiple of 64; the digest and the HMAC are 20 bytes (42_authentication.md R181, R183, R185). -/
def Obligations.Sha1PaddingAndLengths : Prop :=
  ∀ key m : Bytes,
    (∃ z, sha1Pad m = m ++ 0x80 :: (zeros z ++ be 8 (8 * m.length)) ∧ (m.length + 1 + z + 8) % 64 = 0
      ∧ ∀ y, y < z → (m.length + 1 + y + 8) % 64 ≠ 0)
      ∧ (sha1 m).length = 20 ∧ (hmacSha1 key m).length = 20

/-! ### The other registers (10_state.md R41, R42, R45 to R47) -/

/-- Reads and writes of the registers no other statement is about, in every state: CMD reads back the command word, CAPS0
to CAPS2 their constants, and ERRINFO, ARG and RES their contents; writes of CAPS0 to CAPS2, ERRINFO and RES are ignored;
and an ARG write stores that ARG word and nothing else, so that while BUSY the latched operands stay (10_state.md R41,
R42, R45 to R47; 20_memory.md R73; 70_reset_and_hazards.md R346). -/
def Obligations.RegistersReadBackAndIgnoreWrites : Prop :=
  ∀ (s : State) (v : Word) (rest : List Event), s.faulted = false →
    (∀ x ∈ [(0x008, BitVec.ofNat 32 Config.numCtx), (0x00C, BitVec.ofNat 32 Config.bufBytes), (0x010, s.cmd),
        (0x018, BitVec.ofNat 32 ((if Config.hasSkein then 1 else 0) + Config.maxAuthKeyBytes * 2 ^ 8
          + Config.maxMkiBytes * 2 ^ 16 + (if Config.hasSkein then Config.skeinMacBytes else 0) * 2 ^ 24)),
        (0x020, s.errInfo)],
      s.schedule = .read x.1 .w32 :: rest → step s = .next { s with readData := some x.2, schedule := rest })
      ∧ (∀ (i : Nat) (h : i < 8),
        (s.schedule = .read (0x040 + 4 * i) .w32 :: rest →
            step s = .next { s with readData := some s.arg[i], schedule := rest })
          ∧ (s.schedule = .read (0x060 + 4 * i) .w32 :: rest →
            step s = .next { s with readData := some s.res[i], schedule := rest })
          ∧ (s.schedule = .write (0x040 + 4 * i) .w32 v :: rest →
            step s = .next { s with arg := s.arg.set i v, schedule := rest })
          ∧ (s.schedule = .write (0x060 + 4 * i) .w32 v :: rest → step s = .next { s with schedule := rest }))
      ∧ ∀ off ∈ [0x008, 0x00C, 0x018, 0x020],
        s.schedule = .write off .w32 v :: rest → step s = .next { s with schedule := rest }
end

