-- ==== Sys2Proof/Laws/Bytes.lean ====
section
/-! SUPPORT. The small lemmas of byte strings and key fields: lengths, single bytes, and that XOR with a keystream of
the data's length undoes itself. -/

namespace Sys2Proof.Machine

@[simp] theorem zeros_length (n : Nat) : (zeros n).length = n := by simp [zeros]

@[simp] theorem rep_length (x : Byte) (n : Nat) : (rep x n).length = n := by simp [rep]

@[simp] theorem be_length (n v : Nat) : (be n v).length = n := by
  induction n with
  | zero => rfl
  | succ n ih => simp [be, ih]

theorem be_getElem (n v i : Nat) (h : i < n) :
    (be n v)[i]'(by simpa using h) = BitVec.ofNat 8 (v / 256 ^ (n - 1 - i)) := by
  induction n generalizing i with
  | zero => omega
  | succ n ih =>
    cases i with
    | zero => simp [be]
    | succ i => simp only [be, List.getElem_cons_succ]; rw [ih i (by omega)]; congr 3; omega

@[simp] theorem leBytes_length (n : Nat) (v : Word) : (leBytes n v).length = n := by
  induction n generalizing v with
  | zero => rfl
  | succ n ih => simp [leBytes, ih]

@[simp] theorem xorBytes_length (a b : Bytes) : (xorBytes a b).length = min a.length b.length := by
  simp [xorBytes]

theorem xorBytes_getElem (a b : Bytes) (i : Nat) (ha : i < a.length) (hb : i < b.length) :
    (xorBytes a b)[i]'(by simp; omega) = a[i] ^^^ b[i] := by
  simp [xorBytes]

/-- XOR with one string twice gives the first string back, where the string is long enough. -/
theorem xorBytes_xorBytes (a b : Bytes) (h : a.length ≤ b.length) : xorBytes (xorBytes a b) b = a := by
  induction a generalizing b with
  | nil => simp [xorBytes]
  | cons x xs ih =>
    cases b with
    | nil => simp at h
    | cons y ys =>
      simp only [xorBytes, List.zipWith_cons_cons, List.cons.injEq]
      refine ⟨?_, ih ys (by simpa using h)⟩
      rw [BitVec.xor_assoc, BitVec.xor_self, BitVec.xor_zero]

/-- XOR with zeros changes nothing. -/
theorem xorBytes_zeros (a : Bytes) : xorBytes a (zeros a.length) = a := by
  apply List.ext_getElem
  · simp
  · intro i h1 h2
    rw [xorBytes_getElem _ _ _ h2 (by simpa using h2)]
    simp [zeros]

@[simp] theorem padTo_getElem (n : Nat) (b : Bytes) (i : Nat) (h : i < n) : (padTo n b)[i] = b.getD i 0 := by
  simp [padTo]

/-- A padded field is zero from the string's length on (10_state.md R34 (a)). -/
theorem padTo_zeroFrom (n : Nat) (b : Bytes) (m : Nat) (h : b.length ≤ m) : zeroFrom (padTo n b) m := by
  intro i hi hm
  rw [padTo_getElem, List.getD_eq_default]
  omega

theorem zeroFrom_replicate (m n : Nat) : zeroFrom (Vector.replicate m (0 : Byte)) n := by
  intro i hi _
  simp

@[simp] theorem fieldBytes_length {m : Nat} (f : Vector Byte m) (n : Byte) :
    (fieldBytes f n).length = min n.toNat m := by
  simp [fieldBytes]

/-- Reading a field's bytes back gives the string it was padded from, where the length is the string's. -/
theorem fieldBytes_padTo (m : Nat) (b : Bytes) (n : Byte) (hn : n.toNat = b.length) (hm : b.length ≤ m) :
    fieldBytes (padTo m b) n = b := by
  apply List.ext_getElem
  · simp [hn]; omega
  · intro i h1 h2
    simp [fieldBytes, padTo, h2]

end Sys2Proof.Machine
end

