-- ==== Sys2Proof/Laws/Memory.lean ====
section
/-! SUPPORT. The laws of the packet buffer (10_state.md R33, 20_memory.md R77): a read after a write, canonical form
kept by every operation, and equal reads in canonical form are equal buffers. -/

namespace Sys2Proof.Machine

namespace Memory

@[simp] theorem read_nil (a : Nat) : Memory.read [] a = none := rfl

theorem read_cons (k : Nat) (v : Byte) (m : Memory) (a : Nat) :
    Memory.read ((k, v) :: m) a = if k = a then some v else Memory.read m a := rfl

/-- A byte just written reads as written. -/
theorem read_write_same (m : Memory) (a : Nat) (b : Byte) : (m.write a b).read a = some b := by
  induction m with
  | nil => simp [write, read]
  | cons x m ih =>
    obtain ⟨k, v⟩ := x
    simp only [write]
    split
    · simp [read]
    · split
      · simp [read]
      · simp only [read]; split
        · omega
        · exact ih

/-- A write leaves every other byte as it was. -/
theorem read_write_other (m : Memory) (a x : Nat) (b : Byte) (h : x ≠ a) : (m.write a b).read x = m.read x := by
  induction m with
  | nil => simp [write, read]; omega
  | cons y m ih =>
    obtain ⟨k, v⟩ := y
    simp only [write]
    split
    · simp only [read]; split
      · omega
      · rfl
    · split
      · rename_i hk
        simp only [read]; split
        · omega
        · split
          · omega
          · rfl
      · simp only [read]; split
        · rfl
        · exact ih

theorem read_write (m : Memory) (a x : Nat) (b : Byte) :
    (m.write a b).read x = if x = a then some b else m.read x := by
  split
  · subst x; exact read_write_same m a b
  · exact read_write_other m a x b ‹_›

/-- Every entry of a written buffer is the written byte or an entry of the buffer before. -/
theorem mem_write (m : Memory) (a : Nat) (b : Byte) (x : Host.Cell) (h : x ∈ m.write a b) :
    x = (a, b) ∨ x ∈ m := by
  induction m with
  | nil => simpa [write] using h
  | cons y m ih =>
    obtain ⟨k, v⟩ := y
    simp only [write] at h
    split at h
    · simpa using h
    · split at h
      · simp only [List.mem_cons] at h ⊢; tauto
      · simp only [List.mem_cons] at h ⊢
        rcases h with h | h
        · exact Or.inr (Or.inl h)
        · rcases ih h with h | h <;> tauto

theorem write_pairwise (m : Memory) (a : Nat) (b : Byte) (h : m.Pairwise (fun x y => x.1 < y.1)) :
    (m.write a b).Pairwise (fun x y => x.1 < y.1) := by
  induction m with
  | nil => simp [write]
  | cons y m ih =>
    obtain ⟨k, v⟩ := y
    rw [List.pairwise_cons] at h
    simp only [write]
    split
    · refine List.pairwise_cons.2 ⟨?_, List.pairwise_cons.2 h⟩
      intro x hx
      rcases List.mem_cons.1 hx with rfl | hx
      · assumption
      · have := h.1 x hx; simp only at this ⊢; omega
    · split
      · subst_vars; exact List.pairwise_cons.2 h
      · refine List.pairwise_cons.2 ⟨?_, ih h.2⟩
        intro x hx
        rcases mem_write m a b x hx with rfl | hx
        · simp only; omega
        · exact h.1 x hx

/-- A write inside the buffer keeps the canonical form. -/
theorem write_wf (m : Memory) (a : Nat) (b : Byte) (h : Memory.wf m) (ha : a < Config.bufBytes) :
    Memory.wf (m.write a b) := by
  refine ⟨write_pairwise m a b h.1, ?_⟩
  intro x hx
  rcases mem_write m a b x hx with rfl | hx
  · exact ha
  · exact h.2 x hx

/-- Writing a range inside the buffer keeps the canonical form. -/
theorem writeBytes_wf (m : Memory) (a : Nat) (v : Bytes) (h : Memory.wf m)
    (ha : a + v.length ≤ Config.bufBytes) : Memory.wf (m.writeBytes a v) := by
  induction v generalizing m a with
  | nil => exact h
  | cons b bs ih =>
    simp only [List.length_cons] at ha
    exact ih (m.write a b) (a + 1) (write_wf m a b h (by omega)) (by omega)

/-- A range write leaves every byte outside the range as it was. -/
theorem read_writeBytes_outside (m : Memory) (a x : Nat) (v : Bytes) (h : x < a ∨ a + v.length ≤ x) :
    (m.writeBytes a v).read x = m.read x := by
  induction v generalizing m a with
  | nil => rfl
  | cons b bs ih =>
    simp only [List.length_cons] at h
    rw [writeBytes, ih (m.write a b) (a + 1) (by omega), read_write_other _ _ _ _ (by omega)]

/-- Each byte of a range just written reads as written. -/
theorem read_writeBytes_inside (m : Memory) (a j : Nat) (v : Bytes) (h : j < v.length) :
    (m.writeBytes a v).read (a + j) = some v[j] := by
  induction v generalizing m a j with
  | nil => simp at h
  | cons b bs ih =>
    cases j with
    | zero =>
      simp only [writeBytes, Nat.add_zero, List.getElem_cons_zero]
      rw [read_writeBytes_outside _ _ _ _ (by omega), read_write_same]
    | succ j =>
      simp only [writeBytes, List.getElem_cons_succ]
      rw [show a + (j + 1) = a + 1 + j by omega]
      exact ih (m.write a b) (a + 1) j (by simpa using h)

/-- A range read succeeds with exactly the bytes the range holds. -/
theorem readBytes_eq_ok (m : Memory) (a n : Nat) (v : Bytes) :
    m.readBytes a n = .ok v ↔ v.length = n ∧ m.holds a v := by
  induction n generalizing a v with
  | zero =>
    simp only [readBytes, Except.ok.injEq]
    constructor
    · rintro rfl; exact ⟨rfl, fun j h => by simp at h⟩
    · rintro ⟨h, _⟩; exact (List.length_eq_zero_iff.1 h).symm
  | succ n ih =>
    simp only [readBytes]
    constructor
    · intro h
      split at h
      · cases h
      · rename_i b hb
        split at h
        · cases h
        · rename_i bs hbs
          cases h
          obtain ⟨hl, hh⟩ := (ih (a + 1) bs).1 hbs
          refine ⟨by simp [hl], fun j hj => ?_⟩
          cases j with
          | zero => simpa using hb
          | succ j =>
            rw [show a + (j + 1) = a + 1 + j by omega]
            simpa using hh j (by simpa using hj)
    · rintro ⟨hl, hh⟩
      cases v with
      | nil => simp at hl
      | cons b bs =>
        have h0 : m.read a = some b := hh 0 (by simp)
        have h1 : m.readBytes (a + 1) n = .ok bs := (ih (a + 1) bs).2 ⟨by simpa using hl, fun j hj => by
          have := hh (j + 1) (by simpa using hj)
          rw [show a + (j + 1) = a + 1 + j by omega] at this
          exact this⟩
        simp [h0, h1]

theorem readBytes_length {m : Memory} {a n : Nat} {v : Bytes} (h : m.readBytes a n = .ok v) : v.length = n :=
  ((readBytes_eq_ok m a n v).1 h).1

/-- A range read fails at the first unwritten offset of the range. -/
theorem readBytes_eq_error (m : Memory) (a n x : Nat) :
    m.readBytes a n = .error x ↔ a ≤ x ∧ x < a + n ∧ m.read x = none ∧ m.written a (x - a) := by
  induction n generalizing a with
  | zero => simp [readBytes]; omega
  | succ n ih =>
    simp only [readBytes]
    constructor
    · intro h
      split at h
      · rename_i hb
        cases h
        exact ⟨by omega, by omega, hb, fun j hj => by omega⟩
      · rename_i b hb
        split at h
        · rename_i e he
          cases h
          obtain ⟨h1, h2, h3, h4⟩ := (ih (a + 1)).1 he
          refine ⟨by omega, by omega, h3, fun j hj => ?_⟩
          cases j with
          | zero => exact ⟨b, by simpa using hb⟩
          | succ j =>
            obtain ⟨c, hc⟩ := h4 j (by omega)
            exact ⟨c, by rw [← hc]; congr 1; omega⟩
        · cases h
    · rintro ⟨h1, h2, h3, h4⟩
      by_cases hx : x = a
      · subst hx; simp [h3]
      · obtain ⟨b, hb⟩ := h4 0 (by omega)
        rw [Nat.add_zero] at hb
        have : m.readBytes (a + 1) n = .error x := (ih (a + 1)).2 ⟨by omega, by omega, h3, fun j hj => by
          obtain ⟨c, hc⟩ := h4 (j + 1) (by omega)
          exact ⟨c, by rw [← hc]; congr 1; omega⟩⟩
        simp [hb, this]

/-- A range read succeeds exactly where every byte of the range is written. -/
theorem readBytes_ok_iff_written (m : Memory) (a n : Nat) : (∃ v, m.readBytes a n = .ok v) ↔ m.written a n := by
  constructor
  · rintro ⟨v, h⟩ j hj
    obtain ⟨hl, hh⟩ := (readBytes_eq_ok m a n v).1 h
    exact ⟨v[j]'(by omega), hh j (by omega)⟩
  · intro h
    cases hr : m.readBytes a n with
    | ok v => exact ⟨v, rfl⟩
    | error x =>
      obtain ⟨h1, h2, h3, _⟩ := (readBytes_eq_error m a n x).1 hr
      obtain ⟨b, hb⟩ := h (x - a) (by omega)
      rw [show a + (x - a) = x by omega, h3] at hb
      cases hb

/-- An offset below every entry of a canonical buffer is unwritten. -/
theorem read_eq_none_of_lt (m : Memory) (a : Nat) (h : ∀ x ∈ m, a < x.1) : m.read a = none := by
  induction m with
  | nil => rfl
  | cons y m ih =>
    obtain ⟨k, v⟩ := y
    have hk := h (k, v) (by simp)
    simp only [read]
    rw [if_neg (by simp only at hk; omega)]
    exact ih fun x hx => h x (by simp [hx])

/-- Canonical buffers that read alike are the same list. -/
theorem ext_of_read (m n : Memory) (hm : m.Pairwise (fun x y => x.1 < y.1)) (hn : n.Pairwise (fun x y => x.1 < y.1))
    (h : ∀ a, m.read a = n.read a) : m = n := by
  induction m generalizing n with
  | nil =>
    cases n with
    | nil => rfl
    | cons y n => obtain ⟨k, v⟩ := y; have := h k; simp [read] at this
  | cons x m ih =>
    obtain ⟨k, v⟩ := x
    cases n with
    | nil => have := h k; simp [read] at this
    | cons y n =>
      obtain ⟨l, w⟩ := y
      rw [List.pairwise_cons] at hm hn
      have hkl : k = l := by
        by_contra hne
        rcases Nat.lt_or_gt_of_ne hne with hlt | hlt
        · have := h k
          rw [read_cons, if_pos rfl, read_cons, if_neg (by omega),
            read_eq_none_of_lt n k fun x hx => by have := hn.1 x hx; simp only at this; omega] at this
          cases this
        · have := h l
          rw [read_cons, if_neg (by omega), read_cons, if_pos rfl,
            read_eq_none_of_lt m l fun x hx => by have := hm.1 x hx; simp only at this; omega] at this
          cases this
      subst hkl
      have hv : v = w := by have := h k; simpa [read_cons] using this
      subst hv
      congr 1
      refine ih n hm.2 hn.2 fun a => ?_
      by_cases hak : k = a
      · subst hak
        rw [read_eq_none_of_lt m k fun x hx => hm.1 x hx, read_eq_none_of_lt n k fun x hx => hn.1 x hx]
      · have := h a
        rwa [read_cons, if_neg hak, read_cons, if_neg hak] at this

end Memory

end Sys2Proof.Machine
end

