-- ==== Sys2Proof/Laws/State.lean ====
section
/-! SUPPORT. What each update of State leaves in each field, one lemma a field, true by unfolding; so no later proof
unfolds a record update. -/

namespace Sys2Proof.Machine

variable (s : State)

/-! ### recordFault -/

@[simp] theorem State.recordFault_slots : s.recordFault.slots = s.slots := rfl
@[simp] theorem State.recordFault_cmd : s.recordFault.cmd = s.cmd := rfl
@[simp] theorem State.recordFault_status : s.recordFault.status = s.status := rfl
@[simp] theorem State.recordFault_doneIe : s.recordFault.doneIe = s.doneIe := rfl
@[simp] theorem State.recordFault_errInfo : s.recordFault.errInfo = s.errInfo := rfl
@[simp] theorem State.recordFault_arg : s.recordFault.arg = s.arg := rfl
@[simp] theorem State.recordFault_res : s.recordFault.res = s.res := rfl
@[simp] theorem State.recordFault_lcmd : s.recordFault.lcmd = s.lcmd := rfl
@[simp] theorem State.recordFault_larg : s.recordFault.larg = s.larg := rfl
@[simp] theorem State.recordFault_buf : s.recordFault.buf = s.buf := rfl
@[simp] theorem State.recordFault_faulted : s.recordFault.faulted = true := rfl
@[simp] theorem State.recordFault_readData : s.recordFault.readData = s.readData := rfl
@[simp] theorem State.recordFault_schedule : s.recordFault.schedule = s.schedule := rfl

/-! ### store -/

@[simp] theorem State.store_slots (a : Nat) (v : Bytes) : (s.store a v).slots = s.slots := rfl
@[simp] theorem State.store_cmd (a : Nat) (v : Bytes) : (s.store a v).cmd = s.cmd := rfl
@[simp] theorem State.store_status (a : Nat) (v : Bytes) : (s.store a v).status = s.status := rfl
@[simp] theorem State.store_doneIe (a : Nat) (v : Bytes) : (s.store a v).doneIe = s.doneIe := rfl
@[simp] theorem State.store_errInfo (a : Nat) (v : Bytes) : (s.store a v).errInfo = s.errInfo := rfl
@[simp] theorem State.store_arg (a : Nat) (v : Bytes) : (s.store a v).arg = s.arg := rfl
@[simp] theorem State.store_res (a : Nat) (v : Bytes) : (s.store a v).res = s.res := rfl
@[simp] theorem State.store_lcmd (a : Nat) (v : Bytes) : (s.store a v).lcmd = s.lcmd := rfl
@[simp] theorem State.store_larg (a : Nat) (v : Bytes) : (s.store a v).larg = s.larg := rfl
@[simp] theorem State.store_buf (a : Nat) (v : Bytes) : (s.store a v).buf = s.buf.writeBytes a v := rfl
@[simp] theorem State.store_faulted (a : Nat) (v : Bytes) : (s.store a v).faulted = s.faulted := rfl
@[simp] theorem State.store_readData (a : Nat) (v : Bytes) : (s.store a v).readData = s.readData := rfl
@[simp] theorem State.store_schedule (a : Nat) (v : Bytes) : (s.store a v).schedule = s.schedule := rfl

/-! ### setSlot -/

@[simp] theorem State.setSlot_slots (c : Nat) (k : Slot) : (s.setSlot c k).slots = s.slots.setIfInBounds c k := rfl
@[simp] theorem State.setSlot_cmd (c : Nat) (k : Slot) : (s.setSlot c k).cmd = s.cmd := rfl
@[simp] theorem State.setSlot_status (c : Nat) (k : Slot) : (s.setSlot c k).status = s.status := rfl
@[simp] theorem State.setSlot_doneIe (c : Nat) (k : Slot) : (s.setSlot c k).doneIe = s.doneIe := rfl
@[simp] theorem State.setSlot_errInfo (c : Nat) (k : Slot) : (s.setSlot c k).errInfo = s.errInfo := rfl
@[simp] theorem State.setSlot_arg (c : Nat) (k : Slot) : (s.setSlot c k).arg = s.arg := rfl
@[simp] theorem State.setSlot_res (c : Nat) (k : Slot) : (s.setSlot c k).res = s.res := rfl
@[simp] theorem State.setSlot_lcmd (c : Nat) (k : Slot) : (s.setSlot c k).lcmd = s.lcmd := rfl
@[simp] theorem State.setSlot_larg (c : Nat) (k : Slot) : (s.setSlot c k).larg = s.larg := rfl
@[simp] theorem State.setSlot_buf (c : Nat) (k : Slot) : (s.setSlot c k).buf = s.buf := rfl
@[simp] theorem State.setSlot_faulted (c : Nat) (k : Slot) : (s.setSlot c k).faulted = s.faulted := rfl
@[simp] theorem State.setSlot_readData (c : Nat) (k : Slot) : (s.setSlot c k).readData = s.readData := rfl
@[simp] theorem State.setSlot_schedule (c : Nat) (k : Slot) : (s.setSlot c k).schedule = s.schedule := rfl

/-! ### setRes -/

@[simp] theorem State.setRes_slots (i : Fin 8) (v : Word) : (s.setRes i v).slots = s.slots := rfl
@[simp] theorem State.setRes_cmd (i : Fin 8) (v : Word) : (s.setRes i v).cmd = s.cmd := rfl
@[simp] theorem State.setRes_status (i : Fin 8) (v : Word) : (s.setRes i v).status = s.status := rfl
@[simp] theorem State.setRes_doneIe (i : Fin 8) (v : Word) : (s.setRes i v).doneIe = s.doneIe := rfl
@[simp] theorem State.setRes_errInfo (i : Fin 8) (v : Word) : (s.setRes i v).errInfo = s.errInfo := rfl
@[simp] theorem State.setRes_arg (i : Fin 8) (v : Word) : (s.setRes i v).arg = s.arg := rfl
@[simp] theorem State.setRes_res (i : Fin 8) (v : Word) : (s.setRes i v).res = s.res.set i v := rfl
@[simp] theorem State.setRes_lcmd (i : Fin 8) (v : Word) : (s.setRes i v).lcmd = s.lcmd := rfl
@[simp] theorem State.setRes_larg (i : Fin 8) (v : Word) : (s.setRes i v).larg = s.larg := rfl
@[simp] theorem State.setRes_buf (i : Fin 8) (v : Word) : (s.setRes i v).buf = s.buf := rfl
@[simp] theorem State.setRes_faulted (i : Fin 8) (v : Word) : (s.setRes i v).faulted = s.faulted := rfl
@[simp] theorem State.setRes_readData (i : Fin 8) (v : Word) : (s.setRes i v).readData = s.readData := rfl
@[simp] theorem State.setRes_schedule (i : Fin 8) (v : Word) : (s.setRes i v).schedule = s.schedule := rfl

/-! ### complete -/

@[simp] theorem State.complete_slots : s.complete.slots = s.slots := rfl
@[simp] theorem State.complete_cmd : s.complete.cmd = s.cmd := rfl
@[simp] theorem State.complete_status : s.complete.status = { s.status with busy := false, done := true } := rfl
@[simp] theorem State.complete_doneIe : s.complete.doneIe = s.doneIe := rfl
@[simp] theorem State.complete_errInfo : s.complete.errInfo = s.errInfo := rfl
@[simp] theorem State.complete_arg : s.complete.arg = s.arg := rfl
@[simp] theorem State.complete_res : s.complete.res = s.res := rfl
@[simp] theorem State.complete_lcmd : s.complete.lcmd = s.lcmd := rfl
@[simp] theorem State.complete_larg : s.complete.larg = s.larg := rfl
@[simp] theorem State.complete_buf : s.complete.buf = s.buf := rfl
@[simp] theorem State.complete_faulted : s.complete.faulted = s.faulted := rfl
@[simp] theorem State.complete_readData : s.complete.readData = s.readData := rfl
@[simp] theorem State.complete_schedule : s.complete.schedule = s.schedule := rfl

/-! ### raise -/

@[simp] theorem State.raise_slots (e : CmdError) (info : Word) : (s.raise e info).slots = s.slots := rfl
@[simp] theorem State.raise_cmd (e : CmdError) (info : Word) : (s.raise e info).cmd = s.cmd := rfl
@[simp] theorem State.raise_status (e : CmdError) (info : Word) : (s.raise e info).status = { s.status with busy := false, done := true, err := true, errCode := e.code } := rfl
@[simp] theorem State.raise_doneIe (e : CmdError) (info : Word) : (s.raise e info).doneIe = s.doneIe := rfl
@[simp] theorem State.raise_errInfo (e : CmdError) (info : Word) : (s.raise e info).errInfo = info := rfl
@[simp] theorem State.raise_arg (e : CmdError) (info : Word) : (s.raise e info).arg = s.arg := rfl
@[simp] theorem State.raise_res (e : CmdError) (info : Word) : (s.raise e info).res = s.res := rfl
@[simp] theorem State.raise_lcmd (e : CmdError) (info : Word) : (s.raise e info).lcmd = s.lcmd := rfl
@[simp] theorem State.raise_larg (e : CmdError) (info : Word) : (s.raise e info).larg = s.larg := rfl
@[simp] theorem State.raise_buf (e : CmdError) (info : Word) : (s.raise e info).buf = s.buf := rfl
@[simp] theorem State.raise_faulted (e : CmdError) (info : Word) : (s.raise e info).faulted = s.faulted := rfl
@[simp] theorem State.raise_readData (e : CmdError) (info : Word) : (s.raise e info).readData = s.readData := rfl
@[simp] theorem State.raise_schedule (e : CmdError) (info : Word) : (s.raise e info).schedule = s.schedule := rfl

/-! ### setAccept -/

@[simp] theorem State.setAccept_slots (b : Bool) : (s.setAccept b).slots = s.slots := rfl
@[simp] theorem State.setAccept_cmd (b : Bool) : (s.setAccept b).cmd = s.cmd := rfl
@[simp] theorem State.setAccept_status (b : Bool) : (s.setAccept b).status = { s.status with accept := b } := rfl
@[simp] theorem State.setAccept_doneIe (b : Bool) : (s.setAccept b).doneIe = s.doneIe := rfl
@[simp] theorem State.setAccept_errInfo (b : Bool) : (s.setAccept b).errInfo = s.errInfo := rfl
@[simp] theorem State.setAccept_arg (b : Bool) : (s.setAccept b).arg = s.arg := rfl
@[simp] theorem State.setAccept_res (b : Bool) : (s.setAccept b).res = s.res := rfl
@[simp] theorem State.setAccept_lcmd (b : Bool) : (s.setAccept b).lcmd = s.lcmd := rfl
@[simp] theorem State.setAccept_larg (b : Bool) : (s.setAccept b).larg = s.larg := rfl
@[simp] theorem State.setAccept_buf (b : Bool) : (s.setAccept b).buf = s.buf := rfl
@[simp] theorem State.setAccept_faulted (b : Bool) : (s.setAccept b).faulted = s.faulted := rfl
@[simp] theorem State.setAccept_readData (b : Bool) : (s.setAccept b).readData = s.readData := rfl
@[simp] theorem State.setAccept_schedule (b : Bool) : (s.setAccept b).schedule = s.schedule := rfl

/-! ### setCfg -/

@[simp] theorem State.setCfg_slots (x y : Bool) : (s.setCfg x y).slots = s.slots := rfl
@[simp] theorem State.setCfg_cmd (x y : Bool) : (s.setCfg x y).cmd = s.cmd := rfl
@[simp] theorem State.setCfg_status (x y : Bool) : (s.setCfg x y).status = { s.status with cfgEncDis := x, cfgAuthDis := y } := rfl
@[simp] theorem State.setCfg_doneIe (x y : Bool) : (s.setCfg x y).doneIe = s.doneIe := rfl
@[simp] theorem State.setCfg_errInfo (x y : Bool) : (s.setCfg x y).errInfo = s.errInfo := rfl
@[simp] theorem State.setCfg_arg (x y : Bool) : (s.setCfg x y).arg = s.arg := rfl
@[simp] theorem State.setCfg_res (x y : Bool) : (s.setCfg x y).res = s.res := rfl
@[simp] theorem State.setCfg_lcmd (x y : Bool) : (s.setCfg x y).lcmd = s.lcmd := rfl
@[simp] theorem State.setCfg_larg (x y : Bool) : (s.setCfg x y).larg = s.larg := rfl
@[simp] theorem State.setCfg_buf (x y : Bool) : (s.setCfg x y).buf = s.buf := rfl
@[simp] theorem State.setCfg_faulted (x y : Bool) : (s.setCfg x y).faulted = s.faulted := rfl
@[simp] theorem State.setCfg_readData (x y : Bool) : (s.setCfg x y).readData = s.readData := rfl
@[simp] theorem State.setCfg_schedule (x y : Bool) : (s.setCfg x y).schedule = s.schedule := rfl

/-! ### issue -/

@[simp] theorem State.issue_slots (w : Word) : (s.issue w).slots = s.slots := rfl
@[simp] theorem State.issue_cmd (w : Word) : (s.issue w).cmd = w := rfl
@[simp] theorem State.issue_status (w : Word) : (s.issue w).status = s.status.issued := rfl
@[simp] theorem State.issue_doneIe (w : Word) : (s.issue w).doneIe = s.doneIe := rfl
@[simp] theorem State.issue_errInfo (w : Word) : (s.issue w).errInfo = 0 := rfl
@[simp] theorem State.issue_arg (w : Word) : (s.issue w).arg = s.arg := rfl
@[simp] theorem State.issue_res (w : Word) : (s.issue w).res = s.res := rfl
@[simp] theorem State.issue_lcmd (w : Word) : (s.issue w).lcmd = w := rfl
@[simp] theorem State.issue_larg (w : Word) : (s.issue w).larg = s.arg := rfl
@[simp] theorem State.issue_buf (w : Word) : (s.issue w).buf = s.buf := rfl
@[simp] theorem State.issue_faulted (w : Word) : (s.issue w).faulted = s.faulted := rfl
@[simp] theorem State.issue_readData (w : Word) : (s.issue w).readData = s.readData := rfl
@[simp] theorem State.issue_schedule (w : Word) : (s.issue w).schedule = s.schedule := rfl

/-! ### driveRead -/

@[simp] theorem State.driveRead_slots (v : Word) : (s.driveRead v).slots = s.slots := rfl
@[simp] theorem State.driveRead_cmd (v : Word) : (s.driveRead v).cmd = s.cmd := rfl
@[simp] theorem State.driveRead_status (v : Word) : (s.driveRead v).status = s.status := rfl
@[simp] theorem State.driveRead_doneIe (v : Word) : (s.driveRead v).doneIe = s.doneIe := rfl
@[simp] theorem State.driveRead_errInfo (v : Word) : (s.driveRead v).errInfo = s.errInfo := rfl
@[simp] theorem State.driveRead_arg (v : Word) : (s.driveRead v).arg = s.arg := rfl
@[simp] theorem State.driveRead_res (v : Word) : (s.driveRead v).res = s.res := rfl
@[simp] theorem State.driveRead_lcmd (v : Word) : (s.driveRead v).lcmd = s.lcmd := rfl
@[simp] theorem State.driveRead_larg (v : Word) : (s.driveRead v).larg = s.larg := rfl
@[simp] theorem State.driveRead_buf (v : Word) : (s.driveRead v).buf = s.buf := rfl
@[simp] theorem State.driveRead_faulted (v : Word) : (s.driveRead v).faulted = s.faulted := rfl
@[simp] theorem State.driveRead_readData (v : Word) : (s.driveRead v).readData = some v := rfl
@[simp] theorem State.driveRead_schedule (v : Word) : (s.driveRead v).schedule = s.schedule := rfl

/-! ### setDeriveResult -/

@[simp] theorem State.setDeriveResult_slots (d : Word) (r : BitVec 48) : (s.setDeriveResult d r).slots = s.slots := rfl
@[simp] theorem State.setDeriveResult_cmd (d : Word) (r : BitVec 48) : (s.setDeriveResult d r).cmd = s.cmd := rfl
@[simp] theorem State.setDeriveResult_status (d : Word) (r : BitVec 48) : (s.setDeriveResult d r).status = s.status := rfl
@[simp] theorem State.setDeriveResult_doneIe (d : Word) (r : BitVec 48) : (s.setDeriveResult d r).doneIe = s.doneIe := rfl
@[simp] theorem State.setDeriveResult_errInfo (d : Word) (r : BitVec 48) : (s.setDeriveResult d r).errInfo = s.errInfo := rfl
@[simp] theorem State.setDeriveResult_arg (d : Word) (r : BitVec 48) : (s.setDeriveResult d r).arg = s.arg := rfl
@[simp] theorem State.setDeriveResult_res (d : Word) (r : BitVec 48) : (s.setDeriveResult d r).res = ((s.res.set 0 d).set 1 (hi16 r)).set 2 (lo32 r) := rfl
@[simp] theorem State.setDeriveResult_lcmd (d : Word) (r : BitVec 48) : (s.setDeriveResult d r).lcmd = s.lcmd := rfl
@[simp] theorem State.setDeriveResult_larg (d : Word) (r : BitVec 48) : (s.setDeriveResult d r).larg = s.larg := rfl
@[simp] theorem State.setDeriveResult_buf (d : Word) (r : BitVec 48) : (s.setDeriveResult d r).buf = s.buf := rfl
@[simp] theorem State.setDeriveResult_faulted (d : Word) (r : BitVec 48) : (s.setDeriveResult d r).faulted = s.faulted := rfl
@[simp] theorem State.setDeriveResult_readData (d : Word) (r : BitVec 48) : (s.setDeriveResult d r).readData = s.readData := rfl
@[simp] theorem State.setDeriveResult_schedule (d : Word) (r : BitVec 48) : (s.setDeriveResult d r).schedule = s.schedule := rfl

/-! ### installSlot -/

@[simp] theorem State.installSlot_slots (c : Nat) (k : Slot) : (s.installSlot c k).slots = s.slots.setIfInBounds c k := rfl
@[simp] theorem State.installSlot_cmd (c : Nat) (k : Slot) : (s.installSlot c k).cmd = s.cmd := rfl
@[simp] theorem State.installSlot_status (c : Nat) (k : Slot) : (s.installSlot c k).status = { s.status with busy := false, done := true, cfgEncDis := k.encDis, cfgAuthDis := k.authDis } := rfl
@[simp] theorem State.installSlot_doneIe (c : Nat) (k : Slot) : (s.installSlot c k).doneIe = s.doneIe := rfl
@[simp] theorem State.installSlot_errInfo (c : Nat) (k : Slot) : (s.installSlot c k).errInfo = s.errInfo := rfl
@[simp] theorem State.installSlot_arg (c : Nat) (k : Slot) : (s.installSlot c k).arg = s.arg := rfl
@[simp] theorem State.installSlot_res (c : Nat) (k : Slot) : (s.installSlot c k).res = s.res := rfl
@[simp] theorem State.installSlot_lcmd (c : Nat) (k : Slot) : (s.installSlot c k).lcmd = s.lcmd := rfl
@[simp] theorem State.installSlot_larg (c : Nat) (k : Slot) : (s.installSlot c k).larg = s.larg := rfl
@[simp] theorem State.installSlot_buf (c : Nat) (k : Slot) : (s.installSlot c k).buf = s.buf := rfl
@[simp] theorem State.installSlot_faulted (c : Nat) (k : Slot) : (s.installSlot c k).faulted = s.faulted := rfl
@[simp] theorem State.installSlot_readData (c : Nat) (k : Slot) : (s.installSlot c k).readData = s.readData := rfl
@[simp] theorem State.installSlot_schedule (c : Nat) (k : Slot) : (s.installSlot c k).schedule = s.schedule := rfl

/-! ### hardReset -/

@[simp] theorem State.hardReset_slots : s.hardReset.slots = State.reset.slots := rfl
@[simp] theorem State.hardReset_cmd : s.hardReset.cmd = State.reset.cmd := rfl
@[simp] theorem State.hardReset_status : s.hardReset.status = State.reset.status := rfl
@[simp] theorem State.hardReset_doneIe : s.hardReset.doneIe = State.reset.doneIe := rfl
@[simp] theorem State.hardReset_errInfo : s.hardReset.errInfo = State.reset.errInfo := rfl
@[simp] theorem State.hardReset_arg : s.hardReset.arg = State.reset.arg := rfl
@[simp] theorem State.hardReset_res : s.hardReset.res = State.reset.res := rfl
@[simp] theorem State.hardReset_lcmd : s.hardReset.lcmd = State.reset.lcmd := rfl
@[simp] theorem State.hardReset_larg : s.hardReset.larg = State.reset.larg := rfl
@[simp] theorem State.hardReset_buf : s.hardReset.buf = State.reset.buf := rfl
@[simp] theorem State.hardReset_faulted : s.hardReset.faulted = State.reset.faulted := rfl
@[simp] theorem State.hardReset_readData : s.hardReset.readData = State.reset.readData := rfl
@[simp] theorem State.hardReset_schedule : s.hardReset.schedule = s.schedule := rfl

/-! ### stage -/

@[simp] theorem State.stage_slots (w : Word) : (s.stage w).slots = s.slots := rfl
@[simp] theorem State.stage_cmd (w : Word) : (s.stage w).cmd = w := rfl
@[simp] theorem State.stage_status (w : Word) : (s.stage w).status = s.status.issued := rfl
@[simp] theorem State.stage_doneIe (w : Word) : (s.stage w).doneIe = s.doneIe := rfl
@[simp] theorem State.stage_errInfo (w : Word) : (s.stage w).errInfo = 0 := rfl
@[simp] theorem State.stage_arg (w : Word) : (s.stage w).arg = s.arg := rfl
@[simp] theorem State.stage_res (w : Word) : (s.stage w).res = s.res := rfl
@[simp] theorem State.stage_lcmd (w : Word) : (s.stage w).lcmd = w := rfl
@[simp] theorem State.stage_larg (w : Word) : (s.stage w).larg = s.arg := rfl
@[simp] theorem State.stage_buf (w : Word) : (s.stage w).buf = s.buf := rfl
@[simp] theorem State.stage_faulted (w : Word) : (s.stage w).faulted = s.faulted := rfl
@[simp] theorem State.stage_readData (w : Word) : (s.stage w).readData = s.readData := rfl
@[simp] theorem State.stage_schedule (w : Word) : (s.stage w).schedule = .engine :: s.schedule := rfl

/-! ### STATUS as issue and a W1C write leave it -/

@[simp] theorem Status.issued_busy (t : Status) : t.issued.busy = true := rfl
@[simp] theorem Status.issued_done (t : Status) : t.issued.done = false := rfl
@[simp] theorem Status.issued_err (t : Status) : t.issued.err = false := rfl
@[simp] theorem Status.issued_accept (t : Status) : t.issued.accept = false := rfl
@[simp] theorem Status.issued_overrun (t : Status) : t.issued.overrun = t.overrun := rfl
@[simp] theorem Status.issued_cfgEncDis (t : Status) : t.issued.cfgEncDis = false := rfl
@[simp] theorem Status.issued_cfgAuthDis (t : Status) : t.issued.cfgAuthDis = false := rfl
@[simp] theorem Status.issued_errCode (t : Status) : t.issued.errCode = 0 := rfl
@[simp] theorem Status.clearWritten_busy (t : Status) (v : Word) : (t.clearWritten v).busy = t.busy := rfl
@[simp] theorem Status.clearWritten_err (t : Status) (v : Word) : (t.clearWritten v).err = t.err := rfl
@[simp] theorem Status.clearWritten_accept (t : Status) (v : Word) : (t.clearWritten v).accept = t.accept := rfl
@[simp] theorem Status.clearWritten_cfgEncDis (t : Status) (v : Word) : (t.clearWritten v).cfgEncDis = t.cfgEncDis := rfl
@[simp] theorem Status.clearWritten_cfgAuthDis (t : Status) (v : Word) : (t.clearWritten v).cfgAuthDis = t.cfgAuthDis := rfl
@[simp] theorem Status.clearWritten_errCode (t : Status) (v : Word) : (t.clearWritten v).errCode = t.errCode := rfl
@[simp] theorem Status.clearWritten_done (t : Status) (v : Word) :
    (t.clearWritten v).done = (t.done && !v.getLsbD 1) := rfl
@[simp] theorem Status.clearWritten_overrun (t : Status) (v : Word) :
    (t.clearWritten v).overrun = (t.overrun && !v.getLsbD 4) := rfl

end Sys2Proof.Machine
end

