-- ==== Sys2Proof/Laws/Ops.lean ====
section
/-! SUPPORT. What each shared operation can do, said once: a command's MemRead, the slot table, completion, errors, and the
two slot checks every command but NOP starts with. -/

namespace Sys2Proof.Machine

variable {s t : State}

/-! ### MemRead -/

/-- A MemRead of a range that holds v goes on with v (20_memory.md R77). -/
theorem State.load_of_holds {a n : Nat} {k : Bytes → Result} {v : Bytes} (hl : v.length = n) (h : s.buf.holds a v) :
    s.load a n k = k v := by
  rw [State.load, (Memory.readBytes_eq_ok _ _ _ _).2 ⟨hl, h⟩]

/-- A MemRead answers a next state only through the bytes it read. -/
theorem State.load_next {a n : Nat} {k : Bytes → Result} :
    s.load a n k = .next t ↔ ∃ v, s.buf.readBytes a n = .ok v ∧ k v = .next t := by
  unfold State.load
  cases s.buf.readBytes a n <;> simp

/-- A MemRead faults at the first unwritten offset of its range, or what it goes on with faults (10_state.md R33). -/
theorem State.load_fault {a n : Nat} {k : Bytes → Result} {f : Fault} :
    s.load a n k = .fault f ↔
      (∃ x, s.buf.readBytes a n = .error x ∧ f = .commandReadUnwritten x s.recordFault)
        ∨ ∃ v, s.buf.readBytes a n = .ok v ∧ k v = .fault f := by
  unfold State.load
  cases s.buf.readBytes a n <;> simp [eq_comm]

/-- A MemRead is refused only where what it goes on with is. -/
theorem State.load_refused {a n : Nat} {k : Bytes → Result} {r : Refusal} :
    s.load a n k = .refused r ↔ ∃ v, s.buf.readBytes a n = .ok v ∧ k v = .refused r := by
  unfold State.load
  cases s.buf.readBytes a n <;> simp

theorem fits_iff (a n : Nat) : fits a n = true ↔ a + n ≤ Config.bufBytes := by simp [fits]

theorem fits_false_iff (a n : Nat) : fits a n = false ↔ Config.bufBytes < a + n := by simp [fits]

/-! ### The slot table -/

/-- Slot c exists exactly where c < NUM_CTX (30_encoding.md R102). -/
theorem State.slot?_isSome {c : Nat} : (s.slot? c).isSome = true ↔ c < Config.numCtx := by
  rw [State.slot?, Option.isSome_iff_exists]
  simp [Vector.getElem?_eq_some_iff]

theorem State.slot?_lt {c : Nat} {k : Slot} (h : s.slot? c = some k) : c < Config.numCtx :=
  State.slot?_isSome.1 (Option.isSome_iff_exists.2 ⟨k, h⟩)

theorem State.slot?_eq_none {c : Nat} : s.slot? c = none ↔ Config.numCtx ≤ c := Vector.getElem?_eq_none_iff

/-- Storing a slot, read back at every number. -/
theorem State.slot?_setSlot (s : State) (c j : Nat) (k : Slot) :
    (s.setSlot c k).slot? j = if c = j ∧ c < Config.numCtx then some k else s.slot? j := by
  simp only [State.slot?, State.setSlot, Vector.getElem?_setIfInBounds]
  by_cases h : c = j
  · subst h
    by_cases hc : c < Config.numCtx <;> simp [hc]
  · simp [h]

theorem State.slot?_setSlot_same {c : Nat} (k : Slot) (h : c < Config.numCtx) : (s.setSlot c k).slot? c = some k := by
  simp [State.slot?_setSlot, h]

theorem State.slot?_setSlot_other {c j : Nat} (k : Slot) (h : j ≠ c) : (s.setSlot c k).slot? j = s.slot? j := by
  rw [State.slot?_setSlot, if_neg fun g => h g.1.symm]

/-- Storing the slot that is there changes nothing. -/
theorem State.setSlot_self {c : Nat} {k : Slot} (h : s.slot? c = some k) : s.setSlot c k = s := by
  have hs : s.slots.setIfInBounds c k = s.slots := by
    ext i hi
    simp only [Vector.getElem_setIfInBounds]
    split
    · subst c
      rw [State.slot?, Vector.getElem?_eq_getElem hi] at h
      exact (Option.some.inj h).symm
    · rfl
  rw [State.setSlot, hs]

/-- The slots of two states with one slot table. -/
theorem State.slot?_congr {u : State} (h : t.slots = u.slots) (c : Nat) : t.slot? c = u.slot? c := by
  rw [State.slot?, State.slot?, h]

@[simp] theorem State.slot?_store (a : Nat) (v : Bytes) (c : Nat) : (s.store a v).slot? c = s.slot? c := rfl
@[simp] theorem State.slot?_setRes (i : Fin 8) (v : Word) (c : Nat) : (s.setRes i v).slot? c = s.slot? c := rfl
@[simp] theorem State.slot?_setDeriveResult (d : Word) (r : BitVec 48) (c : Nat) :
    (s.setDeriveResult d r).slot? c = s.slot? c := rfl
@[simp] theorem State.slot?_complete (c : Nat) : s.complete.slot? c = s.slot? c := rfl
@[simp] theorem State.slot?_raise (e : CmdError) (info : Word) (c : Nat) : (s.raise e info).slot? c = s.slot? c := rfl
@[simp] theorem State.slot?_setAccept (b : Bool) (c : Nat) : (s.setAccept b).slot? c = s.slot? c := rfl
@[simp] theorem State.slot?_setCfg (x y : Bool) (c : Nat) : (s.setCfg x y).slot? c = s.slot? c := rfl
@[simp] theorem State.slot?_recordFault (c : Nat) : s.recordFault.slot? c = s.slot? c := rfl

theorem State.validSlot?_eq_some {c : Nat} {k : Slot} :
    s.validSlot? c = some k ↔ s.slot? c = some k ∧ k.valid = true := by
  simp [State.validSlot?, Option.filter_eq_some_iff]

theorem State.validSlot?_eq_none {c : Nat} :
    s.validSlot? c = none ↔ ∀ k, s.slot? c = some k → k.valid = false := by
  simp [State.validSlot?, Option.filter_eq_none_iff]

/-! ### Results -/

theorem State.setRes_getElem (s : State) (i : Fin 8) (v : Word) (j : Nat) (h : j < 8) :
    (s.setRes i v).res[j] = if i.val = j then v else s.res[j] := by
  simp only [State.setRes]
  rw [Vector.getElem_set]

/-! ### Completion and errors -/

/-- raise does what 60_exceptions.md R302 says and nothing else. -/
theorem State.raise_errs (s : State) (e : CmdError) (info : Word) : s.Errs (s.raise e info) e.code info :=
  ⟨rfl, rfl, rfl, rfl, rfl, ⟨rfl, rfl, rfl, rfl, rfl, rfl, rfl, rfl⟩⟩

theorem State.complete_completes (s : State) : s.Completes s.complete := ⟨rfl, rfl⟩

/-- The error codes are 1 to 6, one each (60_exceptions.md R300). -/
theorem CmdError.code_bounds (e : CmdError) : 1 ≤ e.code.toNat ∧ e.code.toNat ≤ 6 := by cases e <;> decide

theorem CmdError.code_injective : Function.Injective CmdError.code := by
  intro a b h
  cases a <;> cases b <;> first | rfl | exact absurd h (by decide)

/-! ### The slot checks -/

theorem State.onSlot_of_some {c : Nat} {k : Slot} {f : Slot → Result} (h : s.slot? c = some k) :
    s.onSlot c f = f k := by
  rw [State.onSlot, h]

theorem State.onSlot_of_none {c : Nat} {f : Slot → Result} (h : s.slot? c = none) :
    s.onSlot c f = .next (s.raise .badCtx (BitVec.ofNat 32 c)) := by
  rw [State.onSlot, h]

/-- What the check that slot c exists can do (60_exceptions.md R301, check 3). -/
theorem State.onSlot_next {c : Nat} {f : Slot → Result} (h : s.onSlot c f = .next t) :
    (s.slot? c = none ∧ t = s.raise .badCtx (BitVec.ofNat 32 c)) ∨ ∃ k, s.slot? c = some k ∧ f k = .next t := by
  cases hs : s.slot? c with
  | none => rw [State.onSlot_of_none hs] at h; cases h; exact .inl ⟨rfl, rfl⟩
  | some k => rw [State.onSlot_of_some hs] at h; exact .inr ⟨k, rfl, h⟩

theorem State.onValidSlot_of_some {c : Nat} {k : Slot} {f : Slot → Result} (h : s.slot? c = some k)
    (hv : k.valid = true) : s.onValidSlot c f = f k := by
  rw [State.onValidSlot, State.validSlot?_eq_some.2 ⟨h, hv⟩]

theorem State.onValidSlot_of_none {c : Nat} {f : Slot → Result} (h : ∀ k, s.slot? c = some k → k.valid = false) :
    s.onValidSlot c f = .next (s.raise .badCtx (BitVec.ofNat 32 c)) := by
  rw [State.onValidSlot, State.validSlot?_eq_none.2 h]

/-- What the check that slot c exists and is valid can do (60_exceptions.md R301, checks 3 and 4). -/
theorem State.onValidSlot_next {c : Nat} {f : Slot → Result} (h : s.onValidSlot c f = .next t) :
    ((∀ k, s.slot? c = some k → k.valid = false) ∧ t = s.raise .badCtx (BitVec.ofNat 32 c))
      ∨ ∃ k, s.slot? c = some k ∧ k.valid = true ∧ f k = .next t := by
  cases hs : s.validSlot? c with
  | none =>
    have hn := State.validSlot?_eq_none.1 hs
    rw [State.onValidSlot_of_none hn] at h
    cases h
    exact .inl ⟨hn, rfl⟩
  | some k =>
    obtain ⟨h1, h2⟩ := State.validSlot?_eq_some.1 hs
    rw [State.onValidSlot_of_some h1 h2] at h
    exact .inr ⟨k, h1, h2, h⟩

end Sys2Proof.Machine
end

