-- ==== Sys2Proof/Laws/Slots.lean ====
section
/-! SUPPORT. What each function of a slot changes and keeps: the fields of a slot whose keys are derived, the parts no index
operation touches, and that construction, key derivation and the index operations keep the slot invariants
(10_state.md R34). -/

namespace Sys2Proof.Machine

section DeriveKeys

variable (k : Slot) (i : BitVec 48)

/-! ### DeriveKeys, field by field (43_key_derivation.md R204) -/

@[simp] theorem Slot.deriveKeys_valid : (k.deriveKeys i).valid = k.valid := by
  simp only [Slot.deriveKeys]
@[simp] theorem Slot.deriveKeys_kind : (k.deriveKeys i).kind = k.kind := by
  simp only [Slot.deriveKeys]
@[simp] theorem Slot.deriveKeys_ssrc : (k.deriveKeys i).ssrc = k.ssrc := by
  simp only [Slot.deriveKeys]
@[simp] theorem Slot.deriveKeys_encAlgo : (k.deriveKeys i).encAlgo = k.encAlgo := by
  simp only [Slot.deriveKeys]
@[simp] theorem Slot.deriveKeys_encDis : (k.deriveKeys i).encDis = k.encDis := by
  simp only [Slot.deriveKeys]
@[simp] theorem Slot.deriveKeys_authAlgo : (k.deriveKeys i).authAlgo = k.authAlgo := by
  simp only [Slot.deriveKeys]
@[simp] theorem Slot.deriveKeys_authDis : (k.deriveKeys i).authDis = k.authDis := by
  simp only [Slot.deriveKeys]
@[simp] theorem Slot.deriveKeys_mkLen : (k.deriveKeys i).mkLen = k.mkLen := by
  simp only [Slot.deriveKeys]
@[simp] theorem Slot.deriveKeys_masterKey : (k.deriveKeys i).masterKey = k.masterKey := by
  simp only [Slot.deriveKeys]
@[simp] theorem Slot.deriveKeys_msLen : (k.deriveKeys i).msLen = k.msLen := by
  simp only [Slot.deriveKeys]
@[simp] theorem Slot.deriveKeys_masterSalt : (k.deriveKeys i).masterSalt = k.masterSalt := by
  simp only [Slot.deriveKeys]
@[simp] theorem Slot.deriveKeys_nE : (k.deriveKeys i).nE = k.nE := by
  simp only [Slot.deriveKeys]
@[simp] theorem Slot.deriveKeys_nA : (k.deriveKeys i).nA = k.nA := by
  simp only [Slot.deriveKeys]
@[simp] theorem Slot.deriveKeys_nS : (k.deriveKeys i).nS = k.nS := by
  simp only [Slot.deriveKeys]
@[simp] theorem Slot.deriveKeys_tagLen : (k.deriveKeys i).tagLen = k.tagLen := by
  simp only [Slot.deriveKeys]
@[simp] theorem Slot.deriveKeys_mkiLen : (k.deriveKeys i).mkiLen = k.mkiLen := by
  simp only [Slot.deriveKeys]
@[simp] theorem Slot.deriveKeys_mki : (k.deriveKeys i).mki = k.mki := by
  simp only [Slot.deriveKeys]
@[simp] theorem Slot.deriveKeys_kdr : (k.deriveKeys i).kdr = k.kdr := by
  simp only [Slot.deriveKeys]
@[simp] theorem Slot.deriveKeys_kE : (k.deriveKeys i).kE =
    padTo 32 (kdf (kdfLabel k.kind) (rOfIndex k.kdr i) k.masterKeyBytes k.masterSaltBytes k.nE.toNat) := by
  simp only [Slot.deriveKeys]
@[simp] theorem Slot.deriveKeys_kA : (k.deriveKeys i).kA =
    padTo Config.maxAuthKeyBytes
        (kdf (kdfLabel k.kind + 1) (rOfIndex k.kdr i) k.masterKeyBytes k.masterSaltBytes k.nA.toNat) := by
  simp only [Slot.deriveKeys]
@[simp] theorem Slot.deriveKeys_kS : (k.deriveKeys i).kS =
    padTo 14 (kdf (kdfLabel k.kind + 2) (rOfIndex k.kdr i) k.masterKeyBytes k.masterSaltBytes k.nS.toNat) := by
  simp only [Slot.deriveKeys]
@[simp] theorem Slot.deriveKeys_keysValid : (k.deriveKeys i).keysValid = true := by
  simp only [Slot.deriveKeys]
@[simp] theorem Slot.deriveKeys_lastR : (k.deriveKeys i).lastR = rOfIndex k.kdr i := by
  simp only [Slot.deriveKeys]
@[simp] theorem Slot.deriveKeys_roc : (k.deriveKeys i).roc = k.roc := by
  simp only [Slot.deriveKeys]
@[simp] theorem Slot.deriveKeys_guessedRoc : (k.deriveKeys i).guessedRoc = k.guessedRoc := by
  simp only [Slot.deriveKeys]
@[simp] theorem Slot.deriveKeys_sL : (k.deriveKeys i).sL = k.sL := by
  simp only [Slot.deriveKeys]
@[simp] theorem Slot.deriveKeys_seqSet : (k.deriveKeys i).seqSet = k.seqSet := by
  simp only [Slot.deriveKeys]
@[simp] theorem Slot.deriveKeys_replayMask : (k.deriveKeys i).replayMask = k.replayMask := by
  simp only [Slot.deriveKeys]

end DeriveKeys

/-! ### Parts of a slot that stay -/

theorem Slot.SameConfig.refl (k : Slot) : k.SameConfig k := by constructor <;> rfl

theorem Slot.SameKeys.refl (k : Slot) : k.SameKeys k := by constructor <;> rfl

theorem Slot.SameIndex.refl (k : Slot) : k.SameIndex k := by constructor <;> rfl

theorem Slot.deriveKeys_sameConfig (k : Slot) (i : BitVec 48) : k.SameConfig (k.deriveKeys i) := by
  constructor <;> simp only [Slot.deriveKeys]

theorem Slot.deriveKeys_sameIndex (k : Slot) (i : BitVec 48) : k.SameIndex (k.deriveKeys i) := by
  constructor <;> simp only [Slot.deriveKeys]

/-- r as a number (43_key_derivation.md R201). -/
theorem rOfIndex_toNat (k : Slot) (i : BitVec 48) : (rOfIndex k.kdr i).toNat = k.rNat i.toNat := by
  unfold rOfIndex Slot.rNat
  split
  · rfl
  · rw [BitVec.toNat_ofNat, Nat.mod_eq_of_lt (Nat.lt_of_le_of_lt (Nat.div_le_self _ _) i.isLt)]

/-- NeedRekey, on numbers (43_key_derivation.md R206). -/
theorem Slot.needRekey_iff (k : Slot) (i : BitVec 48) : k.needRekey i = true ↔
    k.keysValid = true ∧ k.kdr ≠ 0 ∧ i.toNat / k.kdr.toNat ≠ k.lastR.toNat := by
  simp only [Slot.needRekey, Bool.and_eq_true, bne_iff_ne, ne_eq, ← BitVec.toNat_inj (x := rOfIndex _ _),
    rOfIndex_toNat, Slot.rNat, and_assoc]
  refine and_congr_right fun _ => and_congr_right fun h => ?_
  rw [if_neg h]

/-- DeriveKeys is what 43_key_derivation.md R204 writes. -/
theorem Slot.deriveKeys_derivedAt (k : Slot) (i : BitVec 48) : k.DerivedAt (k.deriveKeys i) i.toNat := by
  have hr := rOfIndex_toNat k i
  have hk (l n : Nat) : k.kdfBytes l (k.rNat i.toNat) n = kdf l (rOfIndex k.kdr i) k.masterKeyBytes k.masterSaltBytes n := by
    unfold Slot.kdfBytes kdf kdfIv; rw [hr]; rfl
  constructor
  · simp only [Slot.deriveKeys, ← hr, BitVec.ofNat_toNat, BitVec.setWidth_eq]
  · intro j h
    rw [hk, Slot.deriveKeys_kE, padTo_getElem]
    cases k.kind <;> rfl
  · intro j h
    rw [hk, Slot.deriveKeys_kA, padTo_getElem]
    cases k.kind <;> rfl
  · intro j h
    rw [hk, Slot.deriveKeys_kS, padTo_getElem]
    cases k.kind <;> rfl
/-- ENCRYPT's slot is the slot, or the slot with its keys derived again (45_packet_ops.md R250). -/
theorem Slot.rekeyed_cases (k : Slot) (i : BitVec 48) :
    (k.needRekey i = true ∧ k.rekeyed i = k.deriveKeys i) ∨ (k.needRekey i = false ∧ k.rekeyed i = k) := by
  unfold Slot.rekeyed
  cases h : k.needRekey i <;> simp

theorem Slot.rekeyed_sameConfig (k : Slot) (i : BitVec 48) : k.SameConfig (k.rekeyed i) := by
  obtain ⟨-, h⟩ | ⟨-, h⟩ := k.rekeyed_cases i <;> rw [h]
  exacts [k.deriveKeys_sameConfig i, .refl k]

theorem Slot.rekeyed_sameIndex (k : Slot) (i : BitVec 48) : k.SameIndex (k.rekeyed i) := by
  obtain ⟨-, h⟩ | ⟨-, h⟩ := k.rekeyed_cases i <;> rw [h]
  exacts [k.deriveKeys_sameIndex i, .refl k]

/-- A rekey happens only in a slot with session keys, so it changes none of whether there are keys. -/
theorem Slot.rekeyed_keysValid (k : Slot) (i : BitVec 48) : (k.rekeyed i).keysValid = k.keysValid := by
  obtain ⟨hn, h⟩ | ⟨-, h⟩ := k.rekeyed_cases i <;> rw [h]
  simp only [Slot.needRekey, Bool.and_eq_true] at hn
  simp [hn.1.1]

/-- After a rekey at an index there is nothing left to derive at that index. -/
theorem Slot.rekeyed_needRekey (k : Slot) (i : BitVec 48) : (k.rekeyed i).needRekey i = false := by
  obtain ⟨-, h⟩ | ⟨hn, h⟩ := k.rekeyed_cases i <;> rw [h]
  · simp [Slot.needRekey]
  · exact hn

/-- Rekeying is idempotent at one index. -/
theorem Slot.rekeyed_rekeyed (k : Slot) (i : BitVec 48) : (k.rekeyed i).rekeyed i = k.rekeyed i := by
  obtain ⟨hn, -⟩ | ⟨-, h⟩ := (k.rekeyed i).rekeyed_cases i
  · rw [k.rekeyed_needRekey i] at hn; cases hn
  · exact h

/-- The index operations write only sL, seqSet, roc, guessedRoc and replayMask (10_state.md R31). -/
structure Slot.IndexOnly (k l : Slot) : Prop where
  config : k.SameConfig l
  keys : k.SameKeys l

theorem Slot.IndexOnly.refl (k : Slot) : k.IndexOnly k := ⟨.refl k, .refl k⟩

theorem Slot.setGuessed_indexOnly (k : Slot) (v : Word) : k.IndexOnly { k with guessedRoc := v } := by
  constructor <;> constructor <;> rfl

theorem Slot.firstPacket_indexOnly (p : Config.RocPolicy) (k : Slot) (x : Word) : k.IndexOnly (k.firstPacket p x) := by
  unfold Slot.firstPacket
  split <;> constructor <;> constructor <;> rfl

theorem Slot.recordGuess_indexOnly (k : Slot) (x : Word) : k.IndexOnly (k.recordGuess x) := by
  unfold Slot.recordGuess
  split <;> constructor <;> constructor <;> rfl

theorem Slot.IndexOnly.trans {k l m : Slot} (h : k.IndexOnly l) (g : l.IndexOnly m) : k.IndexOnly m := by
  obtain ⟨⟨⟩, ⟨⟩⟩ := h
  obtain ⟨⟨⟩, ⟨⟩⟩ := g
  constructor <;> constructor <;> simp [*]

theorem Slot.commit_indexOnly (k : Slot) (x : Word) : k.IndexOnly (k.commit x) := by
  refine (k.recordGuess_indexOnly x).trans ?_
  unfold Slot.commit
  simp only
  split
  · constructor <;> constructor <;> rfl
  · split
    · constructor <;> constructor <;> rfl
    · exact .refl _

theorem Slot.update_indexOnly (p : Config.RocPolicy) (k : Slot) (x : Word) : k.IndexOnly (k.update p x) := by
  unfold Slot.update
  split
  · exact k.commit_indexOnly x
  · exact (k.firstPacket_indexOnly p x).trans (Slot.commit_indexOnly _ x)

theorem Slot.check_indexOnly (p : Config.RocPolicy) (k : Slot) (x : Word) : k.IndexOnly (k.check p x).2 := by
  unfold Slot.check
  split
  · exact .refl k
  · split
    · exact k.firstPacket_indexOnly p x
    · exact k.recordGuess_indexOnly x

theorem Slot.guess_indexOnly (p : Config.RocPolicy) (k : Slot) (x : Word) : k.IndexOnly (k.guess p x).2 := by
  by_cases h : k.seqSet = true
  · rw [Slot.guess, if_pos h]
    exact k.setGuessed_indexOnly _
  · rw [Slot.guess, if_neg h]
    exact k.firstPacket_indexOnly p x

/-! ### The slot invariants -/

theorem Slot.reset_sL_le : Slot.reset.kind = .srtp → Slot.reset.sL.toNat ≤ 65535 := by simp [Slot.reset]

theorem Slot.reset_ok : Slot.reset.Ok where
  mkLen_le := by simp [Slot.reset]
  msLen_le := by simp [Slot.reset]
  nE_le := by simp [Slot.reset]
  nA_le := by simp [Slot.reset]
  nS_le := by simp [Slot.reset]
  mkiLen_le := by simp [Slot.reset]
  masterKey_zero := zeroFrom_replicate _ _
  masterSalt_zero := zeroFrom_replicate _ _
  mki_zero := zeroFrom_replicate _ _
  kE_zero := zeroFrom_replicate _ _
  kA_zero := zeroFrom_replicate _ _
  kS_zero := zeroFrom_replicate _ _
  enc_usable := by simp [Slot.reset]
  f8_usable := by simp [Slot.reset]
  auth_usable := by simp [Slot.reset]
  sha1_tag := by simp [Slot.reset]
  skein_tag := by simp [Slot.reset]
  srtp_seq := Slot.reset_sL_le
  srtcp_roc := by simp [Slot.reset]
  keys_usable := by simp [Slot.reset]
  keys_absent := fun _ => ⟨zeroFrom_replicate _ _, zeroFrom_replicate _ _, zeroFrom_replicate _ _, rfl⟩
  unstarted := by simp [Slot.reset]
  invalid_reset := fun _ => rfl

theorem kdf_length (l : Nat) (r : BitVec 48) (mk ms : Bytes) (n : Nat) : (kdf l r mk ms n).length ≤ n := by
  simp [kdf, cmKeystream]

/-- DeriveKeys keeps the slot invariants where the master key is usable (43_key_derivation.md R204). -/
theorem Slot.deriveKeys_ok {k : Slot} (h : k.Ok) (hk : k.kdfOk = true) (hv : k.valid = true) (i : BitVec 48) :
    (k.deriveKeys i).Ok where
  mkLen_le := by simpa using h.mkLen_le
  msLen_le := by simpa using h.msLen_le
  nE_le := by simpa using h.nE_le
  nA_le := by simpa using h.nA_le
  nS_le := by simpa using h.nS_le
  mkiLen_le := by simpa using h.mkiLen_le
  masterKey_zero := by simpa using h.masterKey_zero
  masterSalt_zero := by simpa using h.masterSalt_zero
  mki_zero := by simpa using h.mki_zero
  kE_zero := by simpa using padTo_zeroFrom _ _ _ (kdf_length _ _ _ _ _)
  kA_zero := by simpa using padTo_zeroFrom _ _ _ (kdf_length _ _ _ _ _)
  kS_zero := by simpa using padTo_zeroFrom _ _ _ (kdf_length _ _ _ _ _)
  enc_usable := by simpa [Slot.kdfOk] using h.enc_usable
  f8_usable := by simpa using h.f8_usable
  auth_usable := by simpa [Slot.kdfOk] using h.auth_usable
  sha1_tag := by simpa using h.sha1_tag
  skein_tag := by simpa using h.skein_tag
  srtp_seq := by simpa using h.srtp_seq
  srtcp_roc := by simpa using h.srtcp_roc
  keys_usable := by simpa [Slot.kdfOk] using hk
  keys_absent := by simp
  unstarted := by simpa using h.unstarted
  invalid_reset := by simp [hv]

theorem Slot.rekeyed_ok {k : Slot} (h : k.Ok) (hv : k.valid = true) (i : BitVec 48) : (k.rekeyed i).Ok := by
  obtain ⟨hn, hr⟩ | ⟨-, hr⟩ := k.rekeyed_cases i <;> rw [hr]
  · simp only [Slot.needRekey, Bool.and_eq_true] at hn
    exact Slot.deriveKeys_ok h (h.keys_usable hn.1.1) hv i
  · exact h

/-- A slot that differs from one with the invariants only in its index state has them, where the index state is legal
(10_state.md R34 (e), (f)). -/
theorem Slot.IndexOnly.ok {k l : Slot} (hi : k.IndexOnly l) (h : k.Ok) (hv : k.valid = true)
    (hs : l.kind = .srtp → l.sL.toNat ≤ 65535) (hr : l.kind = .srtcp → l.roc = 0 ∧ l.guessedRoc = 0)
    (hu : l.seqSet = false → l.sL = 0 ∧ l.replayMask = 0) : l.Ok := by
  obtain ⟨⟨c1, c2, c3, c4, c5, c6, c7, c8, c9, c10, c11, c12, c13, c14, c15, c16, c17, c18⟩, ⟨d1, d2, d3, d4, d5⟩⟩ := hi
  constructor
  all_goals try simp only [Slot.kdfOk, c1, c4, c6, c8, c9, c10, c11, c12, c13, c14, c15, c16, c17, d1, d2, d3, d4, d5]
  · exact h.mkLen_le
  · exact h.msLen_le
  · exact h.nE_le
  · exact h.nA_le
  · exact h.nS_le
  · exact h.mkiLen_le
  · exact h.masterKey_zero
  · exact h.masterSalt_zero
  · exact h.mki_zero
  · exact h.kE_zero
  · exact h.kA_zero
  · exact h.kS_zero
  · exact h.enc_usable
  · exact h.f8_usable
  · exact h.auth_usable
  · exact h.sha1_tag
  · exact h.skein_tag
  · exact hs
  · exact hr
  · exact h.keys_usable
  · exact h.keys_absent
  · exact hu
  · simp [hv]

/-! ### Construction keeps the slot invariants (46_context_mgmt.md R271 to R273) -/

theorem ParamHead.overCapacity_none {q : ParamHead} (h : q.overCapacity = none) :
    q.kind.toNat ≤ 1 ∧ q.mkLen.toNat ≤ 32 ∧ q.msLen.toNat ≤ 14 ∧ q.nE.toNat ≤ 32
      ∧ q.nA.toNat ≤ Config.maxAuthKeyBytes ∧ q.nS.toNat ≤ 14 ∧ q.mkiLen.toNat ≤ Config.maxMkiBytes := by
  unfold ParamHead.overCapacity at h
  repeat' split at h
  all_goals first | (cases h; done) | omega

/-- A key length of 16 or 32 bytes, as a number. -/
theorem beq_16_or_32 (b : Byte) : (b == 16 || b == 32) = true ↔ b.toNat = 16 ∨ b.toNat = 32 := by
  simp only [Bool.or_eq_true, beq_iff_eq, ← BitVec.toNat_inj]
  rfl

/-- Configure gives no algorithm that could not run (46_context_mgmt.md R271). -/
theorem ParamHead.effectiveEnc_ne_null {q : ParamHead} (h : q.effectiveEnc ≠ .null) :
    q.kdfOk = true ∧ (q.nE.toNat = 16 ∨ q.nE.toNat = 32) := by
  unfold ParamHead.effectiveEnc ParamHead.encOk at h
  rw [← beq_16_or_32]
  cases hb : EncAlgo.ofByte q.encAlgo with
  | none => simp [hb] at h
  | some a => cases a <;> simp [hb] at h ⊢ <;> tauto

theorem ParamHead.effectiveEnc_f8 {q : ParamHead} (h : q.effectiveEnc = .aesF8) : q.nS.toNat ≤ q.nE.toNat := by
  unfold ParamHead.effectiveEnc ParamHead.encOk at h
  cases hb : EncAlgo.ofByte q.encAlgo with
  | none => simp [hb] at h
  | some a =>
    cases a <;> simp [hb] at h ⊢
    · split at h <;> cases h
    · exact h.2.2

theorem ParamHead.effectiveAuth_ne_null {b : Bool} {n : Nat} {q : ParamHead} (h : q.effectiveAuth b n ≠ .null) :
    q.kdfOk = true := by
  unfold ParamHead.effectiveAuth ParamHead.authOk at h
  cases hb : AuthAlgo.ofByte q.authAlgo with
  | none => simp [hb] at h
  | some a => cases a <;> simp [hb] at h ⊢ <;> tauto

theorem ParamHead.effectiveAuth_sha1 {b : Bool} {n : Nat} {q : ParamHead} (h : q.effectiveAuth b n = .hmacSha1) :
    q.tagLen.toNat ≤ Config.hmacSha1Bytes := by
  unfold ParamHead.effectiveAuth ParamHead.authOk at h
  cases hb : AuthAlgo.ofByte q.authAlgo with
  | none => simp [hb] at h
  | some a =>
    cases a <;> simp [hb] at h ⊢
    · exact h.2
    · split at h <;> cases h

theorem ParamHead.effectiveAuth_skein {b : Bool} {n : Nat} {q : ParamHead} (h : q.effectiveAuth b n = .hmacSkein) :
    b = true ∧ q.tagLen.toNat ≤ n := by
  unfold ParamHead.effectiveAuth ParamHead.authOk at h
  cases hb : AuthAlgo.ofByte q.authAlgo with
  | none => simp [hb] at h
  | some a =>
    cases a <;> simp [hb] at h ⊢
    · split at h <;> cases h
    · exact ⟨h.1, h.2.2⟩

/-- CTX_NEW's slot meets the slot invariants, from a block within its capacities (46_context_mgmt.md R271, R272). -/
theorem newSlot_ok {q : ParamHead} (h : q.overCapacity = none) (ssrc : Word) (kdr : BitVec 64) {mk ms mki : Bytes}
    (h1 : mk.length = q.mkLen.toNat) (h2 : ms.length = q.msLen.toNat) (h3 : mki.length = q.mkiLen.toNat) :
    (newSlot Config.hasSkein Config.skeinMacBytes q ssrc kdr mk ms mki).Ok := by
  obtain ⟨-, hmk, hms, hne, hna, hns, hmki⟩ := ParamHead.overCapacity_none h
  exact {
    mkLen_le := hmk
    msLen_le := hms
    nE_le := hne
    nA_le := hna
    nS_le := hns
    mkiLen_le := hmki
    masterKey_zero := padTo_zeroFrom _ _ _ (Nat.le_of_eq h1)
    masterSalt_zero := padTo_zeroFrom _ _ _ (Nat.le_of_eq h2)
    mki_zero := padTo_zeroFrom _ _ _ (Nat.le_of_eq h3)
    kE_zero := zeroFrom_replicate _ _
    kA_zero := zeroFrom_replicate _ _
    kS_zero := zeroFrom_replicate _ _
    enc_usable := fun g => ParamHead.effectiveEnc_ne_null g
    f8_usable := fun g => ParamHead.effectiveEnc_f8 g
    auth_usable := fun g => ParamHead.effectiveAuth_ne_null g
    sha1_tag := fun g => ParamHead.effectiveAuth_sha1 g
    skein_tag := fun g => ParamHead.effectiveAuth_skein g
    srtp_seq := by simp [newSlot, Slot.reset]
    srtcp_roc := fun _ => ⟨rfl, rfl⟩
    keys_usable := by simp [newSlot, Slot.reset]
    keys_absent := fun _ => ⟨zeroFrom_replicate _ _, zeroFrom_replicate _ _, zeroFrom_replicate _ _, rfl⟩
    unstarted := fun _ => ⟨rfl, rfl⟩
    invalid_reset := by simp [newSlot] }

theorem cloneSlot_ok {u : Slot} (h : u.Ok) (ssrc roc : Word) (kdr : BitVec 64) : (cloneSlot u ssrc roc kdr).Ok where
  mkLen_le := h.mkLen_le
  msLen_le := h.msLen_le
  nE_le := h.nE_le
  nA_le := h.nA_le
  nS_le := h.nS_le
  mkiLen_le := h.mkiLen_le
  masterKey_zero := h.masterKey_zero
  masterSalt_zero := h.masterSalt_zero
  mki_zero := h.mki_zero
  kE_zero := zeroFrom_replicate _ _
  kA_zero := zeroFrom_replicate _ _
  kS_zero := zeroFrom_replicate _ _
  enc_usable := h.enc_usable
  f8_usable := h.f8_usable
  auth_usable := h.auth_usable
  sha1_tag := h.sha1_tag
  skein_tag := h.skein_tag
  srtp_seq := by simp [cloneSlot, Slot.reset]
  srtcp_roc := fun g => by
    have g : u.kind = .srtcp := g
    simp [cloneSlot, g]
  keys_usable := by simp [cloneSlot, Slot.reset]
  keys_absent := fun _ => ⟨zeroFrom_replicate _ _, zeroFrom_replicate _ _, zeroFrom_replicate _ _, rfl⟩
  unstarted := fun _ => ⟨rfl, rfl⟩
  invalid_reset := by simp [cloneSlot]

/-! ### The index operations keep the slot invariants (44_replay_index.md R221, R227 to R229) -/

theorem Slot.firstPacket_ok {k : Slot} (h : k.Ok) (hv : k.valid = true) (p : Config.RocPolicy) {x : Word}
    (hx : k.kind = .srtp → x.toNat ≤ 65535) : (k.firstPacket p x).Ok := by
  refine (k.firstPacket_indexOnly p x).ok h hv ?_ ?_ ?_ <;>
    unfold Slot.firstPacket <;> cases hk : k.kind <;> simp
  · exact hx hk
  · exact h.srtcp_roc hk

theorem Slot.recordGuess_ok {k : Slot} (h : k.Ok) (hv : k.valid = true) (x : Word) : (k.recordGuess x).Ok := by
  refine (k.recordGuess_indexOnly x).ok h hv ?_ ?_ ?_ <;>
    unfold Slot.recordGuess <;> cases hk : k.kind <;> simp [hk]
  · exact h.srtp_seq hk
  · exact h.srtcp_roc hk
  · exact h.unstarted
  · exact h.unstarted

theorem Slot.recordGuess_seqSet (k : Slot) (x : Word) : (k.recordGuess x).seqSet = k.seqSet := by
  unfold Slot.recordGuess; split <;> rfl

theorem Slot.commit_ok {k : Slot} (h : k.Ok) (hv : k.valid = true) (hs : k.seqSet = true) {x : Word}
    (hx : k.kind = .srtp → x.toNat ≤ 65535) : (k.commit x).Ok := by
  have hg := k.recordGuess_ok h hv x
  have hgi := k.recordGuess_indexOnly x
  have hgs : (k.recordGuess x).seqSet = true := by rw [k.recordGuess_seqSet x, hs]
  unfold Slot.commit
  simp only
  split
  · refine Slot.IndexOnly.ok (k := k.recordGuess x) (by constructor <;> constructor <;> rfl) hg
      (by rw [hgi.config.valid]; exact hv) ?_ ?_ ?_
    · rw [hgi.config.kind]; exact hx
    · intro hk
      have hk : k.kind = .srtcp := by rw [← hgi.config.kind]; exact hk
      have := hg.srtcp_roc (by rw [hgi.config.kind]; exact hk)
      refine ⟨?_, this.2⟩
      simp only [hk]
      exact (h.srtcp_roc hk).1
    · intro h; rw [hgs] at h; cases h
  · split
    · refine Slot.IndexOnly.ok (k := k.recordGuess x) (by constructor <;> constructor <;> rfl) hg
        (by rw [hgi.config.valid]; exact hv) hg.srtp_seq hg.srtcp_roc ?_
      intro h; rw [hgs] at h; cases h
    · exact hg

theorem Slot.firstPacket_seqSet (p : Config.RocPolicy) (k : Slot) (x : Word) : (k.firstPacket p x).seqSet = true := by
  unfold Slot.firstPacket; split <;> rfl

theorem Slot.update_ok {k : Slot} (h : k.Ok) (hv : k.valid = true) (p : Config.RocPolicy) {x : Word}
    (hx : k.kind = .srtp → x.toNat ≤ 65535) : (k.update p x).Ok := by
  unfold Slot.update
  split
  · exact Slot.commit_ok h hv ‹_› hx
  · have hf := k.firstPacket_indexOnly p x
    exact Slot.commit_ok (Slot.firstPacket_ok h hv p hx) (by rw [hf.config.valid]; exact hv)
      (k.firstPacket_seqSet p x) (by rw [hf.config.kind]; exact hx)

theorem Slot.check_ok {k : Slot} (h : k.Ok) (hv : k.valid = true) (p : Config.RocPolicy) {x : Word}
    (hx : k.kind = .srtp → x.toNat ≤ 65535) : (k.check p x).2.Ok := by
  unfold Slot.check
  split
  · exact h
  · split
    · exact Slot.firstPacket_ok h hv p hx
    · exact Slot.recordGuess_ok h hv x

theorem Slot.guess_ok {k : Slot} (h : k.Ok) (hv : k.valid = true) (hk : k.kind = .srtp) (p : Config.RocPolicy) {x : Word}
    (hx : x.toNat ≤ 65535) : (k.guess p x).2.Ok := by
  by_cases hs : k.seqSet = true
  · rw [Slot.guess, if_pos hs]
    refine (k.setGuessed_indexOnly _).ok h hv h.srtp_seq ?_ h.unstarted
    intro g
    have g : k.kind = .srtcp := g
    rw [hk] at g; cases g
  · rw [Slot.guess, if_neg hs]
    exact Slot.firstPacket_ok h hv p fun _ => hx

/-! ### Packet operands (30_encoding.md R107) -/

theorem State.seqOperand_le (s : State) : s.seqOperand.toNat ≤ 65535 := by
  unfold State.seqOperand
  simp
  omega

/-- In an SRTP slot the operand x is a 16-bit sequence number. -/
theorem State.xOperand_le {s : State} {kind : Kind} (h : kind = .srtp) : (s.xOperand kind).toNat ≤ 65535 := by
  rw [h]; exact s.seqOperand_le

end Sys2Proof.Machine
end

