-- ==== Sys2Proof/Laws/Commands.lean ====
section
/-! SUPPORT. What each command can do, said once: one inversion lemma a command (if it answers a next state, one of these
cases holds), which later proofs cite instead of unfolding the meaning; and from them one lemma over all commands. -/

namespace Sys2Proof.Machine

variable {s t : State} {c : Nat}

/-- The command ended with one of the four errors a command word's meaning can raise (60_exceptions.md R300). -/
def State.RaisedFrom (s t : State) : Prop :=
  ∃ e info, t = s.raise e info ∧ (e = .badCtx ∨ e = .badKind ∨ e = .bounds ∨ e = .badParam)

theorem State.raisedFrom_raise {e : CmdError} (info : Word)
    (h : e = .badCtx ∨ e = .badKind ∨ e = .bounds ∨ e = .badParam) : s.RaisedFrom (s.raise e info) :=
  ⟨e, info, rfl, h⟩

/-! ### Context management (46_context_mgmt.md) -/

theorem execNop_next (h : execNop c s = .next t) : t = s.complete := by
  cases h; rfl

/-- The reads of CTX_NEW behind the block's first ten bytes. -/
theorem State.loadParamRest_next {pb : Nat} {q : ParamHead} {k : Word → BitVec 64 → Bytes → Bytes → Bytes → Result}
    (h : s.loadParamRest pb q k = .next t) :
    ∃ ssrc kdr mk ms mki, k ssrc kdr mk ms mki = .next t ∧ mk.length = q.mkLen.toNat ∧ ms.length = q.msLen.toNat
      ∧ mki.length = q.mkiLen.toNat := by
  simp only [State.loadParamRest, State.load_next] at h
  obtain ⟨a, _, b, _, mk, hmk, ms, hms, mki, hmki, hk⟩ := h
  exact ⟨_, _, mk, ms, mki, hk, Memory.readBytes_length hmk, Memory.readBytes_length hms,
    Memory.readBytes_length hmki⟩

theorem execCtxNew_next (h : execCtxNew c s = .next t) :
    s.RaisedFrom t ∨ ∃ q ssrc kdr mk ms mki, c < Config.numCtx ∧ q.overCapacity = none
      ∧ mk.length = q.mkLen.toNat ∧ ms.length = q.msLen.toNat ∧ mki.length = q.mkiLen.toNat
      ∧ t = s.installSlot c (newSlot Config.hasSkein Config.skeinMacBytes q ssrc kdr mk ms mki) := by
  obtain ⟨-, rfl⟩ | ⟨k, hs, h⟩ := State.onSlot_next h
  · exact .inl (State.raisedFrom_raise _ (.inl rfl))
  · simp only at h
    split at h
    · cases h; exact .inl (State.raisedFrom_raise _ (by simp))
    · obtain ⟨head, -, h⟩ := State.load_next.1 h
      split at h
      · cases h; exact .inl (State.raisedFrom_raise _ (by simp))
      · obtain ⟨ssrc, kdr, mk, ms, mki, h, h1, h2, h3⟩ := State.loadParamRest_next h
        cases h
        exact .inr ⟨_, ssrc, kdr, mk, ms, mki, State.slot?_lt hs, ‹_›, h1, h2, h3, rfl⟩

theorem execCtxClone_next (h : execCtxClone c s = .next t) :
    s.RaisedFrom t ∨ ∃ u, c < Config.numCtx ∧ s.slot? s.larg[0].toNat = some u ∧ u.valid = true
      ∧ t = s.installSlot c (cloneSlot u s.larg[1] s.larg[2] s.kdrOperand) := by
  obtain ⟨-, rfl⟩ | ⟨k, hs, h⟩ := State.onSlot_next h
  · exact .inl (State.raisedFrom_raise _ (.inl rfl))
  · obtain ⟨-, rfl⟩ | ⟨u, hu, hv, h⟩ := State.onValidSlot_next h
    · exact .inl (State.raisedFrom_raise _ (.inl rfl))
    · cases h; exact .inr ⟨u, State.slot?_lt hs, hu, hv, rfl⟩

theorem execCtxDestroy_next (h : execCtxDestroy c s = .next t) :
    s.RaisedFrom t ∨ c < Config.numCtx ∧ t = (s.setSlot c Slot.reset).complete := by
  obtain ⟨-, rfl⟩ | ⟨k, hs, h⟩ := State.onSlot_next h
  · exact .inl (State.raisedFrom_raise _ (.inl rfl))
  · cases h; exact .inr ⟨State.slot?_lt hs, rfl⟩

theorem execCtxStatus_next (h : execCtxStatus c s = .next t) :
    s.RaisedFrom t ∨ ∃ k, s.slot? c = some k ∧ t = ({ s with res := k.statusWords } : State).complete := by
  obtain ⟨-, rfl⟩ | ⟨k, hs, h⟩ := State.onSlot_next h
  · exact .inl (State.raisedFrom_raise _ (.inl rfl))
  · cases h; exact .inr ⟨k, hs, rfl⟩

/-! ### Key derivation (43_key_derivation.md) -/

theorem execDerive_next (h : execDerive c s = .next t) :
    s.RaisedFrom t ∨ ∃ k, s.slot? c = some k ∧ k.valid = true
      ∧ ((k.kdfOk = true ∧ t = ((s.setSlot c (k.deriveKeys (s.deriveIndex k.kind))).setDeriveResult 1
            (rOfIndex k.kdr (s.deriveIndex k.kind))).complete)
          ∨ (k.kdfOk = false ∧ t = (s.setDeriveResult 0 0).complete)) := by
  obtain ⟨-, rfl⟩ | ⟨k, hs, hv, h⟩ := State.onValidSlot_next h
  · exact .inl (State.raisedFrom_raise _ (.inl rfl))
  · simp only at h
    split at h <;> cases h
    · exact .inr ⟨k, hs, hv, .inl ⟨‹_›, rfl⟩⟩
    · exact .inr ⟨k, hs, hv, .inr ⟨by simpa using ‹¬ k.kdfOk = true›, rfl⟩⟩

/-! ### Index and replay (44_replay_index.md) -/

theorem execGuess_next (h : execGuess c s = .next t) :
    s.RaisedFrom t ∨ ∃ k, s.slot? c = some k ∧ k.valid = true ∧ k.kind = .srtp
      ∧ t = (((s.setSlot c (k.guess Config.firstRocPolicy s.seqOperand).2).setRes 0
          (hi16 (k.guess Config.firstRocPolicy s.seqOperand).1)).setRes 1
          (lo32 (k.guess Config.firstRocPolicy s.seqOperand).1)).complete := by
  obtain ⟨-, rfl⟩ | ⟨k, hs, hv, h⟩ := State.onValidSlot_next h
  · exact .inl (State.raisedFrom_raise _ (.inl rfl))
  · split at h <;> cases h
    · exact .inl (State.raisedFrom_raise _ (by simp))
    · exact .inr ⟨k, hs, hv, ‹_›, rfl⟩

theorem execCheck_next (h : execCheck c s = .next t) :
    s.RaisedFrom t ∨ ∃ k, s.slot? c = some k ∧ k.valid = true
      ∧ t = (((s.setSlot c (k.check Config.firstRocPolicy (s.xOperand k.kind)).2).setAccept
          (k.check Config.firstRocPolicy (s.xOperand k.kind)).1).setRes 0
          (flagAt (k.check Config.firstRocPolicy (s.xOperand k.kind)).1 0)).complete := by
  obtain ⟨-, rfl⟩ | ⟨k, hs, hv, h⟩ := State.onValidSlot_next h
  · exact .inl (State.raisedFrom_raise _ (.inl rfl))
  · cases h; exact .inr ⟨k, hs, hv, rfl⟩

theorem execUpdate_next (h : execUpdate c s = .next t) :
    s.RaisedFrom t ∨ ∃ k, s.slot? c = some k ∧ k.valid = true
      ∧ t = (s.setSlot c (k.update Config.firstRocPolicy (s.xOperand k.kind))).complete := by
  obtain ⟨-, rfl⟩ | ⟨k, hs, hv, h⟩ := State.onValidSlot_next h
  · exact .inl (State.raisedFrom_raise _ (.inl rfl))
  · cases h; exact .inr ⟨k, hs, hv, rfl⟩

/-! ### Packet operations (45_packet_ops.md) -/

/-- The keystream ENCRYPT XORs n payload bytes with, from the packet's header bytes, SSRC and index; for a Null
algorithm it is zeros (41_cipher_modes.md R161, R164, R172). -/
def Slot.stream (k : Slot) (hdr : Bytes) (ssrc : Word) (i : BitVec 48) (n : Nat) : Bytes :=
  match k.encAlgo with
  | .null => zeros n
  | .aesCm => cmKeystream k.cipherKey (k.cmIv ssrc i) n
  | .aesF8 => f8Keystream k.cipherKey k.sessionSalt (k.f8Iv hdr i) n

/-- The keystream step goes on with the payload XORed with the keystream; it reads the header for AES-F8 alone. -/
theorem State.cipherPayload_of_holds {k : Slot} {p h l : Nat} {ssrc : Word} {i : BitVec 48} {cont : Bytes → Result}
    {d hdr : Bytes} (hl : d.length = l) (hd : s.buf.holds (p + h) d)
    (hh : k.encAlgo = .aesF8 → hdr.length = f8HeaderBytes k.kind ∧ s.buf.holds p hdr) :
    s.cipherPayload k p h l ssrc i cont = cont (xorBytes d (k.stream hdr ssrc i l)) := by
  rw [State.cipherPayload, State.load_of_holds hl hd]
  cases ha : k.encAlgo <;> simp only [Slot.stream, ha]
  · rw [← hl, xorBytes_zeros]
  · rw [cmApply, hl]
  · rw [State.load_of_holds (hh ha).1 (hh ha).2, f8Apply, hl]

/-- What the keystream step can do where it answers a next state. -/
theorem State.cipherPayload_next {k : Slot} {p h l : Nat} {ssrc : Word} {i : BitVec 48} {cont : Bytes → Result}
    (hn : s.cipherPayload k p h l ssrc i cont = .next t) :
    ∃ d hdr, d.length = l ∧ s.buf.holds (p + h) d
      ∧ (k.encAlgo = .aesF8 → hdr.length = f8HeaderBytes k.kind ∧ s.buf.holds p hdr)
      ∧ cont (xorBytes d (k.stream hdr ssrc i l)) = .next t := by
  obtain ⟨d, hd, -⟩ := State.load_next.1 hn
  obtain ⟨hl, hd⟩ := (Memory.readBytes_eq_ok _ _ _ _).1 hd
  have hhdr : ∃ hdr : Bytes, k.encAlgo = .aesF8 → hdr.length = f8HeaderBytes k.kind ∧ s.buf.holds p hdr := by
    by_cases ha : k.encAlgo = .aesF8
    · have hn' := hn
      rw [State.cipherPayload, State.load_of_holds hl hd] at hn'
      simp only [ha] at hn'
      obtain ⟨hdr, hr, -⟩ := State.load_next.1 hn'
      exact ⟨hdr, fun _ => (Memory.readBytes_eq_ok _ _ _ _).1 hr⟩
    · exact ⟨[], fun h => absurd h ha⟩
  obtain ⟨hdr, hh⟩ := hhdr
  rw [State.cipherPayload_of_holds hl hd hh] at hn
  exact ⟨d, hdr, hl, hd, hh, hn⟩

/-- ENCRYPT past its checks: what it leaves where it applies a keystream to the payload d, and where it applies none
(45_packet_ops.md R250). -/
def State.encrypted (s : State) (c : Nat) (k : Slot) (d hdr : Bytes) : State :=
  let i := s.encryptIndex k.kind
  let k' := k.rekeyed i
  let u := s.setSlot c k'
  if k'.encrypts then
    ((u.store (s.larg[0].toNat + s.larg[1].toNat) (xorBytes d (k'.stream hdr s.larg[5] i s.larg[2].toNat))).setRes 0
      (encryptResult true (k.needRekey i))).complete
  else (u.setRes 0 (encryptResult false (k.needRekey i))).complete

/-- ENCRYPT on a valid slot, past its checks, with its operand bytes written. -/
theorem execEncrypt_of_holds {k : Slot} {d hdr : Bytes} (hs : s.slot? c = some k) (hv : k.valid = true)
    (hb : s.larg[0].toNat + (s.larg[1].toNat + s.larg[2].toNat) ≤ Config.bufBytes)
    (hf : k.encAlgo = .aesF8 → f8HeaderBytes k.kind ≤ s.larg[1].toNat)
    (hd : (k.rekeyed (s.encryptIndex k.kind)).encrypts = true →
      d.length = s.larg[2].toNat ∧ s.buf.holds (s.larg[0].toNat + s.larg[1].toNat) d
        ∧ (k.encAlgo = .aesF8 → hdr.length = f8HeaderBytes k.kind ∧ s.buf.holds s.larg[0].toNat hdr)) :
    execEncrypt c s = .next (s.encrypted c k d hdr) := by
  have hk := k.rekeyed_sameConfig
  rw [execEncrypt, State.onValidSlot_of_some hs hv]
  simp only
  rw [if_neg (by simpa using (fits_iff _ _).2 hb), if_neg (by
    by_cases ha : k.encAlgo = .aesF8
    · simpa [ha] using hf ha
    · simp [ha])]
  unfold State.encrypted
  simp only
  split
  · obtain ⟨h1, h2, h3⟩ := hd ‹_›
    rw [State.cipherPayload_of_holds h1 h2 (by rw [(hk _).encAlgo, (hk _).kind]; exact h3)]
  · rfl

theorem execEncrypt_next (h : execEncrypt c s = .next t) :
    s.RaisedFrom t ∨ ∃ k d hdr, s.slot? c = some k ∧ k.valid = true
      ∧ s.larg[0].toNat + (s.larg[1].toNat + s.larg[2].toNat) ≤ Config.bufBytes
      ∧ (k.encAlgo = .aesF8 → f8HeaderBytes k.kind ≤ s.larg[1].toNat)
      ∧ ((k.rekeyed (s.encryptIndex k.kind)).encrypts = true →
          d.length = s.larg[2].toNat ∧ s.buf.holds (s.larg[0].toNat + s.larg[1].toNat) d
            ∧ (k.encAlgo = .aesF8 → hdr.length = f8HeaderBytes k.kind ∧ s.buf.holds s.larg[0].toNat hdr))
      ∧ t = s.encrypted c k d hdr := by
  have hk := Slot.rekeyed_sameConfig
  have h0 := h
  obtain ⟨-, rfl⟩ | ⟨k, hs, hv, h⟩ := State.onValidSlot_next h
  · exact .inl (State.raisedFrom_raise _ (.inl rfl))
  · simp only at h
    split at h
    · cases h; exact .inl (State.raisedFrom_raise _ (by simp))
    · rename_i hb
      have hb := (fits_iff _ _).1 (by simpa using hb)
      split at h
      · cases h; exact .inl (State.raisedFrom_raise _ (by simp))
      · rename_i hf
        have hf : k.encAlgo = .aesF8 → f8HeaderBytes k.kind ≤ s.larg[1].toNat := by
          intro ha; simpa [ha] using hf
        have key : ∃ d hdr : Bytes, (k.rekeyed (s.encryptIndex k.kind)).encrypts = true →
            d.length = s.larg[2].toNat ∧ s.buf.holds (s.larg[0].toNat + s.larg[1].toNat) d
              ∧ (k.encAlgo = .aesF8 → hdr.length = f8HeaderBytes k.kind ∧ s.buf.holds s.larg[0].toNat hdr) := by
          split at h
          · obtain ⟨d, hdr, h1, h2, h3, -⟩ := State.cipherPayload_next h
            rw [(hk _ _).encAlgo, (hk _ _).kind] at h3
            exact ⟨d, hdr, fun _ => ⟨h1, h2, h3⟩⟩
          · exact ⟨[], [], fun h => absurd h ‹_›⟩
        obtain ⟨d, hdr, hd⟩ := key
        rw [execEncrypt_of_holds hs hv hb hf hd] at h0
        cases h0
        exact .inr ⟨k, d, hdr, hs, hv, hb, hf, hd, rfl⟩

theorem execAuth_next (h : execAuth c s = .next t) :
    s.RaisedFrom t ∨ ∃ k, s.slot? c = some k ∧ k.valid = true
      ∧ s.larg[0].toNat + s.larg[1].toNat ≤ Config.bufBytes
      ∧ ((k.authenticates = false ∧ t = (s.setRes 0 0).complete)
        ∨ ∃ region, k.authenticates = true ∧ s.larg[3].toNat + k.tagLen.toNat ≤ Config.bufBytes
          ∧ s.buf.readBytes s.larg[0].toNat s.larg[1].toNat = .ok region
          ∧ t = ((s.store s.larg[3].toNat (k.tag region s.larg[2])).setRes 0 (k.tagLen.setWidth 32)).complete) := by
  obtain ⟨-, rfl⟩ | ⟨k, hs, hv, h⟩ := State.onValidSlot_next h
  · exact .inl (State.raisedFrom_raise _ (.inl rfl))
  · simp only at h
    split at h
    · cases h; exact .inl (State.raisedFrom_raise _ (by simp))
    · rename_i hf
      have hf : s.larg[0].toNat + s.larg[1].toNat ≤ Config.bufBytes := (fits_iff _ _).1 (by simpa using hf)
      split at h
      · cases h; exact .inr ⟨k, hs, hv, hf, .inl ⟨by simpa using ‹(!k.authenticates) = true›, rfl⟩⟩
      · split at h
        · cases h; exact .inl (State.raisedFrom_raise _ (by simp))
        · obtain ⟨region, hr, h⟩ := State.load_next.1 h
          cases h
          refine .inr ⟨k, hs, hv, hf, .inr ⟨region, by simpa using ‹¬ (!k.authenticates) = true›, ?_, hr, rfl⟩⟩
          exact (fits_iff _ _).1 (by simpa using ‹¬ (!fits _ _) = true›)

end Sys2Proof.Machine
end

