-- ==== Sys2Proof/Laws/Encoding.lean ====
section
/-! SUPPORT. The command word as a number and as its three fields (30_encoding.md R100), for the encoder and for the
decoder. -/

namespace Sys2Proof

/-- Two halfwords side by side, as a number. -/
theorem append16_toNat (x y : BitVec 16) : (x ++ y : Word).toNat = x.toNat * 65536 + y.toNat := by
  refine (BitVec.toNat_append x y).trans ?_
  rw [← Nat.shiftLeft_add_eq_or_of_lt y.isLt, Nat.shiftLeft_eq]

/-- Two bytes side by side, as a number. -/
theorem append8_toNat (x y : BitVec 8) : (x ++ y : BitVec 16).toNat = x.toNat * 256 + y.toNat := by
  refine (BitVec.toNat_append x y).trans ?_
  rw [← Nat.shiftLeft_add_eq_or_of_lt y.isLt, Nat.shiftLeft_eq]

theorem opcodeField_toNat (w : Word) : (opcodeField w).toNat = w.toNat % 256 := by simp [opcodeField]

theorem ctxField_toNat (w : Word) : (ctxField w).toNat = w.toNat / 256 % 256 := by
  simp [ctxField, Nat.shiftRight_eq_div_pow]

theorem rsvdField_toNat (w : Word) : (rsvdField w).toNat = w.toNat / 65536 := by
  simp only [rsvdField, BitVec.extractLsb'_toNat, Nat.shiftRight_eq_div_pow]
  omega

theorem encode_toNat (i : Instr) : (encode i).toNat = i.ctx % 256 * 256 + i.opcode.toNat := by
  rw [encode, append16_toNat, append8_toNat]
  simp

theorem opcodeField_encode (i : Instr) : opcodeField (encode i) = i.opcode := by
  apply BitVec.eq_of_toNat_eq
  have := i.opcode.isLt
  rw [opcodeField_toNat, encode_toNat]
  omega

theorem ctxField_encode (i : Instr) : ctxField (encode i) = BitVec.ofNat 8 i.ctx := by
  apply BitVec.eq_of_toNat_eq
  have := i.opcode.isLt
  rw [ctxField_toNat, encode_toNat, BitVec.toNat_ofNat]
  omega

theorem rsvdField_encode (i : Instr) : rsvdField (encode i) = 0 := by
  apply BitVec.eq_of_toNat_eq
  have := i.opcode.isLt
  rw [rsvdField_toNat, encode_toNat, show (0 : BitVec 16).toNat = 0 from rfl]
  omega

/-- A word whose three fields are another's is that word. -/
theorem word_ext_fields {w v : Word} (ho : opcodeField w = opcodeField v) (hc : ctxField w = ctxField v)
    (hr : rsvdField w = rsvdField v) : w = v := by
  apply BitVec.eq_of_toNat_eq
  have h1 := congrArg BitVec.toNat ho
  have h2 := congrArg BitVec.toNat hc
  have h3 := congrArg BitVec.toNat hr
  rw [opcodeField_toNat, opcodeField_toNat] at h1
  rw [ctxField_toNat, ctxField_toNat] at h2
  rw [rsvdField_toNat, rsvdField_toNat] at h3
  omega

/-- What the opcode map selects has the opcode and the slot number it was looked up by (30_encoding.md R101). -/
theorem decodeOpcode_some {op : Byte} {c : Nat} {i : Instr} (h : decodeOpcode op c = some i) :
    i.opcode = op ∧ i.ctx = c := by
  unfold decodeOpcode at h
  repeat' split at h
  all_goals first | (cases h; exact ⟨by simp [Instr.opcode, *], rfl⟩) | cases h

/-- The opcode map's legal opcodes, as numbers (30_encoding.md R101). -/
theorem decodeOpcode_isSome (op : Byte) (c : Nat) :
    (decodeOpcode op c).isSome = true ↔
      op.toNat ∈ [0x00, 0x01, 0x02, 0x03, 0x04, 0x10, 0x20, 0x21, 0x22, 0x30, 0x31] := by
  have hn : ∀ n : Byte, op = n ↔ op.toNat = n.toNat := fun n => BitVec.toNat_inj.symm
  unfold decodeOpcode
  simp only [hn]
  repeat' split
  all_goals simp_all

end Sys2Proof
end

