-- ==== Sys2Proof/Laws/PerInstr.lean ====
section
/-! SUPPORT. The per-instruction family EncodeFields: the command word of every command, field by field, and what the
decoder's opcode lookup makes of its opcode (30_encoding.md R100, R101). -/

namespace Sys2Proof.Laws.EncodeFields

/-- The word of a command has RSVD = 0, CTX its slot number modulo 256, and an OPCODE that looks up to the command. -/
def Statement (i : Instr) : Prop :=
  rsvdField (encode i) = 0 ∧ ctxField (encode i) = BitVec.ofNat 8 i.ctx
    ∧ decodeOpcode (opcodeField (encode i)) i.ctx = some i

/-- The two fields every command encodes alike leave only the opcode lookup to show. -/
theorem of_lookup {i : Instr} (h : decodeOpcode i.opcode i.ctx = some i) : Statement i :=
  ⟨rsvdField_encode i, ctxField_encode i, by rw [opcodeField_encode, h]⟩

theorem nop (c : Nat) : Statement (.nop c) := of_lookup rfl

theorem ctxNew (c : Nat) : Statement (.ctxNew c) := of_lookup rfl

theorem ctxClone (c : Nat) : Statement (.ctxClone c) := of_lookup rfl

theorem ctxDestroy (c : Nat) : Statement (.ctxDestroy c) := of_lookup rfl

theorem ctxStatus (c : Nat) : Statement (.ctxStatus c) := of_lookup rfl

theorem derive (c : Nat) : Statement (.derive c) := of_lookup rfl

theorem guess (c : Nat) : Statement (.guess c) := of_lookup rfl

theorem check (c : Nat) : Statement (.check c) := of_lookup rfl

theorem update (c : Nat) : Statement (.update c) := of_lookup rfl

theorem encrypt (c : Nat) : Statement (.encrypt c) := of_lookup rfl

theorem auth (c : Nat) : Statement (.auth c) := of_lookup rfl

end Sys2Proof.Laws.EncodeFields
end

