-- ==== Sys2Proof/Laws/Step.lean ====
section
/-! SUPPORT. What one step can do, said once: the input it serves, the host accesses, the engine's turn, and what every
command does to the parts of the state. -/

namespace Sys2Proof.Machine

variable {s t : State}

/-! ### Host accesses -/

/-- A host read changes nothing but the data driven (20_memory.md R73). -/
theorem State.hostRead_next {off : Nat} {w : Width} (h : s.hostRead off w = .next t) : ∃ v, t = s.driveRead v := by
  unfold State.hostRead at h
  split at h
  · split at h <;> cases h; exact ⟨_, rfl⟩
  · split at h
    · cases h
    · split at h
      · cases h
      · split at h <;> cases h; exact ⟨_, rfl⟩
  · split at h <;> cases h; exact ⟨_, rfl⟩
  · cases h

/-- A host write writes one register, or buffer bytes while idle, or is ignored (20_memory.md R73, R74, R76). -/
theorem State.hostWrite_next {off : Nat} {w : Width} {v : Word} (h : s.hostWrite off w v = .next t) :
    (∃ r, t = s.writeReg r v)
      ∨ (s.status.busy = false ∧ ∃ a b, t = s.store a b ∧ a + b.length ≤ Config.bufBytes)
      ∨ t = s := by
  unfold State.hostWrite at h
  split at h
  · split at h <;> cases h; exact .inl ⟨_, rfl⟩
  · rename_i hr
    split at h
    · cases h
    · split at h
      · cases h
      · rename_i hb ha
        cases h
        refine .inr (.inl ⟨by simpa using hb, _, _, rfl, ?_⟩)
        have ha : off % w.bytes = 0 := by simpa [aligned] using ha
        have : windowBase ≤ off ∧ off < windowBase + Config.bufBytes := by
          unfold Region.ofOffset at hr
          split at hr
          · cases hr
          · split at hr
            · omega
            · split at hr <;> cases hr
        cases w <;> simp [Width.bytes, windowBase, Config.bufBytes] at * <;> omega
  · split at h <;> cases h; exact .inr (.inr rfl)
  · cases h

/-! ### The engine -/

/-- The command in flight is the decoded command, or ends with IllegalOpcode or ReservedBits (30_encoding.md R112). -/
theorem State.runLatched_next (h : s.runLatched = .next t) :
    (∃ i, decode s.lcmd = .ok i ∧ exec i s = .next t)
      ∨ ∃ e info, t = s.raise e info ∧ (e = .illegalOpcode ∨ e = .reservedBits) := by
  unfold State.runLatched at h
  split at h
  · exact .inl ⟨_, ‹_›, h⟩
  · cases h; exact .inr ⟨_, _, rfl, .inl rfl⟩
  · cases h; exact .inr ⟨_, _, rfl, .inr rfl⟩

theorem State.engineTurn_next (h : s.engineTurn = .next t) :
    (s.status.busy = false ∧ t = s) ∨ (s.status.busy = true ∧ s.runLatched = .next t) := by
  unfold State.engineTurn at h
  split at h
  · exact .inr ⟨‹_›, h⟩
  · rename_i hb
    cases h
    exact .inl ⟨by simpa using hb, rfl⟩

/-! ### The step -/

/-- A step that goes on serves the oldest input, or gives the engine its turn where there is none. -/
theorem step_next (h : step s = .next t) :
    s.faulted = false ∧ ((s.schedule = [] ∧ s.engineTurn = .next t)
      ∨ ∃ e rest, s.schedule = e :: rest ∧ ({ s with schedule := rest } : State).serve e = .next t) := by
  unfold step State.advance at h
  split at h
  · cases h
  · rename_i hf
    refine ⟨by simpa using hf, ?_⟩
    split at h
    · exact .inl ⟨‹_›, h⟩
    · exact .inr ⟨_, _, ‹_›, h⟩

/-- A step of a state with an input to serve. -/
theorem step_of_schedule {e : Event} {rest : List Event} (hf : s.faulted = false) (hs : s.schedule = e :: rest) :
    step s = ({ s with schedule := rest } : State).serve e := by
  unfold step State.advance
  rw [hf, hs]
  rfl

/-- A step of a state with no input left. -/
theorem step_of_empty (hf : s.faulted = false) (hs : s.schedule = []) : step s = s.engineTurn := by
  unfold step State.advance
  rw [hf, hs]
  rfl

/-- With no input left, or the engine's turn the next input, the step is the engine's turn. -/
theorem step_of_engine_next (hf : s.faulted = false) (hs : s.schedule.head?.getD .engine = .engine) :
    step s = ({ s with schedule := s.schedule.tail } : State).engineTurn := by
  cases h : s.schedule with
  | nil => rw [step_of_empty hf h]; exact congrArg State.engineTurn (by rw [List.tail_nil, ← h])
  | cons e rest =>
    rw [h] at hs
    rw [step_of_schedule hf h]
    cases (show e = .engine from hs)
    rfl

theorem core_run_succ (M : Host.Core) (n : Nat) {s t : M.State} (h : M.step s = .next t) :
    M.run (n + 1) s = M.run n t := by
  rw [Host.Core.run, h]

/-- A run through the host's interface is its first step and then the rest. -/
theorem run_succ (n : Nat) (h : step s = .next t) :
    Host.Core.run Sys2Proof.core (n + 1) s = Host.Core.run Sys2Proof.core n t :=
  core_run_succ Sys2Proof.core n h

/-! ### All commands -/

/-- What a command that completes without an error leaves: STATUS and ERRINFO, the command's own slot, the RES words the
command writes, and the buffer range it writes; everything else stays (30_encoding.md R104, R113). -/
structure State.Did (s t : State) (i : Instr) : Prop where
  hostSide : s.KeepsHostSide t
  errInfo : t.errInfo = s.errInfo
  status : ∃ acc enc auth, t.status =
    { s.status with busy := false, done := true, accept := acc, cfgEncDis := enc, cfgAuthDis := auth }
  slots : t.slots = s.slots ∨ ∃ k, t.slots = (s.setSlot i.ctx k).slots
  res : s.KeepsResFrom t i.resWords
  buf : t.buf = s.buf ∨ ∃ a v, t.buf = s.buf.writeBytes a v ∧ a + v.length ≤ Config.bufBytes

theorem State.keepsHostSide_of_eq {u : State} (h : u.cmd = s.cmd ∧ u.doneIe = s.doneIe ∧ u.arg = s.arg ∧ u.lcmd = s.lcmd
    ∧ u.larg = s.larg ∧ u.faulted = s.faulted ∧ u.readData = s.readData ∧ u.schedule = s.schedule) :
    s.KeepsHostSide u := by
  obtain ⟨h1, h2, h3, h4, h5, h6, h7, h8⟩ := h
  exact ⟨h1, h2, h3, h4, h5, h6, h7, h8⟩

theorem Slot.tag_length_le (k : Slot) (m : Bytes) (roc : Word) : (k.tag m roc).length ≤ k.tagLen.toNat := by
  simp [Slot.tag, tagOf]

/-- What every command can do: end with an error, or do its work (30_encoding.md R104, R113). -/
theorem exec_next {i : Instr} (h : exec i s = .next t) : s.RaisedFrom t ∨ s.Did t i := by
  cases i with
  | nop c =>
    obtain rfl := execNop_next (c := c) h
    exact .inr ⟨State.keepsHostSide_of_eq (by simp), rfl, ⟨_, _, _, rfl⟩, .inl rfl, fun _ _ _ => rfl, .inl rfl⟩
  | ctxNew c =>
    obtain h | ⟨q, ssrc, kdr, mk, ms, mki, hc, -, -, -, -, rfl⟩ := execCtxNew_next h
    · exact .inl h
    · exact .inr ⟨State.keepsHostSide_of_eq (by simp), rfl, ⟨_, _, _, rfl⟩, .inr ⟨_, rfl⟩, fun _ _ _ => rfl, .inl rfl⟩
  | ctxClone c =>
    obtain h | ⟨u, hc, -, -, rfl⟩ := execCtxClone_next h
    · exact .inl h
    · exact .inr ⟨State.keepsHostSide_of_eq (by simp), rfl, ⟨_, _, _, rfl⟩, .inr ⟨_, rfl⟩, fun _ _ _ => rfl, .inl rfl⟩
  | ctxDestroy c =>
    obtain h | ⟨hc, rfl⟩ := execCtxDestroy_next h
    · exact .inl h
    · exact .inr ⟨State.keepsHostSide_of_eq (by simp), rfl, ⟨_, _, _, rfl⟩, .inr ⟨_, rfl⟩, fun _ _ _ => rfl, .inl rfl⟩
  | ctxStatus c =>
    obtain h | ⟨k, hc, rfl⟩ := execCtxStatus_next h
    · exact .inl h
    · refine .inr ⟨State.keepsHostSide_of_eq (by simp), rfl, ⟨_, _, _, rfl⟩, .inl rfl, fun i hi hn => ?_, .inl rfl⟩
      simp only [Instr.resWords] at hn; omega
  | derive c =>
    obtain h | ⟨k, hc, -, ⟨-, rfl⟩ | ⟨-, rfl⟩⟩ := execDerive_next h
    · exact .inl h
    · refine .inr ⟨State.keepsHostSide_of_eq (by simp), rfl, ⟨_, _, _, rfl⟩, .inr ⟨_, rfl⟩, fun i hi hn => ?_, .inl rfl⟩
      simp only [Instr.resWords] at hn
      simp only [State.complete_res, State.setDeriveResult, State.setRes_getElem]
      rw [if_neg (by simp; omega), if_neg (by simp; omega), if_neg (by simp; omega)]
      rfl
    · refine .inr ⟨State.keepsHostSide_of_eq (by simp), rfl, ⟨_, _, _, rfl⟩, .inl rfl, fun i hi hn => ?_, .inl rfl⟩
      simp only [Instr.resWords] at hn
      simp only [State.complete_res, State.setDeriveResult, State.setRes_getElem]
      rw [if_neg (by simp; omega), if_neg (by simp; omega), if_neg (by simp; omega)]
  | guess c =>
    obtain h | ⟨k, hc, -, -, rfl⟩ := execGuess_next h
    · exact .inl h
    · refine .inr ⟨State.keepsHostSide_of_eq (by simp), rfl, ⟨_, _, _, rfl⟩, .inr ⟨_, rfl⟩, fun i hi hn => ?_, .inl rfl⟩
      simp only [Instr.resWords] at hn
      simp only [State.complete_res, State.setRes_getElem]
      rw [if_neg (by simp; omega), if_neg (by simp; omega)]
      rfl
  | check c =>
    obtain h | ⟨k, hc, -, rfl⟩ := execCheck_next h
    · exact .inl h
    · refine .inr ⟨State.keepsHostSide_of_eq (by simp), rfl, ⟨_, _, _, rfl⟩, .inr ⟨_, rfl⟩, fun i hi hn => ?_, .inl rfl⟩
      simp only [Instr.resWords] at hn
      simp only [State.complete_res, State.setRes_getElem]
      rw [if_neg (by simp; omega)]
      rfl
  | update c =>
    obtain h | ⟨k, hc, -, rfl⟩ := execUpdate_next h
    · exact .inl h
    · exact .inr ⟨State.keepsHostSide_of_eq (by simp), rfl, ⟨_, _, _, rfl⟩, .inr ⟨_, rfl⟩, fun _ _ _ => rfl, .inl rfl⟩
  | encrypt c =>
    obtain h | ⟨k, d, hdr, hc, -, hb, -, hd, rfl⟩ := execEncrypt_next h
    · exact .inl h
    · refine .inr ?_
      unfold State.encrypted
      simp only
      split
      · refine ⟨State.keepsHostSide_of_eq (by simp), rfl, ⟨_, _, _, rfl⟩, .inr ⟨_, rfl⟩, fun i hi hn => ?_,
          .inr ⟨_, _, rfl, ?_⟩⟩
        · simp only [Instr.resWords] at hn
          simp only [State.complete_res, State.setRes_getElem]
          rw [if_neg (by simp; omega)]
          rfl
        · have := (hd ‹_›).1
          simp only [xorBytes_length]
          omega
      · refine ⟨State.keepsHostSide_of_eq (by simp), rfl, ⟨_, _, _, rfl⟩, .inr ⟨_, rfl⟩, fun i hi hn => ?_, .inl rfl⟩
        simp only [Instr.resWords] at hn
        simp only [State.complete_res, State.setRes_getElem]
        rw [if_neg (by simp; omega)]
        rfl
  | auth c =>
    obtain h | ⟨k, hc, -, hb, ⟨-, rfl⟩ | ⟨m, -, ht, -, rfl⟩⟩ := execAuth_next h
    · exact .inl h
    · refine .inr ⟨State.keepsHostSide_of_eq (by simp), rfl, ⟨_, _, _, rfl⟩, .inl rfl, fun i hi hn => ?_, .inl rfl⟩
      simp only [Instr.resWords] at hn
      simp only [State.complete_res, State.setRes_getElem]
      rw [if_neg (by simp; omega)]
    · refine .inr ⟨State.keepsHostSide_of_eq (by simp), rfl, ⟨_, _, _, rfl⟩, .inl rfl, fun i hi hn => ?_,
        .inr ⟨_, _, rfl, ?_⟩⟩
      · simp only [Instr.resWords] at hn
        simp only [State.complete_res, State.setRes_getElem]
        rw [if_neg (by simp; omega)]
        rfl
      · have := k.tag_length_le m s.larg[2]
        omega

end Sys2Proof.Machine
end

