-- ==== Sys2Proof/Laws/Units.lean ====
section
/-! SUPPORT. The lengths of what the units produce (40_aes.md to 43_key_derivation.md), how a block chain splits, the
index arithmetic of 44_replay_index.md as natural numbers, and the index operand as one. -/

namespace Sys2Proof.Machine

/-! ### AES and the keystreams -/

@[simp] theorem stateOf_length (f : Nat → Nat → Byte) : (stateOf f).length = 16 := rfl

/-- Every AES output is a block (40_aes.md R130). -/
@[simp] theorem aes_length (k b : Bytes) : (aes k b).length = 16 := by
  rw [aes, aesWith, addRoundKey, stateOf_length]

@[simp] theorem cmBlocks_length (k iv : Bytes) (n j : Nat) : (cmBlocks k iv n j).length = 16 * n := by
  induction n generalizing j with
  | zero => rfl
  | succ n ih => rw [cmBlocks, List.length_append, aes_length, ih]; omega

@[simp] theorem f8Blocks_length (k iv : Bytes) (n : Nat) (chain : Bytes) (j : Nat) :
    (f8Blocks k iv n chain j).length = 16 * n := by
  induction n generalizing chain j with
  | zero => rfl
  | succ n ih => simp only [f8Blocks, List.length_append, aes_length, ih]; omega

/-- A counter-mode stream of m + n blocks is one of m blocks and one of n blocks from the next counter
(41_cipher_modes.md R161). -/
theorem cmBlocks_add (k iv : Bytes) (m n j : Nat) :
    cmBlocks k iv (m + n) j = cmBlocks k iv m j ++ cmBlocks k iv n (j + m) := by
  induction m generalizing j with
  | zero => simp [cmBlocks]
  | succ m ih =>
    rw [Nat.succ_add, cmBlocks, cmBlocks, ih, List.append_assoc, show j + 1 + m = j + (m + 1) by omega]

/-- The first blocks of a longer F8 chain are the shorter chain (41_cipher_modes.md R164). -/
theorem f8Blocks_take (k iv : Bytes) (m n : Nat) (chain : Bytes) (j : Nat) :
    (f8Blocks k iv (m + n) chain j).take (16 * m) = f8Blocks k iv m chain j := by
  induction m generalizing chain j with
  | zero => simp [f8Blocks]
  | succ m ih =>
    rw [Nat.succ_add]
    simp only [f8Blocks]
    rw [show 16 * (m + 1) = 16 + 16 * m by omega, List.take_append, aes_length, List.take_of_length_le (by simp)]
    rw [show 16 + 16 * m - 16 = 16 * m by omega, ih]

theorem blockCount_bytes (n : Nat) : n ≤ 16 * blockCount n := by unfold blockCount; omega

@[simp] theorem cmKeystream_length (k iv : Bytes) (n : Nat) : (cmKeystream k iv n).length = n := by
  rw [cmKeystream, List.length_take, cmBlocks_length, Nat.min_eq_left (blockCount_bytes n)]

@[simp] theorem f8Keystream_length (k ks iv : Bytes) (n : Nat) : (f8Keystream k ks iv n).length = n := by
  rw [f8Keystream, List.length_take, f8Blocks_length, Nat.min_eq_left (blockCount_bytes n)]

/-! ### The index arithmetic on natural numbers -/

/-- GuessRoc as a number: guessNat, which never leaves 32 bits (44_replay_index.md R222). -/
theorem Slot.guessRoc_toNat (k : Slot) (x : Word) : (k.guessRoc x).toNat = k.guessNat x.toNat := by
  have hr := k.roc.isLt
  unfold Slot.guessRoc guessRocFrom Slot.guessNat Slot.guessInt
  rw [BitVec.toNat_ofNat, Nat.mod_eq_of_lt]
  all_goals repeat' split
  all_goals omega

/-- The guess by cases on natural numbers (44_replay_index.md R222). -/
theorem Slot.guessNat_cases (k : Slot) (x : Nat) :
    (k.sL.toNat < 32768 ∧ k.sL.toNat + 32768 < x ∧ k.guessNat x = k.roc.toNat - 1)
      ∨ (32768 ≤ k.sL.toNat ∧ x + 32768 < k.sL.toNat ∧ k.guessNat x = min (k.roc.toNat + 1) (2 ^ 32 - 1))
      ∨ (x ≤ k.sL.toNat + 32768 ∧ k.sL.toNat ≤ x + 32768 ∧ k.guessNat x = k.roc.toNat)
      ∨ (32768 ≤ k.sL.toNat ∧ k.sL.toNat + 32768 < x ∧ k.guessNat x = k.roc.toNat) := by
  unfold Slot.guessNat Slot.guessInt
  repeat' split
  all_goals omega

theorem Slot.guessRoc_eq (k : Slot) (x : Word) : k.guessRoc x = BitVec.ofNat 32 (k.guessNat x.toNat) := by
  rw [← Slot.guessRoc_toNat, BitVec.ofNat_toNat, BitVec.setWidth_eq]

/-- Delta as a difference of where the packets stand (44_replay_index.md R224). -/
theorem Slot.delta_eq (k : Slot) (x : Word) : k.delta x = (k.currentNat x.toNat : Int) - k.lastNat := by
  unfold Slot.delta Slot.currentNat Slot.lastNat
  cases k.kind
  · simp only [Slot.guessRoc_toNat]
    push_cast
    ring
  · rfl

/-- The packet operand as a number (30_encoding.md R107). -/
theorem State.xOperand_toNat (s : State) (kind : Kind) : (s.xOperand kind).toNat = s.xNat kind := by
  unfold State.xOperand State.xNat State.seqOperand
  cases kind
  · simp only [BitVec.toNat_setWidth]
    omega
  · rfl

/-! ### Operands -/

/-- The index operand as a number: 48 bits in an SRTP slot, the low word alone in an SRTCP slot (30_encoding.md R105). -/
theorem indexOperand_toNat (kind : Kind) (hi lo : Word) :
    (indexOperand kind hi lo).toNat = match kind with
      | .srtp => hi.toNat % 2 ^ 16 * 2 ^ 32 + lo.toNat
      | .srtcp => lo.toNat := by
  cases kind
  · refine (BitVec.toNat_append _ _).trans ?_
    rw [← Nat.shiftLeft_add_eq_or_of_lt lo.isLt, Nat.shiftLeft_eq, BitVec.toNat_setWidth]
  · simp [indexOperand]; omega

end Sys2Proof.Machine
end

