-- ==== Sys2Proof/Tests/Slice0.lean ====
section
/-! SUPPORT. Small tests of the model, whose expected values are those of 95_test_vectors.md (the section is named at each)
or of the spec's encoding tables, and one witness a statement: concrete data that meets its hypotheses. -/

namespace Sys2Proof.Tests

open Sys2Proof.Machine

/-! ### Well-formedness and decoding -/

theorem test_wellFormed_refuses_ctx_256 : (Instr.encrypt 256).wellFormed = false := by decide

theorem test_wellFormed_takes_ctx_255 : (Instr.encrypt 255).wellFormed = true := by decide

/-- One word a row, written out bit by bit from 30_encoding.md R100 and R101: RSVD, CTX, OPCODE. -/
theorem test_decode_nop : decode 0b0000000000000000_00000011_00000000#32 = .ok (.nop 3) := by decide
theorem test_decode_ctxNew : decode 0b0000000000000000_00000000_00000001#32 = .ok (.ctxNew 0) := by decide
theorem test_decode_ctxClone : decode 0b0000000000000000_00000001_00000010#32 = .ok (.ctxClone 1) := by decide
theorem test_decode_ctxDestroy : decode 0b0000000000000000_00001111_00000011#32 = .ok (.ctxDestroy 15) := by decide
theorem test_decode_ctxStatus : decode 0b0000000000000000_00000010_00000100#32 = .ok (.ctxStatus 2) := by decide
theorem test_decode_derive : decode 0b0000000000000000_00000001_00010000#32 = .ok (.derive 1) := by decide
theorem test_decode_guess : decode 0b0000000000000000_00000010_00100000#32 = .ok (.guess 2) := by decide
theorem test_decode_check : decode 0b0000000000000000_11111111_00100001#32 = .ok (.check 255) := by decide
theorem test_decode_update : decode 0b0000000000000000_00000100_00100010#32 = .ok (.update 4) := by decide
theorem test_decode_encrypt : decode 0b0000000000000000_00000001_00110000#32 = .ok (.encrypt 1) := by decide
theorem test_decode_auth : decode 0b0000000000000000_00000001_00110001#32 = .ok (.auth 1) := by decide

/-- 95_test_vectors.md section 8: 0x05 names no command, and the opcode is judged before the reserved bits. -/
theorem test_decode_illegal : decode 0x00010005#32 = .error (.illegalOpcode 0x05) := by decide

theorem test_decode_reserved : decode 0x00010000#32 = .error (.reservedBits 0x00010000) := by decide

/-! ### The units (95_test_vectors.md section 1) -/

theorem test_aes128 :
    aes (be 16 0x000102030405060708090a0b0c0d0e0f) (be 16 0x00112233445566778899aabbccddeeff)
      = be 16 0x69c4e0d86a7b0430d8cdb78070b4c55a := by decide +kernel

theorem test_aes256 :
    aes (be 32 0x000102030405060708090a0b0c0d0e0f101112131415161718191a1b1c1d1e1f)
        (be 16 0x00112233445566778899aabbccddeeff)
      = be 16 0x8ea2b7ca516745bfeafc49904b496089 := by decide +kernel

/-- Three blocks, the last one cut to one byte. -/
theorem test_cmKeystream :
    cmKeystream (be 16 0x2b7e151628aed2a6abf7158809cf4f3c) (be 14 0xf0f1f2f3f4f5f6f7f8f9fafbfcfd) 33
      = be 33 0xe03ead0935c95e80e166b16dd92b4eb4d23513162b02d0f72a43a2fe4a5f97ab41 := by decide +kernel

theorem test_f8MaskedKey :
    f8MaskedKey (be 16 0x234829008467be186c3de14aae72d62c) (be 4 0x32f2870d)
      = be 16 0x11baae0dd132eb4d3968b41ffb278379 := by decide

theorem test_f8IvRtp : f8IvRtp (be 12 0x806e5cba50681de55c621599) 0xd462564a
    = be 16 0x006e5cba50681de55c621599d462564a := by decide

/-- "pseudorandomness is the next best thing" under the RFC 3711 B.1 inputs. -/
theorem test_f8Apply :
    f8Apply (be 16 0x234829008467be186c3de14aae72d62c) (be 4 0x32f2870d) (be 16 0x006e5cba50681de55c621599d462564a)
        (be 39 0x70736575646f72616e646f6d6e65737320697320746865206e6578742062657374207468696e67)
      = be 39 0x019ce7a26e7854014a6366aa95d4eefd1ad4172a14f9faf455b7f1d4b62bd08f562c0eef7c4802 := by decide +kernel

theorem test_sha1_abc : sha1 (be 3 0x616263) = be 20 0xa9993e364706816aba3e25717850c26c9cd0d89d := by decide +kernel

theorem test_sha1_empty : sha1 [] = be 20 0xda39a3ee5e6b4b0d3255bfef95601890afd80709 := by decide +kernel

/-- RFC 2202 case 1: "Hi There" under 20 bytes of 0x0b. -/
theorem test_hmacSha1 :
    hmacSha1 (rep 0x0b 20) (be 8 0x4869205468657265) = be 20 0xb617318655057264e28bc0b6fb378c8ef146be00 := by
  decide +kernel

theorem test_kdf_label0 :
    kdf 0 0 (be 16 0xe1f97a0d3e018be0d64fa32c06de4139) (be 14 0x0ec675ad498afeebb6960b3aabe6) 16
      = be 16 0xc61e7a93744f39ee10734afe3ff7a087 := by decide +kernel

theorem test_kdf_label5 :
    kdf 5 0 (be 16 0xe1f97a0d3e018be0d64fa32c06de4139) (be 14 0x0ec675ad498afeebb6960b3aabe6) 14
      = be 14 0x9581c7ad87b3e530bf3e4454a8b3 := by decide +kernel

/-! ### The buffer -/

theorem test_buffer_is_sorted : (Memory.writeBytes [(5, 1)] 4 [7, 8, 9]) = [(4, 7), (5, 8), (6, 9)] := by decide

theorem test_buffer_unwritten : (Memory.writeBytes [] 4 [7]).read 5 = none := by decide

/-! ### Small states -/

/-- A state with slot 0 as given and LARG0 to LARG5 as given. -/
def at0 (k : Slot) (a0 a1 a2 a3 a4 a5 : Word) : State :=
  { State.reset.setSlot 0 k with larg := #v[a0, a1, a2, a3, a4, a5, 0, 0] }

/-- The next state of a result, where it is one. -/
def stateAfter : Result → Option State
  | .next s => some s
  | .fault _ | .refused _ => none

/-- The first n RES words after a result. -/
def resAfter (n : Nat) (r : Result) : Option (List Word) := (stateAfter r).map fun s => s.res.toList.take n

/-- STATUS and ERRINFO after a result. -/
def statusAfter (r : Result) : Option (Word × Word) := (stateAfter r).map fun s => (s.status.toWord, s.errInfo)

/-- Slot 0 after a result. -/
def slotAfter (r : Result) : Option Slot := (stateAfter r).bind fun s => s.slot? 0

/-- n buffer bytes from offset a after a result. -/
def bytesAfter (a n : Nat) (r : Result) : Option Bytes :=
  (stateAfter r).bind fun s => match s.buf.readBytes a n with
    | .ok b => some b
    | .error _ => none

/-- PB(0, enc, auth, zero master, 16, 20, 14, 10, 0xdeadbeef, 0) of 95_test_vectors.md, in its own two pieces of 24 and 64
bytes. -/
def block (mkLen enc auth : Byte) : Bytes :=
  [0, enc, auth, mkLen, 14, 16, 20, 14, 10, 0, 0, 0] ++ be 4 0xdeadbeef ++ zeros 8 ++ zeros 64

/-- The zero-master slot of 95_test_vectors.md section 3: AES-CM, HMAC-SHA1, no keys yet. -/
def zeroSlot : Slot :=
  { Slot.reset with
    valid := true, encAlgo := .aesCm, authAlgo := .hmacSha1, mkLen := 16, msLen := 14, nE := 16, nA := 20, nS := 14
    tagLen := 10, ssrc := 0xdeadbeef }

/-- zeroSlot with the session keys 95_test_vectors.md section 3 lists. -/
def keyedSlot : Slot :=
  { zeroSlot with
    keysValid := true
    kE := padTo 32 (be 16 0x66e94bd4ef8a2c3b884cfa59ca342b2e)
    kA := padTo Config.maxAuthKeyBytes (be 20 0x788bcd111ecf73d4e78d2e21bef55460daacdaf7)
    kS := padTo 14 (be 14 0xb5b03421de8bbffc4eadec767339) }

/-- The slot of 95_test_vectors.md sections 5.2 and 5.3: AES-CM, Null authentication, roc = 3. -/
def windowSlot (sL : Word) (mask : BitVec 64) : Slot :=
  { zeroSlot with authAlgo := .null, roc := 3, guessedRoc := 3, sL := sL, seqSet := true, replayMask := mask }

/-- A state with bytes at a buffer offset. -/
def withBytes (s : State) (a : Nat) (b : Bytes) : State := { s with buf := s.buf.writeBytes a b }

/-! ### One step of each command -/

/-- The whole path: the word is issued, fetched from LCMD, decoded and run (46_context_mgmt.md R270). -/
theorem test_step_runs_nop : statusAfter (step (State.reset.withFetchWord 32 0x0000C800)) = some (0x2, 0) := by decide

theorem test_step_illegal : statusAfter (step (State.reset.withFetchWord 32 0x00010005)) = some (0x106, 0x5) := by decide

/-- 95_test_vectors.md section 3: STATUS 2, effective AES-CM and HMAC-SHA1. -/
theorem test_ctxNew :
    (let r := exec (.ctxNew 0) (withBytes (at0 Slot.reset 0x1000 0 0 0 0 0) 0x1000 (block 16 1 1))
     (statusAfter r, slotAfter r)) = (some (0x2, 0), some zeroSlot) := by decide +kernel

/-- 95_test_vectors.md section 7.1: a 20-byte master key refuses both algorithms, reported in STATUS bits 5 and 6. -/
theorem test_ctxNew_disables :
    statusAfter (exec (.ctxNew 0) (withBytes (at0 Slot.reset 0x1000 0 0 0 0 0) 0x1000 (block 20 1 1)))
      = some (0x62, 0) := by decide +kernel

/-- 46_context_mgmt.md R273: configuration copied, keys and index state fresh, roc from the operand. -/
theorem test_ctxClone :
    slotAfter (exec (.ctxClone 0) ((at0 Slot.reset 1 0x11223344 5 1 2 0).setSlot 1 keyedSlot))
      = some { zeroSlot with ssrc := 0x11223344, roc := 5, guessedRoc := 5, kdr := 0x100000002 } := by decide +kernel

/-- 60_exceptions.md R303: the invalid source is reported with all of ARG0. -/
theorem test_ctxClone_source : statusAfter (exec (.ctxClone 0) (at0 Slot.reset 0x10001 0 0 0 0 0))
    = some (0x306, 0x10001) := by decide

theorem test_ctxDestroy : slotAfter (exec (.ctxDestroy 0) (at0 keyedSlot 0 0 0 0 0 0)) = some Slot.reset := by
  decide +kernel

/-- Program 1, step 7 of 95_test_vectors.md. -/
theorem test_ctxStatus : resAfter 8 (exec (.ctxStatus 0) (at0 keyedSlot 0 0 0 0 0 0))
    = some [0x000A1109, 0, 0, 0, 0, 0, 0xDEADBEEF, 0x100E1410] := by decide +kernel

/-- 95_test_vectors.md sections 3 and 4.2. -/
theorem test_derive : slotAfter (exec (.derive 0) (at0 zeroSlot 0 0 0 0 0 0)) = some keyedSlot := by decide +kernel

/-- 95_test_vectors.md section 4.2: index 0x50007 under kdr 1024 gives r = 320. -/
theorem test_derive_result : resAfter 3 (exec (.derive 0) (at0 { zeroSlot with kdr := 1024 } 0 0x50007 0 0 0 0))
    = some [1, 0, 320] := by decide +kernel

/-- 95_test_vectors.md section 5.1: 32762 > 2, so the guess is roc + 1. -/
theorem test_guess_wrap :
    resAfter 2 (exec (.guess 0) (at0 { windowSlot 65530 1 with roc := 7 } 2 0 0 0 0 0)) = some [0, 0x00080002] := by
  decide +kernel

/-- 95_test_vectors.md section 5.1: the upper clamp. -/
theorem test_guess_clamp :
    resAfter 2 (exec (.guess 0) (at0 { windowSlot 65530 1 with roc := 0xFFFFFFFF } 2 0 0 0 0 0))
      = some [0x0000FFFF, 0xFFFF0002] := by decide +kernel

/-- 95_test_vectors.md section 5.2: offset 64 is accepted, offset 65 is not. -/
theorem test_check_offsets :
    (resAfter 1 (exec (.check 0) (at0 (windowSlot 100 1) 36 0 0 0 0 0)),
      statusAfter (exec (.check 0) (at0 (windowSlot 100 1) 35 0 0 0 0 0))) = (some [1], some (0x2, 0)) := by
  decide +kernel

/-- 95_test_vectors.md section 5.2: an accepting CHECK leaves STATUS 0x0A and the guess roc - 1. -/
theorem test_check_guess :
    (let r := exec (.check 0) (at0 (windowSlot 5 1) 65534 0 0 0 0 0)
     (statusAfter r, (slotAfter r).map (·.guessedRoc))) = (some (0xA, 0), some 2) := by decide +kernel

/-- 95_test_vectors.md section 5.3: the guess is roc + 1 and is committed. -/
theorem test_update_wrap :
    slotAfter (exec (.update 0) (at0 (windowSlot 65533 0xD) 2 0 0 0 0 0))
      = some { windowSlot 2 0x1A1 with roc := 4, guessedRoc := 4 } := by decide +kernel

/-- 95_test_vectors.md section 5.3: the shift by 64 saturates; offset 63 is recorded. -/
theorem test_update_edges :
    (slotAfter (exec (.update 0) (at0 (windowSlot 100 1) 164 0 0 0 0 0)),
      slotAfter (exec (.update 0) (at0 (windowSlot 100 1) 37 0 0 0 0 0)))
      = (some (windowSlot 164 1), some (windowSlot 100 0x8000000000000001)) := by decide +kernel

/-- The packet of 95_test_vectors.md section 3, before encryption. -/
def plainPacket : Bytes := be 23 0x8000000000000000deadbeef303132333435363738390a

/-- Program 1, steps 5 and 6: the ciphertext and RES0. -/
theorem test_encrypt :
    (let r := exec (.encrypt 0) (withBytes (at0 keyedSlot 0 12 11 0 0 0xdeadbeef) 0 plainPacket)
     (bytesAfter 12 11 r, resAfter 1 r)) = (some (be 11 0x88ca24b3ad37fec0d1a587), some [1]) := by decide +kernel

/-- 95_test_vectors.md section 8: a sum that exceeds the buffer by one raises Bounds with P. -/
theorem test_encrypt_bounds : statusAfter (exec (.encrypt 0) (at0 keyedSlot 16384 1 0 0 0 0)) = some (0x506, 16384) := by
  decide +kernel

/-- Program 1: the tag, and RES0 = tagLen. -/
theorem test_auth :
    (let r := exec (.auth 0) (withBytes (at0 keyedSlot 0 23 0 23 0 0) 0
        (be 23 0x8000000000000000deadbeef88ca24b3ad37fec0d1a587))
     (bytesAfter 23 10 r, resAfter 1 r)) = (some (be 10 0xa06b99d5ce27739c6825), some [10]) := by decide +kernel

/-- 95_test_vectors.md section 6.4: without keys AUTH is a no-op, whatever its tag range. -/
theorem test_auth_noop : (let r := exec (.auth 0) (at0 zeroSlot 0 0 0 0xFFFFFFFF 0 0); (statusAfter r, resAfter 1 r))
    = (some (0x2, 0), some [0]) := by decide +kernel

/-! ### The host port -/

/-- 60_exceptions.md R316 refuses no access to the reserved region above the window: 92_eei_decisions.md D3. -/
theorem test_reserved_narrow_read :
    (stateAfter (step { State.reset with schedule := [.read 0x14001 .w8] })).map (·.readData) = some (some 0) := by decide

/-- 20_memory.md R74: a 32-bit window write puts bits [7:0] at the lowest offset. -/
theorem test_window_write_lanes :
    bytesAfter 8 4 (step { State.reset with schedule := [.write 0x10008 .w32 0x44332211] })
      = some [0x11, 0x22, 0x33, 0x44] := by decide

theorem test_read_id :
    (stateAfter (step { State.reset with schedule := [.read 0 .w32] })).map (·.readData) = some (some 0x53434531) := by
  decide

/-! ### Witnesses: data that meets the hypotheses of a statement, clause by clause, at the ends of their ranges -/

/-- The reset state with one input to come. -/
def served (e : Event) : State := { State.reset with schedule := [e] }

/-- A state with command word w in flight. -/
def inFlight (s : State) (w : Word) : State :=
  { s with cmd := w, lcmd := w, status := { Status.reset with busy := true } }

/-- A result that gives a state is a next state. -/
theorem next_of_isSome {r : Result} (h : (stateAfter r).isSome = true) : ∃ t, r = .next t := by
  cases r with
  | next t => exact ⟨t, rfl⟩
  | fault f => cases h
  | refused f => cases h

theorem at0_slot (k : Slot) (a0 a1 a2 a3 a4 a5 : Word) : (at0 k a0 a1 a2 a3 a4 a5).slot? 0 = some k := rfl

/-- Bytes that a read returns are what the buffer holds. -/
theorem holds_of_read {m : Memory} {a : Nat} {v : Bytes} (h : m.readBytes a v.length = .ok v) : m.holds a v := by
  have g := (Memory.readBytes_eq_ok m a v.length v).1 h
  exact g.2

theorem witness_DecodeAndEncodeAreInverse :
    (Instr.auth 255).wellFormed = true ∧ (Instr.nop 0).wellFormed = true
      ∧ decode 0x0000FF31#32 = .ok (.auth 255) := by decide

/-- One word a clause: no opcode (with and without reserved bits), a reserved bit at each end, neither. -/
theorem witness_DecodeIsTotalAndOrdered :
    let legal : Nat → Prop := fun op => op ∈ [0x00, 0x01, 0x02, 0x03, 0x04, 0x10, 0x20, 0x21, 0x22, 0x30, 0x31]
    ¬ legal (0x00000005#32 : Word).toNat ∧ ¬ legal ((0xFFFF0032#32 : Word).toNat % 256)
      ∧ (legal ((0x00010031#32 : Word).toNat % 256) ∧ (0x00010031#32 : Word).toNat / 65536 ≠ 0)
      ∧ (legal ((0x80000000#32 : Word).toNat % 256) ∧ (0x80000000#32 : Word).toNat / 65536 ≠ 0)
      ∧ legal ((0x0000FF31#32 : Word).toNat % 256) ∧ (0x0000FF31#32 : Word).toNat / 65536 = 0 := by decide

theorem witness_StepRunsTheDecodedCommand :
    let s := inFlight (at0 zeroSlot 0 0 0 0 0 0) 0x00000010#32
    let u := { s with schedule := [.engine, .read 0x014 .w32] }
    (s.faulted = false ∧ s.status.busy = true ∧ decode s.lcmd = .ok (.derive 0) ∧ s.schedule = [])
      ∧ u.faulted = false ∧ u.status.busy = true ∧ decode u.lcmd = .ok (.derive 0)
      ∧ u.schedule = .engine :: [.read 0x014 .w32] := by decide

/-- With no input left, and with the engine's turn next. -/
theorem witness_ReservedWordRaisesReservedBits :
    let s := inFlight State.reset 0x00010031#32
    let u := { s with schedule := [.engine, .reset] }
    s.faulted = false ∧ s.status.busy = true ∧ s.schedule.head?.getD .engine = .engine
      ∧ u.schedule.head?.getD .engine = .engine
      ∧ s.lcmd.toNat % 256 ∈ [0x00, 0x01, 0x02, 0x03, 0x04, 0x10, 0x20, 0x21, 0x22, 0x30, 0x31]
      ∧ s.lcmd.toNat / 65536 ≠ 0 := by decide

theorem witness_IllegalWordRaisesIllegalOpcode :
    let s := inFlight State.reset 0xFFFFFFFF#32
    s.faulted = false ∧ s.status.busy = true ∧ s.schedule.head?.getD .engine = .engine
      ∧ s.lcmd.toNat % 256 ∉ [0x00, 0x01, 0x02, 0x03, 0x04, 0x10, 0x20, 0x21, 0x22, 0x30, 0x31] := by decide

theorem witness_CmdWriteWhileIdleIssues :
    let s := { served (.write 0x010 .w32 0x31) with status := { Status.reset with done := true, overrun := true } }
    s.faulted = false ∧ s.status.busy = false ∧ s.schedule = .write 0x010 .w32 0x31 :: [] := by decide

/-- Clause 1: a CMD write in flight. Clause 2: an engine's turn with OVERRUN set. Clause 3: bit 4 written. -/
theorem witness_OverrunIsSetAndSticky :
    let s := { inFlight State.reset 0 with schedule := [.write 0x010 .w32 0] }
    let u := { served .engine with status := { Status.reset with overrun := true } }
    let v := { served (.write 0x014 .w32 0x10) with status := { Status.reset with overrun := true } }
    (s.faulted = false ∧ s.status.busy = true ∧ s.schedule = .write 0x010 .w32 0 :: [])
      ∧ ((∃ t, step u = .next t) ∧ u.status.overrun = true ∧ u.schedule = [.engine])
      ∧ v.faulted = false ∧ (0x10#32 : Word).getLsbD 4 = true ∧ v.schedule = .write 0x014 .w32 0x10 :: [] :=
  ⟨by decide, ⟨⟨_, rfl⟩, by decide⟩, by decide⟩

theorem witness_CommandInFlightCompletes :
    let s := inFlight (at0 keyedSlot 0 12 11 0 0 0) 0x30#32
    s.faulted = false ∧ s.status.busy = true ∧ s.schedule.head?.getD .engine = .engine := by decide

theorem witness_ResetInputLeavesResetValues :
    let s := { inFlight (at0 keyedSlot 0 0 0 0 0 0) 0x30#32 with schedule := [.reset, .engine] }
    s.faulted = false ∧ s.schedule = .reset :: [.engine] := by decide

/-- ENCRYPT has the most operands; NOP has none. -/
theorem witness_AssembledLineIssuesItsCommand :
    let a := AsmCommand.nop
    let b := AsmCommand.encrypt 1 0 12 11 0 0xdeadbeef
    let s : State := { State.reset with schedule := a.events }
    let u : State := { State.reset with schedule := b.events ++ [.reset] }
    (s.faulted = false ∧ s.status.busy = false ∧ s.schedule = a.events ++ [])
      ∧ u.faulted = false ∧ u.status.busy = false ∧ u.schedule = b.events ++ [.reset] := by decide

/-- A slot as CTX_NEW builds it, in a state with DERIVE in flight on it: every part of the invariant holds, and the step
answers a next state. -/
theorem zeroSlot_ok : zeroSlot.Ok := by
  have h := newSlot_ok (q := ⟨0, 1, 1, 16, 14, 16, 20, 14, 10, 0⟩) (by decide) 0xdeadbeef 0 (mk := zeros 16)
    (ms := zeros 14) (mki := []) (by decide) (by decide) (by decide)
  exact (show newSlot Config.hasSkein Config.skeinMacBytes ⟨0, 1, 1, 16, 14, 16, 20, 14, 10, 0⟩ 0xdeadbeef 0 (zeros 16)
    (zeros 14) [] = zeroSlot by decide +kernel) ▸ h

theorem reset_slot {c : Nat} {k : Slot} (h : State.reset.slot? c = some k) : k = Slot.reset := by
  simp only [State.slot?, State.reset, Vector.getElem?_replicate] at h
  split at h
  · exact (Option.some.inj h).symm
  · cases h

/-- A live state with DERIVE in flight meets every part of the invariant, and its step answers a next state. -/
theorem witness_StepKeepsInvariant :
    let s := inFlight (at0 zeroSlot 0 0 0 0 0 0) 0x10#32
    s.Ok ∧ ∃ t, step s = .next t := by
  refine ⟨⟨?_, by decide, rfl, rfl, fun _ => ⟨rfl, rfl⟩, fun _ => ⟨rfl, rfl⟩, by decide⟩, next_of_isSome (by decide +kernel)⟩
  intro c k h
  by_cases hc : c = 0
  · subst hc
    exact (Option.some.inj (show some zeroSlot = some k from h)) ▸ zeroSlot_ok
  · have g : (State.reset.setSlot 0 zeroSlot).slot? c = some k := h
    rw [State.slot?_setSlot_other zeroSlot hc] at g
    exact reset_slot g ▸ Slot.reset_ok

/-- An F8 slot that meets the slot invariant, as CTX_NEW builds it: its algorithms run, and its master key is usable; and
the same slot with derived keys. -/
theorem witness_AesKeysAreSixteenOrThirtyTwoBytes :
    ∃ k : Slot, k.Ok ∧ k.encAlgo = .aesF8 ∧ k.kdfOk = true ∧ (k.deriveKeys 0).Ok ∧ (k.deriveKeys 0).keysValid = true := by
  have h := newSlot_ok (q := ⟨0, 2, 1, 32, 14, 32, 64, 14, 20, 16⟩) (by decide) 0 0 (mk := zeros 32) (ms := zeros 14)
    (mki := zeros 16) (by decide) (by decide) (by decide)
  have hk := (h.enc_usable (by decide +kernel)).1
  exact ⟨_, h, by decide +kernel, hk, Slot.deriveKeys_ok h hk rfl 0, Slot.deriveKeys_keysValid _ _⟩

theorem witness_IdentityRegisters :
    (served (.read 0x000 .w32)).faulted = false ∧ (served (.read 0x000 .w32)).schedule = .read 0x000 .w32 :: []
      ∧ (served (.read 0x004 .w32)).schedule = .read 0x004 .w32 :: []
      ∧ (served (.write 0x000 .w32 7)).schedule = .write 0x000 .w32 7 :: []
      ∧ (served (.write 0x004 .w32 7)).schedule = .write 0x004 .w32 7 :: [] := by decide

theorem witness_StatusReadsItsFields :
    let s := { served (.read 0x014 .w32) with status := { Status.reset with done := true, err := true, errCode := 6 } }
    s.faulted = false ∧ s.schedule = .read 0x014 .w32 :: [] := by decide

theorem witness_StatusWriteClearsDoneAndOverrun :
    let s := { served (.write 0x014 .w32 0xFFFFFFFF) with status := { Status.reset with done := true, overrun := true } }
    s.faulted = false ∧ s.schedule = .write 0x014 .w32 0xFFFFFFFF :: [] := by decide

theorem witness_IrqEnableRegister :
    (served (.write 0x01C .w32 0xFFFFFFFF)).faulted = false
      ∧ (served (.write 0x01C .w32 0xFFFFFFFF)).schedule = .write 0x01C .w32 0xFFFFFFFF :: []
      ∧ (served (.read 0x01C .w32)).schedule = .read 0x01C .w32 :: [] := by decide

/-- Both ends of every reserved range, read and written, and every width above the window. -/
theorem witness_ReservedOffsetsReadZeroAndIgnoreWrites :
    ∀ x ∈ [(0x024, Width.w32), (0x03C, .w32), (0x080, .w32), (0xFFFC, .w32), (0x14000, .w8), (0x14001, .w16),
        (0x14002, .w32), (0x1FFFC, .w32), (0x1FFFF, .w8)],
      (served (.read x.1 x.2)).faulted = false
        ∧ (x.2 = .w32 ∧ x.1 % 4 = 0 ∧ ((0x024 ≤ x.1 ∧ x.1 < 0x040) ∨ (0x080 ≤ x.1 ∧ x.1 < 0x10000))
          ∨ (0x10000 + Config.bufBytes ≤ x.1 ∧ x.1 + x.2.bytes ≤ 0x20000))
        ∧ (served (.read x.1 x.2)).schedule = .read x.1 x.2 :: []
        ∧ (served (.write x.1 x.2 7)).schedule = .write x.1 x.2 7 :: [] := by decide

/-- A narrow access, and a misaligned one, at the ends of the region. -/
theorem witness_RegisterAccessesAreAlignedWords :
    ∀ x ∈ [(0x000, Width.w8), (0x014, .w16), (0x002, .w32), (0xFFFF, .w32)],
      (served (.read x.1 x.2)).faulted = false ∧ x.1 < 0x10000 ∧ (x.2 ≠ .w32 ∨ x.1 % 4 ≠ 0)
        ∧ (served (.read x.1 x.2)).schedule = .read x.1 x.2 :: []
        ∧ (served (.write x.1 x.2 7)).schedule = .write x.1 x.2 7 :: [] := by decide

/-- Both ends of the window, and both ends of the registers, with a command in flight. -/
theorem witness_WindowIsRefusedWhileBusy :
    let s (e : Event) : State := { inFlight State.reset 0 with schedule := [e] }
    (∀ off ∈ [0x10000, 0x13FFF], (s (.read off .w8)).faulted = false ∧ (s (.read off .w8)).status.busy = true
        ∧ 0x10000 ≤ off ∧ off < 0x10000 + Config.bufBytes ∧ (s (.read off .w8)).schedule = .read off .w8 :: []
        ∧ (s (.write off .w8 7)).schedule = .write off .w8 7 :: [])
      ∧ ∀ off ∈ [0x000, 0x014, 0xFFFC], (s (.read off .w32)).faulted = false ∧ (s (.read off .w32)).status.busy = true
        ∧ off < 0x10000 ∧ off % 4 = 0 ∧ (s (.read off .w32)).schedule = .read off .w32 :: []
        ∧ (s (.write off .w32 7)).schedule = .write off .w32 7 :: [] := by decide

/-- Clause 1: the first word, the last word and the last byte. Clause 2: misaligned at either end. -/
theorem witness_WindowWriteStoresLanes :
    (∀ x ∈ [(0, Width.w32), (16380, .w32), (16382, .w16), (16383, .w8)],
      let s := served (.write (0x10000 + x.1) x.2 0x44332211)
      s.faulted = false ∧ s.status.busy = false ∧ x.1 < Config.bufBytes ∧ x.1 % x.2.bytes = 0
        ∧ s.schedule = .write (0x10000 + x.1) x.2 0x44332211 :: [])
      ∧ ∀ x ∈ [(1, Width.w16), (2, .w32), (16383, .w16), (16381, .w32)],
        (served (.write (0x10000 + x.1) x.2 7)).faulted = false ∧ (served (.read (0x10000 + x.1) x.2)).faulted = false
          ∧ (served (.read (0x10000 + x.1) x.2)).status.busy = false ∧ x.1 < Config.bufBytes ∧ x.1 % x.2.bytes ≠ 0
          ∧ (served (.write (0x10000 + x.1) x.2 7)).schedule = .write (0x10000 + x.1) x.2 7 :: []
          ∧ (served (.read (0x10000 + x.1) x.2)).schedule = .read (0x10000 + x.1) x.2 :: [] := by decide

/-- Clause 1: the last word, written. Clause 2: a half-word with one byte unwritten. -/
theorem witness_WindowReadReturnsLanes :
    let s := withBytes (served (.read 0x13FFC .w32)) 16380 [1, 2, 3, 4]
    let u := withBytes (served (.read 0x10000 .w16)) 0 [1]
    (s.faulted = false ∧ s.status.busy = false ∧ 16380 + Width.w32.bytes ≤ Config.bufBytes
        ∧ 16380 % Width.w32.bytes = 0 ∧ s.schedule = .read (0x10000 + 16380) .w32 :: []
        ∧ ([1, 2, 3, 4] : Bytes).length = Width.w32.bytes ∧ s.buf.holds 16380 [1, 2, 3, 4])
      ∧ u.faulted = false ∧ u.status.busy = false ∧ 0 + Width.w16.bytes ≤ Config.bufBytes ∧ 0 % Width.w16.bytes = 0
        ∧ u.schedule = .read (0x10000 + 0) .w16 :: [] ∧ ¬ u.buf.written 0 Width.w16.bytes := by
  refine ⟨⟨rfl, rfl, by decide, by decide, rfl, rfl, holds_of_read (by decide)⟩, rfl, rfl, by decide, by decide, rfl, ?_⟩
  intro h
  obtain ⟨b, hb⟩ := h 1 (by decide)
  cases (show none = some b from hb)

/-- An UPDATE that runs: the hypothesis of CompletionOfEveryCommand, of FrameOfEveryCommand and of RocNeverDecreases. -/
theorem witness_CompletionOfEveryCommand :
    ∃ t, exec (.update 0) (at0 (windowSlot 65533 0xD) 2 0 0 0 0 0) = .next t := next_of_isSome (by decide +kernel)

/-- Each command of the second clause. -/
theorem witness_CommandsAreNeverRefused :
    Instr.update 0 ∈ [Instr.nop 0, .ctxClone 0, .ctxDestroy 0, .ctxStatus 0, .derive 0, .guess 0, .check 0, .update 0] := by
  decide

theorem witness_CommandsFaultOnlyAtUnwrittenBytes :
    ∃ f, exec (.encrypt 0) (at0 keyedSlot 0 12 11 0 0 0) = .fault f := ⟨_, rfl⟩

/-- Each clause's command: NOP, UPDATE, ENCRYPT over written bytes, and AUTH with a slot. -/
theorem witness_FrameOfEveryCommand :
    (∃ t, exec (.nop 0) State.reset = .next t) ∧ (∃ t, exec (.update 0) (at0 (windowSlot 65533 0xD) 2 0 0 0 0 0) = .next t)
      ∧ (∃ t, exec (.encrypt 0) (withBytes (at0 keyedSlot 0 12 11 0 0 0) 0 plainPacket) = .next t)
      ∧ (∃ t, exec (.auth 0) (withBytes (at0 keyedSlot 0 23 0 16374 0 0) 0 plainPacket) = .next t)
      ∧ (withBytes (at0 keyedSlot 0 23 0 16374 0 0) 0 plainPacket).slot? 0 = some keyedSlot :=
  ⟨⟨_, rfl⟩, next_of_isSome (by decide +kernel), next_of_isSome (by decide +kernel), next_of_isSome (by decide +kernel), rfl⟩

/-- GUESS is neither CHECK nor a construction, and it runs. -/
theorem witness_StatusFrameOfEveryCommand :
    (∃ t, exec (.guess 0) (at0 (windowSlot 65530 1) 2 0 0 0 0 0) = .next t)
      ∧ (∀ c, Instr.guess 0 ≠ .check c) ∧ ∀ c, Instr.guess 0 ≠ .ctxNew c ∧ Instr.guess 0 ≠ .ctxClone c :=
  ⟨next_of_isSome (by decide +kernel), by simp, by simp⟩

/-- Bounds one past the buffer's end. -/
theorem witness_ErrorsChangeOnlyStatusAndErrinfo :
    let s := at0 keyedSlot 16384 1 0 0 0 0
    ∃ t, exec (.encrypt 0) s = .next t ∧ s.status.err = false ∧ t.status.err = true := ⟨_, rfl, rfl, rfl⟩

/-- The first slot number that is out of range, and the last the field holds. -/
theorem witness_SlotNumberOutOfRangeRaisesBadCtx : Config.numCtx ≤ 16 ∧ Config.numCtx ≤ 255 := by decide

/-- Clause 1: the reset slot is invalid. Clause 2: an invalid source, and one out of range, for the last slot. -/
theorem witness_InvalidSlotRaisesBadCtx :
    (State.reset.slot? 15 = some Slot.reset ∧ Slot.reset.valid = false)
      ∧ (15 < Config.numCtx ∧ ∀ u, (at0 keyedSlot 1 0 0 0 0 0).slot? (1#32 : Word).toNat = some u → u.valid = false)
      ∧ (∀ u, (at0 keyedSlot 16 0 0 0 0 0).slot? (16#32 : Word).toNat = some u → u.valid = false) := by
  refine ⟨⟨rfl, rfl⟩, ⟨by decide, fun u h => ?_⟩, fun u h => ?_⟩
  · exact Option.some.inj (show some Slot.reset = some u from h) ▸ rfl
  · cases (show none = some u from h)

/-- DERIVE keeps the configuration and the index; UPDATE keeps the configuration and the keys. -/
theorem witness_WhichCommandsWriteWhichSlotFields :
    ∀ i ∈ [Instr.derive 0, .update 0],
      (∃ t, exec i (at0 (windowSlot 65533 0xD) 2 0 0 0 0 0) = .next t)
        ∧ (at0 (windowSlot 65533 0xD) 2 0 0 0 0 0).slot? 0 = some (windowSlot 65533 0xD)
        ∧ ((slotAfter (exec i (at0 (windowSlot 65533 0xD) 2 0 0 0 0 0))).isSome = true)
        ∧ ∀ c, i ≠ .ctxNew c ∧ i ≠ .ctxClone c ∧ i ≠ .ctxDestroy c := by
  intro i hi
  simp only [List.mem_cons, List.not_mem_nil, or_false] at hi
  obtain rfl | rfl := hi
  · exact ⟨next_of_isSome (by decide +kernel), rfl, by decide +kernel, by simp⟩
  · exact ⟨next_of_isSome (by decide +kernel), rfl, by decide +kernel, by simp⟩

/-- States that differ in the master key and the session keys of slot 0. -/
def otherKeys : Slot := { keyedSlot with masterKey := padTo 32 [1], kE := padTo 32 [2] }

theorem agree_otherKeys (f : State → State) (h : ∀ k, (f (at0 k 0 0 0 0 0 0)).slots = (at0 k 0 0 0 0 0 0).slots)
    (g : ({ f (at0 keyedSlot 0 0 0 0 0 0) with slots := (f (at0 otherKeys 0 0 0 0 0 0)).slots } : State)
      = f (at0 otherKeys 0 0 0 0 0 0)) :
    (f (at0 keyedSlot 0 0 0 0 0 0)).AgreeButSecrets (f (at0 otherKeys 0 0 0 0 0 0)) := by
  refine ⟨fun c => ?_, g⟩
  rw [State.slot?_congr (h keyedSlot), State.slot?_congr (h otherKeys)]
  by_cases hc : c = 0
  · subst hc; exact congrArg some (by decide +kernel)
  · have e (k : Slot) : (at0 k 0 0 0 0 0 0).slot? c = State.reset.slot? c := State.slot?_setSlot_other k hc
    rw [e, e]

/-- DERIVE in flight, at the engine's turn; and an ENCRYPT in flight or completed, with a host read of STATUS to serve. -/
theorem witness_SecretsDoNotReachTheHost :
    (let f := fun s => inFlight s 0x10#32
     f (at0 keyedSlot 0 0 0 0 0 0) ≠ f (at0 otherKeys 0 0 0 0 0 0)
      ∧ (f (at0 keyedSlot 0 0 0 0 0 0)).AgreeButSecrets (f (at0 otherKeys 0 0 0 0 0 0))
      ∧ (∀ c, decode (f (at0 keyedSlot 0 0 0 0 0 0)).lcmd ≠ .ok (.encrypt c)
        ∧ decode (f (at0 keyedSlot 0 0 0 0 0 0)).lcmd ≠ .ok (.auth c))
      ∧ ∃ u, step (f (at0 keyedSlot 0 0 0 0 0 0)) = .next u)
      ∧ ∀ busy : Bool, let f := fun s : State => { inFlight s 0x30#32 with
          status := { Status.reset with busy := busy }, schedule := [.read 0x014 .w32] }
        (f (at0 keyedSlot 0 0 0 0 0 0)).AgreeButSecrets (f (at0 otherKeys 0 0 0 0 0 0))
          ∧ (f (at0 keyedSlot 0 0 0 0 0 0)).schedule.head?.getD .engine ≠ .engine
          ∧ ∃ u, step (f (at0 keyedSlot 0 0 0 0 0 0)) = .next u := by
  refine ⟨⟨by decide +kernel, agree_otherKeys (fun s => inFlight s 0x10#32) (fun _ => rfl) rfl, fun c => ?_,
      next_of_isSome (by decide +kernel)⟩,
    fun busy => ⟨agree_otherKeys (fun s : State => { inFlight s 0x30#32 with
      status := { Status.reset with busy := busy }, schedule := [.read 0x014 .w32] }) (fun _ => rfl) rfl, nofun, _, rfl⟩⟩
  have h : decode (inFlight (at0 keyedSlot 0 0 0 0 0 0) 0x10#32).lcmd = .ok (.derive 0) := by decide
  rw [h]; simp

/-- A block with every length at its largest, at the buffer's end. -/
def fullBlock : Bytes :=
  [1, 2, 2, 32, 14, 32, 64, 14, 20, 16, 0, 0] ++ be 4 0xdeadbeef ++ be 8 0x400 ++ rep 0x11 32 ++ rep 0x22 14 ++ zeros 2
    ++ rep 0x33 16

theorem witness_CtxNewBuildsTheSlotFromTheBlock :
    let s := withBytes (at0 Slot.reset 16296 0 0 0 0 0) 16296 fullBlock
    let b : Nat → Byte := fun j => fullBlock.getD j 0
    0 < Config.numCtx ∧ s.larg[0].toNat + 88 ≤ Config.bufBytes
      ∧ (∀ j, (j < 10 ∨ (12 ≤ j ∧ j < 24) ∨ (24 ≤ j ∧ j < 24 + (b 3).toNat) ∨ (56 ≤ j ∧ j < 56 + (b 4).toNat)
        ∨ (72 ≤ j ∧ j < 72 + (b 9).toNat)) → s.buf.read (s.larg[0].toNat + j) = some (b j))
      ∧ (b 0).toNat ≤ 1 ∧ (b 3).toNat ≤ 32 ∧ (b 4).toNat ≤ 14 ∧ (b 5).toNat ≤ 32
      ∧ (b 6).toNat ≤ Config.maxAuthKeyBytes ∧ (b 7).toNat ≤ 14 ∧ (b 9).toNat ≤ Config.maxMkiBytes := by
  refine ⟨by decide, by decide, fun j h => ?_, by decide, by decide, by decide, by decide, by decide, by decide, by decide⟩
  have h3 : (fullBlock.getD 3 0).toNat = 32 := by decide
  have h4 : (fullBlock.getD 4 0).toNat = 14 := by decide
  have h9 : (fullBlock.getD 9 0).toNat = 16 := by decide
  rw [h3, h4, h9] at h
  have hl : fullBlock.length = 88 := by decide
  have hj : j < fullBlock.length := by omega
  have g : Memory.holds (withBytes (at0 Slot.reset 16296 0 0 0 0 0) 16296 fullBlock).buf 16296 fullBlock :=
    holds_of_read (by decide +kernel)
  exact (g j hj).trans (congrArg some (by simp [List.getD, hj]))

/-- Every field over its capacity at once reports the first, a last field over it alone reports itself, and a block with
every field at its capacity is written whole. -/
theorem witness_CtxNewReportsTheFirstFieldOverCapacity :
    let allOver : Bytes := [2, 0, 0, 33, 15, 33, 65, 15, 0, 17]
    let last : Bytes := [1, 0, 0, 32, 14, 32, 64, 14, 255, 17]
    let s (b : Bytes) : State := withBytes (at0 Slot.reset 16296 0 0 0 0 0) 16296 b
    let exceeds : Bytes → Nat → Prop := fun b o =>
      (o = 0 ∧ (b.getD 0 0).toNat > 1) ∨ (o = 3 ∧ (b.getD 3 0).toNat > 32) ∨ (o = 4 ∧ (b.getD 4 0).toNat > 14)
        ∨ (o = 5 ∧ (b.getD 5 0).toNat > 32) ∨ (o = 6 ∧ (b.getD 6 0).toNat > Config.maxAuthKeyBytes)
        ∨ (o = 7 ∧ (b.getD 7 0).toNat > 14) ∨ (o = 9 ∧ (b.getD 9 0).toNat > 16)
    (∀ x ∈ [(allOver, 0), (last, 9)],
      0 < Config.numCtx ∧ (s x.1).larg[0].toNat + 88 ≤ Config.bufBytes
        ∧ (∀ j, j < 10 → (s x.1).buf.read ((s x.1).larg[0].toNat + j) = some (x.1.getD j 0))
        ∧ exceeds x.1 x.2 ∧ ∀ o, o < x.2 → ¬ exceeds x.1 o)
      ∧ (∀ o, ¬ exceeds fullBlock o) ∧ (s fullBlock).buf.written (s fullBlock).larg[0].toNat 88 := by
  refine ⟨by decide +kernel, fun o h => ?_, (Memory.readBytes_ok_iff_written _ _ _).1 ⟨fullBlock, by decide +kernel⟩⟩
  have h0 : (fullBlock.getD 0 0).toNat = 1 := by decide
  have h3 : (fullBlock.getD 3 0).toNat = 32 := by decide
  have h4 : (fullBlock.getD 4 0).toNat = 14 := by decide
  have h5 : (fullBlock.getD 5 0).toNat = 32 := by decide
  have h6 : (fullBlock.getD 6 0).toNat = Config.maxAuthKeyBytes := by decide
  have h7 : (fullBlock.getD 7 0).toNat = 14 := by decide
  have h9 : (fullBlock.getD 9 0).toNat = 16 := by decide
  simp only [h0, h3, h4, h5, h6, h7, h9] at h
  omega

/-- An SRTP source and an SRTCP source, for the last slot. -/
theorem witness_CtxCloneCopiesTheSource :
    ∀ k ∈ [keyedSlot, { keyedSlot with kind := .srtcp }],
      15 < Config.numCtx ∧ (at0 k 0 1 2 3 4 0).slot? (at0 k 0 1 2 3 4 0).larg[0].toNat = some k ∧ k.valid = true := by
  decide +kernel

theorem witness_CtxDestroyLeavesTheResetSlot : 15 < Config.numCtx ∧ Config.numCtx ≤ 16 ∧ 255 < 256 := by decide

/-- A live slot, an invalid one that meets the invariant, and a slot number out of range. -/
theorem witness_CtxStatusReadsTheSlot :
    (at0 keyedSlot 0 0 0 0 0 0).slot? 0 = some keyedSlot
      ∧ (State.reset.slot? 15 = some Slot.reset ∧ Slot.reset.Ok ∧ Slot.reset.valid = false)
      ∧ Config.numCtx ≤ 16 ∧ 255 < 256 :=
  ⟨rfl, ⟨rfl, Slot.reset_ok, rfl⟩, by decide⟩

/-- Words with NOP's opcode, with RSVD 0 and not. -/
theorem witness_NopOnlyCompletes :
    ((0x0000FF00#32 : Word).toNat % 256 = 0x00 ∧ (0x0000FF00#32 : Word).toNat / 65536 = 0)
      ∧ (0x80000000#32 : Word).toNat % 256 = 0x00 ∧ (0x80000000#32 : Word).toNat / 65536 ≠ 0 := by decide

/-- No rate, a rate of 3, and the rates 2^0 and 2^63. -/
theorem witness_KeyDerivationIndex :
    (0 : BitVec 64) = 0 ∧ (3 : BitVec 64) ≠ 0 ∧ (1 : BitVec 64).toNat = 2 ^ 0
      ∧ (0x8000000000000000 : BitVec 64).toNat = 2 ^ 63 := by decide

/-- The shortest and the longest usable master key, with the key fields at their capacities, in both slot kinds. -/
theorem witness_DeriveWritesTheSessionKeys :
    ∀ k ∈ [zeroSlot, { zeroSlot with kind := .srtcp, mkLen := 32, nE := 32, nA := 64, kdr := 1024 }],
      (at0 k 0xFFFFFFFF 5 0 0 0 0).slot? 0 = some k ∧ k.valid = true ∧ (k.mkLen.toNat = 16 ∨ k.mkLen.toNat = 32)
        ∧ k.nE.toNat ≤ 32 ∧ k.nA.toNat ≤ Config.maxAuthKeyBytes ∧ k.nS.toNat ≤ 14 := by decide +kernel

/-- Lengths next to the usable ones. -/
theorem witness_DeriveWithoutMasterKeyIsANoOp :
    ∀ n ∈ [(0 : Byte), 15, 17, 31],
      let k := { zeroSlot with mkLen := n, encAlgo := .null, authAlgo := .null }
      (at0 k 0 0 0 0 0 0).slot? 0 = some k ∧ k.valid = true ∧ k.mkLen.toNat ≠ 16 ∧ k.mkLen.toNat ≠ 32 := by
  decide +kernel

/-- A first packet, and a later one at either side of the guess's split. -/
theorem witness_GuessAnswersTheIndex :
    ∀ k ∈ [zeroSlot, windowSlot 32767 1, windowSlot 32768 1],
      (at0 k 0xFFFFFFFF 0 0 0 0 0).slot? 0 = some k ∧ k.valid = true ∧ k.kind = .srtp := by decide +kernel

theorem witness_GuessOnSrtcpRaisesBadKind :
    let k := { zeroSlot with kind := .srtcp }
    (at0 k 5 0 0 0 0 0).slot? 0 = some k ∧ k.valid = true ∧ k.kind = .srtcp := by decide +kernel

/-- A slot a clause: null algorithms, a first packet, and one that is newer, exactly 64 behind, and less than 64 behind
with its bit clear. -/
theorem witness_CheckVerdict :
    (∀ k ∈ [{ zeroSlot with encAlgo := .null, authAlgo := .null }, zeroSlot, windowSlot 100 1],
        (at0 k 36 0 0 0 0 0).slot? 0 = some k ∧ k.valid = true)
      ∧ ¬ (zeroSlot.encAlgo = .null ∧ zeroSlot.authAlgo = .null) ∧ zeroSlot.seqSet = false
      ∧ ¬ ((windowSlot 100 1).encAlgo = .null ∧ (windowSlot 100 1).authAlgo = .null) ∧ (windowSlot 100 1).seqSet = true
      ∧ (windowSlot 100 1).lastNat < (windowSlot 100 1).currentNat 101
      ∧ (windowSlot 100 1).lastNat = (windowSlot 100 1).currentNat 36 + 64
      ∧ (windowSlot 100 1).lastNat < (windowSlot 100 1).currentNat 37 + 64
      ∧ (windowSlot 100 1).replayMask.getLsbD ((windowSlot 100 1).lastNat - (windowSlot 100 1).currentNat 37) = false := by
  decide +kernel

/-- Newer by 1, the same packet, and one behind by more than the window. -/
theorem witness_UpdateCommitsThePacket :
    (at0 (windowSlot 100 1) 101 0 0 0 0 0).slot? 0 = some (windowSlot 100 1) ∧ (windowSlot 100 1).valid = true
      ∧ (windowSlot 100 1).seqSet = true
      ∧ (windowSlot 100 1).lastNat < (windowSlot 100 1).currentNat 101
      ∧ (windowSlot 100 1).currentNat 100 ≤ (windowSlot 100 1).lastNat
      ∧ (windowSlot 100 1).currentNat 36 ≤ (windowSlot 100 1).lastNat := by decide +kernel

theorem witness_UpdateOfAFirstPacket :
    (at0 zeroSlot 0xFFFFFFFF 0 0 0 0 0).slot? 0 = some zeroSlot ∧ zeroSlot.valid = true ∧ zeroSlot.seqSet = false := by
  decide +kernel

/-- A packet 63 behind, the oldest the window records. -/
theorem witness_CheckAfterUpdateRejects :
    let s := at0 (windowSlot 100 1) 37 0 0 0 0 0
    s.slot? 0 = some (windowSlot 100 1) ∧ (windowSlot 100 1).valid = true
      ∧ ¬ ((windowSlot 100 1).encAlgo = .null ∧ (windowSlot 100 1).authAlgo = .null)
      ∧ ((windowSlot 100 1).seqSet = true → (windowSlot 100 1).lastNat < (windowSlot 100 1).currentNat (s.xNat .srtp) + 64)
      ∧ ∃ t, exec (.update 0) s = .next t :=
  ⟨rfl, rfl, by decide, fun _ => by decide +kernel, next_of_isSome (by decide +kernel)⟩

/-- UPDATE across a wrap of the sequence number, which raises roc. -/
theorem witness_RocNeverDecreases :
    let s := at0 (windowSlot 65533 0xD) 2 0 0 0 0 0
    (∃ t, exec (.update 0) s = .next t) ∧ s.slot? 0 = some (windowSlot 65533 0xD)
      ∧ (slotAfter (exec (.update 0) s)).isSome = true ∧ (windowSlot 65533 0xD).seqSet = true
      ∧ ∀ c, Instr.update 0 ≠ .ctxNew c ∧ Instr.update 0 ≠ .ctxClone c ∧ Instr.update 0 ≠ .ctxDestroy c :=
  ⟨next_of_isSome (by decide +kernel), rfl, by decide +kernel, rfl, by simp⟩

/-- An index on the first packet of a new key period, and the last one of the old: the two sides of a rekey, for every
statement that has them. -/
theorem witness_rekeys :
    let k := { keyedSlot with kdr := 1024 }
    (k.keysValid = true ∧ k.kdr ≠ 0 ∧ 1024 / k.kdr.toNat ≠ k.lastR.toNat)
      ∧ ¬ (k.keysValid = true ∧ k.kdr ≠ 0 ∧ 1023 / k.kdr.toNat ≠ k.lastR.toNat) := by decide +kernel

/-- A payload that ends at the buffer's last byte, and an empty one there. -/
theorem witness_EncryptAppliesTheCounterModeKeystream :
    let s := withBytes (at0 keyedSlot 16361 12 11 0 0 0xdeadbeef) 16361 plainPacket
    let u := at0 keyedSlot 16372 12 0 0 0 0xdeadbeef
    (s.slot? 0 = some keyedSlot ∧ keyedSlot.valid = true ∧ keyedSlot.encAlgo = .aesCm ∧ keyedSlot.keysValid = true
        ∧ s.larg[0].toNat + (s.larg[1].toNat + s.larg[2].toNat) ≤ Config.bufBytes
        ∧ (plainPacket.drop 12).length = s.larg[2].toNat
        ∧ s.buf.holds (s.larg[0].toNat + s.larg[1].toNat) (plainPacket.drop 12))
      ∧ u.larg[0].toNat + (u.larg[1].toNat + u.larg[2].toNat) ≤ Config.bufBytes
      ∧ ([] : Bytes).length = u.larg[2].toNat ∧ u.buf.holds (u.larg[0].toNat + u.larg[1].toNat) [] :=
  ⟨⟨rfl, rfl, rfl, rfl, by decide, by decide, holds_of_read (by decide)⟩, by decide, rfl, holds_of_read rfl⟩

/-- An F8 slot, of either kind, with keys. -/
def f8Slot (kind : Kind) : Slot := { keyedSlot with kind := kind, encAlgo := .aesF8 }

/-- The shortest header each slot kind allows. -/
theorem witness_EncryptAppliesTheF8Keystream :
    let s := withBytes (at0 (f8Slot .srtp) 16361 12 11 0 0 0) 16361 plainPacket
    let u := withBytes (at0 (f8Slot .srtcp) 0 8 15 0 0 0) 0 plainPacket
    (s.slot? 0 = some (f8Slot .srtp) ∧ (f8Slot .srtp).valid = true ∧ (f8Slot .srtp).encAlgo = .aesF8
        ∧ (f8Slot .srtp).keysValid = true
        ∧ s.larg[0].toNat + (s.larg[1].toNat + s.larg[2].toNat) ≤ Config.bufBytes
        ∧ (plainPacket.drop 12).length = s.larg[2].toNat
        ∧ s.buf.holds (s.larg[0].toNat + s.larg[1].toNat) (plainPacket.drop 12)
        ∧ (plainPacket.take 12).length = 12 ∧ (plainPacket.take 12).length ≤ s.larg[1].toNat
        ∧ s.buf.holds s.larg[0].toNat (plainPacket.take 12))
      ∧ u.slot? 0 = some (f8Slot .srtcp) ∧ (f8Slot .srtcp).valid = true
      ∧ u.larg[0].toNat + (u.larg[1].toNat + u.larg[2].toNat) ≤ Config.bufBytes
      ∧ (plainPacket.drop 8).length = u.larg[2].toNat
      ∧ u.buf.holds (u.larg[0].toNat + u.larg[1].toNat) (plainPacket.drop 8)
      ∧ (plainPacket.take 8).length = 8 ∧ (plainPacket.take 8).length ≤ u.larg[1].toNat
      ∧ u.buf.holds u.larg[0].toNat (plainPacket.take 8) :=
  ⟨⟨rfl, rfl, rfl, rfl, by decide, by decide, holds_of_read (by decide), by decide, by decide, holds_of_read (by decide)⟩,
    rfl, rfl, by decide, by decide, holds_of_read (by decide), by decide, by decide, holds_of_read (by decide)⟩

/-- Null encryption; and no session keys, with AES-CM, and with AES-F8 and its shortest header. -/
theorem witness_EncryptWithoutCipherOrKeysIsANoOp :
    ∀ k ∈ [{ keyedSlot with encAlgo := .null }, zeroSlot, { zeroSlot with encAlgo := .aesF8 }],
      let s := at0 k 16361 12 11 0 0 0
      s.slot? 0 = some k ∧ k.valid = true
        ∧ s.larg[0].toNat + (s.larg[1].toNat + s.larg[2].toNat) ≤ Config.bufBytes
        ∧ (k.encAlgo = .null ∨ (k.keysValid = false
          ∧ (k.encAlgo = .aesF8 → (match k.kind with | .srtp => 12 | .srtcp => 8) ≤ s.larg[1].toNat))) := by
  decide +kernel

/-- One past the end for each range, with sums past 32 bits, and a header one byte short for each slot kind. -/
theorem witness_RangeErrors :
    (0 < Config.numCtx ∧ Config.bufBytes < (16297#32 : Word).toNat + 88)
      ∧ ((at0 keyedSlot 16384 1 0 16375 0 0).slot? 0 = some keyedSlot ∧ keyedSlot.valid = true)
      ∧ Config.bufBytes < (16384#32 : Word).toNat + (1#32 : Word).toNat + (0#32 : Word).toNat
      ∧ Config.bufBytes < (0xFFFFFFFF#32 : Word).toNat + (1#32 : Word).toNat + (0#32 : Word).toNat
      ∧ (∀ x ∈ [(f8Slot .srtp, 11), (f8Slot .srtcp, 7)], (at0 x.1 0 x.2 0 0 0 0).slot? 0 = some x.1 ∧ x.1.valid = true
        ∧ (at0 x.1 0 x.2 0 0 0 0).larg[0].toNat + (at0 x.1 0 x.2 0 0 0 0).larg[1].toNat
          + (at0 x.1 0 x.2 0 0 0 0).larg[2].toNat ≤ Config.bufBytes
        ∧ x.1.encAlgo = .aesF8
        ∧ (at0 x.1 0 x.2 0 0 0 0).larg[1].toNat < (match x.1.kind with | .srtp => 12 | .srtcp => 8))
      ∧ Config.bufBytes < (16384#32 : Word).toNat + (1#32 : Word).toNat
      ∧ (0#32 : Word).toNat + (16384#32 : Word).toNat ≤ Config.bufBytes ∧ keyedSlot.authAlgo ≠ .null
      ∧ keyedSlot.keysValid = true ∧ Config.bufBytes < (16375#32 : Word).toNat + keyedSlot.tagLen.toNat := by
  decide +kernel

theorem witness_EncryptTwiceRestoresTheBuffer :
    let s := withBytes (at0 keyedSlot 0 12 11 0 0 0xdeadbeef) 0 plainPacket
    Memory.wf s.buf ∧ ∃ t, exec (.encrypt 0) s = .next t := ⟨by decide, next_of_isSome (by decide +kernel)⟩

/-- Two slots with one configuration and other streams and index state: both commands run on the first. -/
theorem witness_PacketCommandsDependOnKeysAndOperands :
    let l := { keyedSlot with ssrc := 7, roc := 9, sL := 3, seqSet := true }
    let s := withBytes ((at0 keyedSlot 0 12 11 16374 0 5).setSlot 15 l) 0 plainPacket
    s.slot? 0 = some keyedSlot ∧ s.slot? 15 = some l ∧ keyedSlot.SameConfig { l with ssrc := keyedSlot.ssrc }
      ∧ keyedSlot.SameKeys l ∧ keyedSlot.valid = true ∧ (∃ t, exec (.encrypt 0) s = .next t)
      ∧ ∃ t, exec (.auth 0) s = .next t := by
  refine ⟨rfl, rfl, ?_, ?_, rfl, next_of_isSome (by decide +kernel), next_of_isSome (by decide +kernel)⟩ <;>
    constructor <;> rfl

/-- A tag that ends at the buffer's last byte, and an empty message. -/
theorem witness_AuthWritesTheTag :
    let s := withBytes (at0 keyedSlot 0 23 0 16374 0 0) 0 plainPacket
    let u := at0 keyedSlot 16384 0 0 16374 0 0
    (s.slot? 0 = some keyedSlot ∧ keyedSlot.valid = true ∧ keyedSlot.authAlgo ≠ .null ∧ keyedSlot.keysValid = true
        ∧ s.larg[0].toNat + s.larg[1].toNat ≤ Config.bufBytes
        ∧ s.larg[3].toNat + keyedSlot.tagLen.toNat ≤ Config.bufBytes ∧ plainPacket.length = s.larg[1].toNat
        ∧ s.buf.holds s.larg[0].toNat plainPacket)
      ∧ u.larg[0].toNat + u.larg[1].toNat ≤ Config.bufBytes ∧ ([] : Bytes).length = u.larg[1].toNat
      ∧ u.buf.holds u.larg[0].toNat [] :=
  ⟨⟨rfl, rfl, by decide, rfl, by decide, by decide, by decide, holds_of_read (by decide)⟩, by decide, rfl,
    holds_of_read rfl⟩

/-- No algorithm, and no keys, with a region that ends at the buffer's end. -/
theorem witness_AuthWithoutMacOrKeysIsANoOp :
    ∀ k ∈ [{ keyedSlot with authAlgo := .null }, zeroSlot],
      let s := at0 k 16384 0 0 0xFFFFFFFF 0 0
      s.slot? 0 = some k ∧ k.valid = true ∧ (k.authAlgo = .null ∨ k.keysValid = false)
        ∧ s.larg[0].toNat + s.larg[1].toNat ≤ Config.bufBytes := by decide +kernel

/-- A whole block and one byte of the next, and equal lengths. -/
theorem witness_KeystreamsArePrefixes : 16 ≤ 17 ∧ 0 ≤ 0 := by decide

/-- A read and a write of each register, idle and with a command in flight. -/
theorem witness_RegistersReadBackAndIgnoreWrites :
    ∀ off ∈ [0x008, 0x00C, 0x010, 0x018, 0x020, 0x040, 0x05C, 0x060, 0x07C],
      (served (.read off .w32)).faulted = false ∧ (served (.read off .w32)).schedule = .read off .w32 :: []
        ∧ ({ inFlight State.reset 0 with schedule := [.write off .w32 7] } : State).faulted = false
        ∧ ({ inFlight State.reset 0 with schedule := [.write off .w32 7] } : State).schedule = .write off .w32 7 :: [] := by
  decide

end Sys2Proof.Tests
end

section
/-! SUPPORT. What one step does with an aligned 32-bit register access (20_memory.md R72, R73), and from it the statements
about ID, VERSION and IRQ_ENABLE (10_state.md R40, R44). -/

namespace Sys2Proof.Machine

variable {s : State} {rest : List Event} {off : Nat} {r : Reg} {v : Word}

/-! ### Register accesses -/

/-- Every offset below the window is in the register region (20_memory.md R71). -/
theorem Region.ofOffset_of_lt_window (hlt : off < windowBase) : Region.ofOffset off = .registers := if_pos hlt

/-- What a register reads does not depend on the inputs still to come. -/
@[simp] theorem State.readReg_schedule (s : State) (rest : List Event) (r : Reg) :
    ({ s with schedule := rest } : State).readReg r = s.readReg r := by cases r <;> rfl

theorem State.hostRead_register (hlt : off < windowBase) (ha : off % 4 = 0) :
    s.hostRead off .w32 = .next (s.driveRead (s.readReg (Reg.ofOffset off))) := by
  simp [State.hostRead, Region.ofOffset_of_lt_window hlt, aligned, Width.bytes, ha]

theorem State.hostWrite_register (hlt : off < windowBase) (ha : off % 4 = 0) :
    s.hostWrite off .w32 v = .next (s.writeReg (Reg.ofOffset off) v) := by
  simp [State.hostWrite, Region.ofOffset_of_lt_window hlt, aligned, Width.bytes, ha]

/-- A step that serves an aligned 32-bit read of register r drives what r reads and changes nothing else. -/
theorem step_of_register_read (hf : s.faulted = false) (hs : s.schedule = .read off .w32 :: rest)
    (hlt : off < windowBase) (ha : off % 4 = 0) (hr : Reg.ofOffset off = r) :
    step s = .next { s with readData := some (s.readReg r), schedule := rest } := by
  rw [step_of_schedule hf hs, State.serve, State.hostRead_register hlt ha, hr, State.readReg_schedule]
  rfl

/-- A step that serves an aligned 32-bit write of register r is that register's write. -/
theorem step_of_register_write (hf : s.faulted = false) (hs : s.schedule = .write off .w32 v :: rest)
    (hlt : off < windowBase) (ha : off % 4 = 0) (hr : Reg.ofOffset off = r) :
    step s = .next (({ s with schedule := rest } : State).writeReg r v) := by
  rw [step_of_schedule hf hs, State.serve, State.hostWrite_register hlt ha, hr]

/-! ### ID and VERSION -/

/-- Settles O15: the reads are `readReg`'s constants, and `writeReg` ignores a write of either register. -/
theorem identityRegisters : Obligations.IdentityRegisters := by
  intro s rest hf
  refine ⟨fun hs => ?readId, fun hs => ?readVersion, fun v hs => ?write⟩
  case readId => exact step_of_register_read (r := .id) hf hs (by decide) rfl rfl
  case readVersion => exact step_of_register_read (r := .version) hf hs (by decide) rfl rfl
  case write =>
    rcases hs with hs | hs
    · exact step_of_register_write (r := .id) hf hs (by decide) rfl rfl
    · exact step_of_register_write (r := .version) hf hs (by decide) rfl rfl

/-! ### IRQ_ENABLE -/

/-- A flag in bit 0 is the word 1 or 0, so bits 31..1 are 0. -/
theorem flagAt_zero (b : Bool) : flagAt b 0 = if b then 1#32 else 0#32 := by cases b <;> rfl

/-- The interrupt output is DONE and DONE_IE (60_exceptions.md R308). -/
theorem State.irq_eq_true_iff (s : State) : s.irq = true ↔ s.status.done = true ∧ s.doneIe = true := by
  rw [State.irq, Bool.and_eq_true]

theorem State.readReg_irqEnable (s : State) : s.readReg .irqEnable = if s.doneIe then 1#32 else 0#32 :=
  flagAt_zero s.doneIe

/-- Settles O18: `writeReg` stores bit 0 in DONE_IE, and the read is DONE_IE as a flag in bit 0. -/
theorem irqEnableRegister : Obligations.IrqEnableRegister := by
  refine ⟨rfl, fun s v rest hf hs => ?write, fun s rest hf hs => ?read, State.irq_eq_true_iff⟩
  case write => exact step_of_register_write (r := .irqEnable) hf hs (by decide) rfl rfl
  case read =>
    rw [step_of_register_read (r := .irqEnable) hf hs (by decide) rfl rfl, State.readReg_irqEnable]

end Sys2Proof.Machine
end

section
/-! SUPPORT. What one step does with an access to the buffer window while a command is in flight, and from it the
statement that BUSY closes the window and leaves the registers open (20_memory.md R76). -/

namespace Sys2Proof.Machine

variable {s : State} {off : Nat} {width : Width} {v : Word}

/-! ### The buffer window while BUSY -/

/-- The BUF_BYTES offsets from the window's base are the window (20_memory.md R71). -/
theorem Region.ofOffset_of_mem_window (hle : windowBase ≤ off) (hlt : off < windowBase + Config.bufBytes) :
    Region.ofOffset off = .window := by
  rw [Region.ofOffset, if_neg (Nat.not_lt.mpr hle), if_pos hlt]

theorem State.hostRead_window_of_busy (hb : s.status.busy = true) (hle : windowBase ≤ off)
    (hlt : off < windowBase + Config.bufBytes) : s.hostRead off width = .refused (.bufferWhileBusy off) := by
  simp [State.hostRead, Region.ofOffset_of_mem_window hle hlt, hb]

theorem State.hostWrite_window_of_busy (hb : s.status.busy = true) (hle : windowBase ≤ off)
    (hlt : off < windowBase + Config.bufBytes) : s.hostWrite off width v = .refused (.bufferWhileBusy off) := by
  simp [State.hostWrite, Region.ofOffset_of_mem_window hle hlt, hb]

/-- Settles O21: BUSY is tested before alignment and before any byte is read, so a window access is refused at every
width; a register access does not look at BUSY. -/
theorem windowIsRefusedWhileBusy : Obligations.WindowIsRefusedWhileBusy := by
  intro s off width v rest hf hb
  refine ⟨fun hle hlt hs => ?window, fun hlt ha hs => ?registers⟩
  case window =>
    rcases hs with hs | hs
    · exact (step_of_schedule hf hs).trans (State.hostRead_window_of_busy hb hle hlt)
    · exact (step_of_schedule hf hs).trans (State.hostWrite_window_of_busy hb hle hlt)
  case registers =>
    rcases hs with hs | hs
    · exact ⟨_, step_of_register_read hf hs hlt ha rfl⟩
    · exact ⟨_, step_of_register_write hf hs hlt ha rfl⟩

end Sys2Proof.Machine
end

section
/-! SUPPORT. What becomes of a command word with reserved bits set and of a slot number out of range, and from it the
statements about both (30_encoding.md R102, R103). -/

namespace Sys2Proof

/-- A legal OPCODE with RSVD not zero decodes to ReservedBits with the whole word (30_encoding.md R112). -/
theorem decode_of_rsvd_ne_zero {w : Word}
    (hop : w.toNat % 256 ∈ [0x00, 0x01, 0x02, 0x03, 0x04, 0x10, 0x20, 0x21, 0x22, 0x30, 0x31])
    (hr : w.toNat / 65536 ≠ 0) : decode w = .error (.reservedBits w) := by
  rw [← opcodeField_toNat, ← decodeOpcode_isSome _ (ctxField w).toNat, Option.isSome_iff_exists] at hop
  obtain ⟨i, hi⟩ := hop
  have hne : rsvdField w ≠ 0 := fun h0 => hr (by rw [← rsvdField_toNat, h0]; rfl)
  simp only [decode, hi, if_neg hne]

end Sys2Proof

namespace Sys2Proof.Machine

variable {s : State} {c : Nat}

/-! ### Reserved bits -/

theorem State.runLatched_of_reservedBits {w : Word} (h : decode s.lcmd = .error (.reservedBits w)) :
    s.runLatched = .next (s.raise .reservedBits w) := by
  rw [State.runLatched, h]

theorem State.engineTurn_of_busy (hb : s.status.busy = true) : s.engineTurn = s.runLatched := if_pos hb

/-- Settles O5: the step is the engine's turn, the word decodes to ReservedBits, and `raise` is all that runs. -/
theorem reservedWordRaisesReservedBits : Obligations.ReservedWordRaisesReservedBits := by
  intro s hf hb hs hop hr
  refine ⟨_, ?_, State.raise_errs _ .reservedBits s.lcmd⟩
  calc step s
      = ({ s with schedule := s.schedule.tail } : State).engineTurn := step_of_engine_next hf hs
    _ = ({ s with schedule := s.schedule.tail } : State).runLatched := State.engineTurn_of_busy hb
    _ = _ := State.runLatched_of_reservedBits (decode_of_rsvd_ne_zero hop hr)

/-! ### Slot numbers out of range -/

theorem State.onSlot_errs_of_numCtx_le {f : Slot → Result} (hc : Config.numCtx ≤ c) :
    ∃ t, s.onSlot c f = .next t ∧ s.Errs t 0x03 (BitVec.ofNat 32 c) :=
  ⟨_, State.onSlot_of_none (State.slot?_eq_none.2 hc), State.raise_errs s .badCtx _⟩

theorem State.onValidSlot_errs_of_numCtx_le {f : Slot → Result} (hc : Config.numCtx ≤ c) :
    ∃ t, s.onValidSlot c f = .next t ∧ s.Errs t 0x03 (BitVec.ofNat 32 c) := by
  refine ⟨_, State.onValidSlot_of_none fun k hk => ?_, State.raise_errs s .badCtx _⟩
  exact absurd (State.slot?_lt hk) (Nat.not_lt.mpr hc)

/-- Settles O30: four commands begin with the check that the slot exists, six with the check that it is also valid, and
NOP with neither. -/
theorem slotNumberOutOfRangeRaisesBadCtx : Obligations.SlotNumberOutOfRangeRaisesBadCtx := by
  intro c s hc
  refine ⟨?commands, rfl, _, rfl, s.complete_completes⟩
  case commands =>
    simp only [List.forall_mem_cons]
    refine ⟨?ctxNew, ?ctxClone, ?ctxDestroy, ?ctxStatus, ?derive, ?guess, ?check, ?update, ?encrypt, ?auth, nofun⟩
    case ctxNew | ctxClone | ctxDestroy | ctxStatus => exact State.onSlot_errs_of_numCtx_le hc
    case derive | guess | check | update | encrypt | auth => exact State.onValidSlot_errs_of_numCtx_le hc

end Sys2Proof.Machine
end

section
/-! SUPPORT. What CTX_NEW makes of its parameter block: the order of the capacity checks, and a block that is written
whole; and from it the statement about the errors CTX_NEW reports (30_encoding.md R108, R109). -/

namespace Sys2Proof.Machine

variable {s : State} {c : Nat}

/-! ### Reads of written ranges -/

/-- Part of a written range is written. -/
theorem Memory.written_sub {m : Memory} {a n : Nat} (h : m.written a n) {i l : Nat} (hi : i + l ≤ n) :
    m.written (a + i) l := by
  intro j hj
  rw [Nat.add_assoc]
  exact h (i + j) (by omega)

/-- A MemRead of a written range goes on with some bytes (20_memory.md R77). -/
theorem State.load_of_written {a n : Nat} (h : s.buf.written a n) : ∃ v, ∀ k, s.load a n k = k v := by
  obtain ⟨v, hv⟩ := (Memory.readBytes_ok_iff_written _ _ _).2 h
  obtain ⟨hl, hh⟩ := (Memory.readBytes_eq_ok _ _ _ _).1 hv
  exact ⟨v, fun k => State.load_of_holds hl hh⟩

/-- In a block written whole, with key, salt and MKI within their capacities, every read behind byte 9 goes on. -/
theorem State.loadParamRest_of_written {pb : Nat} {q : ParamHead} (h : s.buf.written pb paramBlockBytes)
    (hmkLen : q.mkLen.toNat ≤ 32) (hmsLen : q.msLen.toNat ≤ 14) (hmkiLen : q.mkiLen.toNat ≤ Config.maxMkiBytes) :
    ∃ ssrc kdr mk ms mki, ∀ k, s.loadParamRest pb q k = k ssrc kdr mk ms mki := by
  have read : ∀ i l, i + l ≤ 88 → ∃ v, ∀ k, s.load (pb + i) l k = k v :=
    fun i l hl => State.load_of_written (Memory.written_sub h hl)
  obtain ⟨ssrc, hssrc⟩ := read 12 4 (by omega)
  obtain ⟨kdr, hkdr⟩ := read 16 8 (by omega)
  obtain ⟨mk, hmk⟩ := read 24 q.mkLen.toNat (by omega)
  obtain ⟨ms, hms⟩ := read 56 q.msLen.toNat (by omega)
  obtain ⟨mki, hmki⟩ := read 72 q.mkiLen.toNat (by rw [Config.maxMkiBytes] at hmkiLen; omega)
  exact ⟨_, _, mk, ms, mki, fun k => by rw [State.loadParamRest, hssrc, hkdr, hmk, hms, hmki]⟩

/-! ### The capacity checks -/

/-- The field at byte offset o of the block is over its capacity (30_encoding.md R109). -/
def ParamHead.Exceeds (q : ParamHead) (o : Nat) : Prop :=
  (o = 0 ∧ q.kind.toNat > 1) ∨ (o = 3 ∧ q.mkLen.toNat > 32) ∨ (o = 4 ∧ q.msLen.toNat > 14)
    ∨ (o = 5 ∧ q.nE.toNat > 32) ∨ (o = 6 ∧ q.nA.toNat > Config.maxAuthKeyBytes)
    ∨ (o = 7 ∧ q.nS.toNat > 14) ∨ (o = 9 ∧ q.mkiLen.toNat > Config.maxMkiBytes)

/-- The offset `overCapacity` answers is of a field over its capacity, and none before it is. -/
theorem ParamHead.exceeds_of_overCapacity {q : ParamHead} {off : Nat} (h : q.overCapacity = some off) :
    q.Exceeds off ∧ ∀ o, o < off → ¬ q.Exceeds o := by
  unfold ParamHead.overCapacity at h
  unfold ParamHead.Exceeds
  split_ifs at h
  all_goals
    cases h
    exact ⟨by omega, fun o ho => by omega⟩

theorem ParamHead.not_exceeds_of_overCapacity {q : ParamHead} (h : q.overCapacity = none) (o : Nat) :
    ¬ q.Exceeds o := by
  obtain ⟨_, _, _, _, _, _, _⟩ := ParamHead.overCapacity_none h
  unfold ParamHead.Exceeds
  omega

/-- `overCapacity` answers the least offset of a field over its capacity. -/
theorem ParamHead.overCapacity_eq_some {q : ParamHead} {off : Nat} (h : q.Exceeds off)
    (hmin : ∀ o, o < off → ¬ q.Exceeds o) : q.overCapacity = some off := by
  cases hq : q.overCapacity with
  | none => exact absurd h (ParamHead.not_exceeds_of_overCapacity hq off)
  | some o =>
    obtain ⟨ho, homin⟩ := ParamHead.exceeds_of_overCapacity hq
    have h1 : ¬ o < off := fun hlt => hmin o hlt ho
    have h2 : ¬ off < o := fun hlt => homin off hlt h
    exact congrArg some (by omega)

theorem ParamHead.overCapacity_eq_none {q : ParamHead} (h : ∀ o, ¬ q.Exceeds o) : q.overCapacity = none := by
  cases hq : q.overCapacity with
  | none => rfl
  | some o => exact absurd (ParamHead.exceeds_of_overCapacity hq).1 (h o)

/-! ### CTX_NEW -/

/-- A slot number in range has its slot (30_encoding.md R102). -/
theorem State.exists_slot_of_lt (s : State) (hc : c < Config.numCtx) : ∃ k, s.slot? c = some k :=
  Option.isSome_iff_exists.1 (State.slot?_isSome.2 hc)

section Head

variable {head : Bytes} (hc : c < Config.numCtx) (hfit : s.larg[0].toNat + paramBlockBytes ≤ Config.bufBytes)
  (hl : head.length = 10) (hh : s.buf.holds s.larg[0].toNat head)
include hc hfit hl hh

theorem execCtxNew_of_overCapacity {off : Nat} (hq : (ParamHead.ofBytes head).overCapacity = some off) :
    execCtxNew c s = .next (s.raise .badParam (BitVec.ofNat 32 off)) := by
  obtain ⟨k, hk⟩ := s.exists_slot_of_lt hc
  simp [execCtxNew, State.onSlot_of_some hk, (fits_iff _ _).2 hfit, State.load_of_holds hl hh, hq]

/-- With every field within its capacity and the block written whole, CTX_NEW installs a slot. -/
theorem execCtxNew_of_written (hq : (ParamHead.ofBytes head).overCapacity = none)
    (hw : s.buf.written s.larg[0].toNat paramBlockBytes) : ∃ k, execCtxNew c s = .next (s.installSlot c k) := by
  obtain ⟨k, hk⟩ := s.exists_slot_of_lt hc
  obtain ⟨-, hmkLen, hmsLen, -, -, -, hmkiLen⟩ := ParamHead.overCapacity_none hq
  obtain ⟨ssrc, kdr, mk, ms, mki, hrest⟩ := State.loadParamRest_of_written hw hmkLen hmsLen hmkiLen
  refine ⟨newSlot Config.hasSkein Config.skeinMacBytes (ParamHead.ofBytes head) ssrc kdr mk ms mki, ?_⟩
  simp [execCtxNew, State.onSlot_of_some hk, (fits_iff _ _).2 hfit, State.load_of_holds hl hh, hq, hrest]

end Head

/-- Settles O36: `overCapacity` answers the least offset over its capacity, which `raise` reports; with none, every read
of a written block goes on, and storing the slot leaves ERR, ERRCODE and ERRINFO. -/
theorem ctxNewReportsTheFirstFieldOverCapacity : Obligations.CtxNewReportsTheFirstFieldOverCapacity := by
  intro c s b hc hfit hb
  have hl : ((List.range 10).map b).length = 10 := by simp
  have hh : s.buf.holds s.larg[0].toNat ((List.range 10).map b) := fun j hj => by simpa using hb j (hl ▸ hj)
  refine ⟨fun off hoff hmin => ?overCapacity, fun hnone hw => ?within⟩
  case overCapacity =>
    exact ⟨_, execCtxNew_of_overCapacity hc hfit hl hh (ParamHead.overCapacity_eq_some hoff hmin),
      State.raise_errs s .badParam _⟩
  case within =>
    obtain ⟨k, hk⟩ := execCtxNew_of_written hc hfit hl hh (ParamHead.overCapacity_eq_none hnone) hw
    exact ⟨_, hk, rfl, rfl, rfl⟩

end Sys2Proof.Machine
end

section
/-! SUPPORT. The key-derivation index on numbers, and from it the statement about floor division and the shift
(43_key_derivation.md R201). -/

namespace Sys2Proof.Machine

/-- The index on numbers: `rOfIndex_toNat` at a slot with the rate `kdr`. -/
theorem rOfIndex_toNat_eq_ite (kdr : BitVec 64) (i : BitVec 48) :
    (rOfIndex kdr i).toNat = if kdr = 0 then 0 else i.toNat / kdr.toNat :=
  rOfIndex_toNat { Slot.reset with kdr := kdr } i

/-- Settles O40: the index is the floor division of R201, and division by a power of two is the shift. -/
theorem keyDerivationIndex : Obligations.KeyDerivationIndex := by
  intro kdr i
  refine ⟨fun hzero => ?zero, fun hne => ?division, fun n hpow => ?shift⟩
  case zero => rw [rOfIndex_toNat_eq_ite, if_pos hzero]
  case division => rw [rOfIndex_toNat_eq_ite, if_neg hne]
  case shift =>
    have hne : kdr ≠ 0 := by
      rintro rfl
      exact (Nat.two_pow_pos n).ne hpow
    apply BitVec.eq_of_toNat_eq
    rw [rOfIndex_toNat_eq_ite, if_neg hne, hpow, BitVec.toNat_ushiftRight, Nat.shiftRight_eq_div_pow]

end Sys2Proof.Machine
end

section
/-! SUPPORT. What NOP, CTX_DESTROY and CTX_STATUS leave: the words that decode to them, and the fields of RES0 and RES7;
and from it the statements about the three commands (46_context_mgmt.md R270, R274, R275). -/

namespace Sys2Proof

/-! ### Decoding a word by its number -/

/-- A word below 2^16 decodes to what its opcode selects for the slot number above it (30_encoding.md R112). -/
theorem decode_of_rsvd_eq_zero {w : Word} {op : Byte} {i : Instr} (hop : w.toNat % 256 = op.toNat)
    (hr : w.toNat / 65536 = 0) (hi : decodeOpcode op (w.toNat / 256) = some i) : decode w = .ok i := by
  have hopcode : opcodeField w = op := BitVec.eq_of_toNat_eq (by rw [opcodeField_toNat, hop])
  have hctx : (ctxField w).toNat = w.toNat / 256 := by rw [ctxField_toNat]; omega
  have hrsvd : rsvdField w = 0 := BitVec.eq_of_toNat_eq (by rw [rsvdField_toNat, hr]; rfl)
  simp only [decode, hopcode, hctx, hi, if_pos hrsvd]

/-- The word with a slot number and an opcode written out as a number (30_encoding.md R100). -/
theorem decode_ofNat {c : Nat} {op : Byte} {i : Instr} (hc : c < 256) (hi : decodeOpcode op c = some i) :
    decode (BitVec.ofNat 32 (c * 256 + op.toNat)) = .ok i := by
  have hop := op.isLt
  have hw : (BitVec.ofNat 32 (c * 256 + op.toNat)).toNat = c * 256 + op.toNat := by
    rw [BitVec.toNat_ofNat]
    omega
  refine decode_of_rsvd_eq_zero (op := op) (by rw [hw]; omega) (by rw [hw]; omega) ?_
  rwa [hw, show (c * 256 + op.toNat) / 256 = c by omega]

end Sys2Proof

namespace Sys2Proof.Machine

variable {s : State} {c : Nat}

/-! ### NOP -/

/-- Settles O34: NOP is `complete`, and the two words are judged on their reserved bits. -/
theorem nopOnlyCompletes : Obligations.NopOnlyCompletes := by
  refine ⟨fun c s => ?completes, fun w hop => ⟨fun hr => ?decodes, fun hr => ?reserved⟩⟩
  case completes => exact ⟨_, rfl, s.complete_completes, rfl, rfl, rfl, State.keepsHostSide_of_eq (by simp)⟩
  case decodes => exact decode_of_rsvd_eq_zero (op := 0x00) hop hr rfl
  case reserved => exact decode_of_rsvd_ne_zero (by simp [hop]) hr

/-! ### CTX_DESTROY -/

/-- The commands that need a valid slot raise BadCtx where there is none (60_exceptions.md R301, checks 3 and 4). -/
theorem exec_errs_of_no_valid_slot (h : ∀ k, s.slot? c = some k → k.valid = false) :
    ∀ i ∈ [Instr.derive c, .guess c, .check c, .update c, .encrypt c, .auth c],
      ∃ u, exec i s = .next u ∧ s.Errs u 0x03 (BitVec.ofNat 32 c) := by
  simp only [List.forall_mem_cons]
  refine ⟨?derive, ?guess, ?check, ?update, ?encrypt, ?auth, nofun⟩
  case derive | guess | check | update | encrypt | auth =>
    exact ⟨_, State.onValidSlot_of_none h, State.raise_errs s .badCtx _⟩

/-- Settles O38: in range, the slot is replaced by `Slot.reset`, which is invalid and has every field 0; out of range,
BadCtx is raised and there is no slot c. -/
theorem ctxDestroyLeavesTheResetSlot : Obligations.CtxDestroyLeavesTheResetSlot := by
  intro c s
  have hdec : c < 256 → decode (BitVec.ofNat 32 (c * 256 + 0x03)) = .ok (.ctxDestroy c) :=
    fun h => decode_ofNat (op := 0x03) h rfl
  rcases Nat.lt_or_ge c Config.numCtx with hc | hc
  · have hslot : (s.setSlot c Slot.reset).complete.slot? c = some Slot.reset := State.slot?_setSlot_same _ hc
    obtain ⟨k, hk⟩ := s.exists_slot_of_lt hc
    refine ⟨(s.setSlot c Slot.reset).complete, State.onSlot_of_some hk, hdec, fun _ => ?inRange, ?badCtx,
      fun hge => absurd hc (Nat.not_lt.mpr hge)⟩
    case inRange =>
      refine ⟨fun j hj => State.slot?_setSlot_other _ hj, ⟨rfl, rfl⟩, rfl, rfl, State.keepsHostSide_of_eq (by simp),
        Slot.reset, hslot, rfl, ?_⟩
      simp [Slot.reset]
    case badCtx =>
      refine exec_errs_of_no_valid_slot fun l hl => ?_
      rw [hslot] at hl
      cases hl
      rfl
  · obtain ⟨t, ht, herr⟩ := State.onSlot_errs_of_numCtx_le (s := s) hc
    refine ⟨t, ht, hdec, fun hlt => absurd hlt (Nat.not_lt.mpr hc), ?_, fun _ => herr⟩
    refine exec_errs_of_no_valid_slot fun k hk => ?_
    exact absurd (State.slot?_lt hk) (Nat.not_lt.mpr hc)

/-! ### CTX_STATUS -/

section Field

variable {w n : Nat} (v : BitVec w)

/-- A field shifted to bit n is read back from its own bits. -/
theorem extractLsb'_shiftLeft_same (h : n + w ≤ 32) : (v.setWidth 32 <<< n).extractLsb' n w = v := by
  ext i hi
  simp [show n + i < 32 by omega, BitVec.getLsbD_eq_getElem hi]

/-- A field shifted to bit n leaves the bits below and above it 0. -/
theorem extractLsb'_shiftLeft_disjoint {i l : Nat} (h : n + w ≤ i ∨ i + l ≤ n) :
    (v.setWidth 32 <<< n).extractLsb' i l = 0 := by
  ext j hj
  rcases h with h | h
  · simp [show w ≤ i + j - n by omega]
  · simp [show i + j < n by omega]

end Field

/-- The id of an encryption algorithm fits the four bits CTX_STATUS reports it in. -/
theorem EncAlgo.setWidth_id (a : EncAlgo) : a.id.setWidth 32 = (a.id.setWidth 4).setWidth 32 := by cases a <;> rfl

/-- The id of an authentication algorithm fits the four bits CTX_STATUS reports it in. -/
theorem AuthAlgo.setWidth_id (a : AuthAlgo) : a.id.setWidth 32 = (a.id.setWidth 4).setWidth 32 := by cases a <;> rfl

theorem Kind.bit_eq_beq (x : Kind) : x.bit = (x == .srtcp) := by cases x <;> rfl

/-- The flags of RES0, bits 0 to 5 (46_context_mgmt.md R275). -/
theorem Slot.statusWord0_flags (k : Slot) :
    k.statusWord0.getLsbD 0 = k.valid ∧ k.statusWord0.getLsbD 1 = k.kind.bit ∧ k.statusWord0.getLsbD 2 = k.seqSet
      ∧ k.statusWord0.getLsbD 3 = k.keysValid ∧ k.statusWord0.getLsbD 4 = k.encDis
      ∧ k.statusWord0.getLsbD 5 = k.authDis := by
  simp [Slot.statusWord0, flagAt]

/-- The fields of RES0 above its flags: no field reaches into the bits of another (46_context_mgmt.md R275). -/
theorem Slot.statusWord0_fields (k : Slot) :
    k.statusWord0.extractLsb' 6 2 = 0 ∧ k.statusWord0.extractLsb' 8 4 = k.encAlgo.id.setWidth 4
      ∧ k.statusWord0.extractLsb' 12 4 = k.authAlgo.id.setWidth 4 ∧ k.statusWord0.extractLsb' 16 8 = k.tagLen
      ∧ k.statusWord0.extractLsb' 24 8 = k.mkiLen := by
  simp only [Slot.statusWord0, flagAt, EncAlgo.setWidth_id, AuthAlgo.setWidth_id, BitVec.extractLsb'_or]
  simp [extractLsb'_shiftLeft_same, extractLsb'_shiftLeft_disjoint, -BitVec.shiftLeft_zero]

/-- The order in which a word's fields are joined does not matter. -/
theorem or_reverse (a b c d : Word) : a ||| b ||| c ||| d = d ||| c ||| b ||| a := by ac_rfl

/-- RES7 is the four length bytes side by side (46_context_mgmt.md R275). -/
theorem Slot.statusWord7_eq_append (k : Slot) : k.statusWord7 = k.mkLen ++ k.nS ++ k.nA ++ k.nE := by
  rw [← BitVec.setWidth_eq (k.mkLen ++ k.nS ++ k.nA ++ k.nE),
    BitVec.setWidth_append_append_append_eq_shiftLeft_setWidth_or]
  exact or_reverse _ _ _ _

theorem replayMask_halves_append (m : BitVec 64) : m.extractLsb' 32 32 ++ m.extractLsb' 0 32 = m := by
  rw [BitVec.extractLsb'_append_extractLsb'_eq_extractLsb' (by rfl)]
  exact BitVec.extractLsb'_eq_self

/-- The reset slot reads as zeros. -/
theorem Slot.reset_statusWords : Slot.reset.statusWords = Vector.replicate 8 0 := by decide

/-- Settles O39: RES0 is read field by field, RES1 to RES7 are the slot's own words, and an invalid slot is
`Slot.reset`, whose words are 0. -/
theorem ctxStatusReadsTheSlot : Obligations.CtxStatusReadsTheSlot := by
  intro c s
  have hdec : c < 256 → decode (BitVec.ofNat 32 (c * 256 + 0x04)) = .ok (.ctxStatus c) :=
    fun h => decode_ofNat (op := 0x04) h rfl
  cases hk : s.slot? c with
  | none =>
    obtain ⟨t, ht, herr⟩ := State.onSlot_errs_of_numCtx_le (State.slot?_eq_none.1 hk)
    exact ⟨t, ht, hdec, (fun _ h => nomatch h), (fun _ h => nomatch h), fun _ => herr⟩
  | some k =>
    refine ⟨({ s with res := k.statusWords } : State).complete, State.onSlot_of_some hk, hdec, ?invalid, ?fields,
      fun hge => absurd (State.slot?_lt hk) (Nat.not_lt.mpr hge)⟩
    case invalid =>
      rintro _ ⟨rfl⟩ hok hv i hi
      simp [hok.invalid_reset hv, Slot.reset_statusWords]
    case fields =>
      rintro _ ⟨rfl⟩
      obtain ⟨hvalid, hkind, hseq, hkeys, hencDis, hauthDis⟩ := k.statusWord0_flags
      obtain ⟨hzero, henc, hauth, htag, hmki⟩ := k.statusWord0_fields
      refine ⟨⟨rfl, rfl⟩, rfl, rfl, State.keepsHostSide_of_eq (by simp), hvalid, hkind.trans k.kind.bit_eq_beq, hseq,
        hkeys, hencDis, hauthDis, hzero, (congrArg BitVec.toNat henc).trans ?enc,
        (congrArg BitVec.toNat hauth).trans ?auth, htag, hmki,
        rfl, rfl, rfl, replayMask_halves_append k.replayMask, rfl, k.statusWord7_eq_append⟩
      case enc => cases k.encAlgo <;> rfl
      case auth => cases k.authAlgo <;> rfl

end Sys2Proof.Machine
end

section
/-! SUPPORT. Who may change STATUS.OVERRUN: every command leaves it, and of the host's writes only a STATUS write with bit 4
set clears it; and from it the statement about a CMD write while BUSY (60_exceptions.md R305). -/

namespace Sys2Proof.Machine

variable {s t : State} {off : Nat} {w : Width} {r : Reg} {v : Word}

/-! ### The engine leaves OVERRUN -/

/-- No command writes OVERRUN (30_encoding.md R113). -/
theorem exec_overrun {i : Instr} (h : exec i s = .next t) : t.status.overrun = s.status.overrun := by
  obtain ⟨e, info, rfl, -⟩ | hdid := exec_next h
  · rw [State.raise_status]
  · obtain ⟨acc, enc, auth, hstatus⟩ := hdid.status
    rw [hstatus]

theorem State.engineTurn_overrun (h : s.engineTurn = .next t) : t.status.overrun = s.status.overrun := by
  obtain ⟨-, rfl⟩ | ⟨-, hrun⟩ := State.engineTurn_next h
  · rfl
  · obtain ⟨i, -, hexec⟩ | ⟨e, info, rfl, -⟩ := State.runLatched_next hrun
    · exact exec_overrun hexec
    · rw [State.raise_status]

/-! ### Register writes and OVERRUN -/

/-- The one offset of STATUS (10_state.md R43). -/
theorem Reg.eq_of_ofOffset_eq_status (h : Reg.ofOffset off = .status) : off = 0x014 := by
  by_contra hne
  rw [Reg.ofOffset, if_neg hne] at h
  split_ifs at h

/-- A CMD write while BUSY is dropped with OVERRUN set (60_exceptions.md R305). -/
theorem State.writeReg_cmd_of_busy (hb : s.status.busy = true) :
    s.writeReg .cmd v = { s with status := { s.status with overrun := true } } := if_pos hb

/-- A CMD write sets OVERRUN or, issuing, leaves it (60_exceptions.md R305; 30_encoding.md R113). -/
theorem State.writeReg_cmd_overrun (s : State) (v : Word) :
    (s.writeReg .cmd v).status.overrun = (s.status.busy || s.status.overrun) := by
  cases hb : s.status.busy with
  | true => rw [State.writeReg_cmd_of_busy hb, Bool.true_or]
  | false => simp [State.writeReg, State.writeCmd, State.issue, hb]

/-- A STATUS write clears OVERRUN where bit 4 is set (10_state.md R43). -/
theorem State.writeReg_status_overrun (s : State) (v : Word) :
    (s.writeReg .status v).status.overrun = (s.status.overrun && !v.getLsbD 4) := rfl

/-- No other register write clears OVERRUN (10_state.md R43). -/
theorem State.writeReg_overrun (ho : s.status.overrun = true) (hv : r = .status → v.getLsbD 4 = false) :
    (s.writeReg r v).status.overrun = true := by
  cases r with
  | cmd => rw [State.writeReg_cmd_overrun, ho, Bool.or_true]
  | status => rw [State.writeReg_status_overrun, ho, hv rfl, Bool.not_false, Bool.and_true]
  | id | version | caps0 | caps1 | caps2 | irqEnable | errInfo | arg | res | reserved => exact ho

/-- A host write leaves STATUS, or is a 32-bit write of the register at its offset (20_memory.md R72 to R74). -/
theorem State.hostWrite_next_status (h : s.hostWrite off w v = .next t) :
    t.status = s.status ∨ (w = .w32 ∧ t = s.writeReg (Reg.ofOffset off) v) := by
  unfold State.hostWrite at h
  split at h
  case h_1 =>
    split_ifs at h with hw
    cases h
    exact .inr ⟨hw.1, rfl⟩
  case h_2 | h_3 =>
    split_ifs at h
    cases h
    exact .inl rfl
  case h_4 => cases h

/-- A host write that is not a STATUS write with bit 4 set leaves OVERRUN set (60_exceptions.md R305). -/
theorem State.hostWrite_overrun (h : s.hostWrite off w v = .next t) (ho : s.status.overrun = true)
    (hv : off = 0x014 → w = .w32 → v.getLsbD 4 = false) : t.status.overrun = true := by
  obtain hstatus | ⟨hw, rfl⟩ := State.hostWrite_next_status h
  · rw [hstatus, ho]
  · exact State.writeReg_overrun ho fun hr => hv (Reg.eq_of_ofOffset_eq_status hr) hw

/-! ### The step -/

/-- Settles O8: `writeReg` sets and clears OVERRUN at CMD and STATUS, and of the inputs a step can serve neither a read, nor
the engine, nor any other write clears it. -/
theorem overrunIsSetAndSticky : Obligations.OverrunIsSetAndSticky := by
  refine ⟨fun s w rest hf hb hs => ?set, fun s t h ho hstatus hreset => ?sticky, fun s v rest hf hv hs => ?cleared⟩
  case set =>
    exact (step_of_register_write (r := .cmd) hf hs (by decide) rfl rfl).trans
      (congrArg Host.Outcome.next (State.writeReg_cmd_of_busy hb))
  case sticky =>
    obtain ⟨-, ⟨-, hturn⟩ | ⟨e, rest, hs, hserve⟩⟩ := step_next h
    · rw [State.engineTurn_overrun hturn, ho]
    · cases e with
      | read off w =>
        obtain ⟨x, rfl⟩ := State.hostRead_next hserve
        exact ho
      | write off w v =>
        refine State.hostWrite_overrun hserve ho fun hoff hw => hstatus v rest ?_
        rw [hs, hoff, hw]
      | engine => exact (State.engineTurn_overrun hserve).trans ho
      | reset => exact absurd hs (hreset rest)
  case cleared =>
    refine ⟨_, step_of_register_write (r := .status) hf hs (by decide) rfl rfl, ?_⟩
    rw [State.writeReg_status_overrun, hv, Bool.not_true, Bool.and_false]

end Sys2Proof.Machine
end

section
/-! SUPPORT. When a command word decodes, and to what; and from it the statements that decoding is total and ordered and
inverse to encoding (30_encoding.md R100 to R103, R112). -/

namespace Sys2Proof

/-! ### Decoding a word by its fields -/

/-- A word decodes to a command exactly where its opcode selects the command and its reserved bits are zero
(30_encoding.md R112). -/
theorem decode_eq_ok_iff {w : Word} {i : Instr} :
    decode w = .ok i ↔ decodeOpcode (opcodeField w) (ctxField w).toNat = some i ∧ rsvdField w = 0 := by
  unfold decode
  cases decodeOpcode (opcodeField w) (ctxField w).toNat with
  | none => simp
  | some j =>
    dsimp only
    split_ifs with hr
    · simp [hr]
    · simpa using fun _ => hr

/-- An OPCODE outside the map is illegal whatever the other bits (30_encoding.md R114 (a)). -/
theorem decode_of_illegal {w : Word}
    (hop : w.toNat % 256 ∉ [0x00, 0x01, 0x02, 0x03, 0x04, 0x10, 0x20, 0x21, 0x22, 0x30, 0x31]) :
    decode w = .error (.illegalOpcode (BitVec.ofNat 8 (w.toNat % 256))) := by
  rw [← opcodeField_toNat, ← decodeOpcode_isSome _ (ctxField w).toNat, Bool.not_eq_true,
    Option.isSome_eq_false_iff, Option.isNone_iff_eq_none] at hop
  rw [← opcodeField_toNat, BitVec.ofNat_toNat, BitVec.setWidth_eq]
  simp only [decode, hop]

/-! ### Encoding -/

/-- A command's own opcode looks up to the command (30_encoding.md R101). -/
theorem decodeOpcode_opcode (i : Instr) : decodeOpcode i.opcode i.ctx = some i := by cases i <;> rfl

theorem decode_encode {i : Instr} (h : i.wellFormed = true) : decode (encode i) = .ok i := by
  have hctx : i.ctx < 256 := of_decide_eq_true h
  rw [decode_eq_ok_iff, opcodeField_encode, ctxField_encode, BitVec.toNat_ofNat, Nat.mod_eq_of_lt hctx]
  exact ⟨decodeOpcode_opcode i, rsvdField_encode i⟩

theorem wellFormed_of_decode {w : Word} {i : Instr} (h : decode w = .ok i) : i.wellFormed = true := by
  obtain ⟨-, hctx⟩ := decodeOpcode_some (decode_eq_ok_iff.1 h).1
  exact decide_eq_true (hctx ▸ (ctxField w).isLt)

/-- The three fields of a word that decodes are those of the command's word. -/
theorem encode_of_decode {w : Word} {i : Instr} (h : decode w = .ok i) : encode i = w := by
  obtain ⟨hi, hr⟩ := decode_eq_ok_iff.1 h
  obtain ⟨hop, hctx⟩ := decodeOpcode_some hi
  refine word_ext_fields ?_ ?_ ?_
  · rw [opcodeField_encode, hop]
  · rw [ctxField_encode, hctx, BitVec.ofNat_toNat, BitVec.setWidth_eq]
  · rw [rsvdField_encode, hr]

/-- Settles O2: the fields of a command's word look up to the command, and the three fields of a word determine it. -/
theorem decodeAndEncodeAreInverse : Obligations.DecodeAndEncodeAreInverse :=
  ⟨fun _ h => decode_encode h, fun _ _ h => ⟨wellFormed_of_decode h, encode_of_decode h⟩⟩

/-- Settles O3: the opcode lookup comes first, then the reserved bits; the command has the opcode and the slot number it
was looked up by. -/
theorem decodeIsTotalAndOrdered : Obligations.DecodeIsTotalAndOrdered := by
  intro w op legal
  refine ⟨decode_of_illegal, decode_of_rsvd_ne_zero, fun hlegal hr => ?command⟩
  case command =>
    have hsome : (decodeOpcode (opcodeField w) (ctxField w).toNat).isSome = true := by
      rwa [decodeOpcode_isSome, opcodeField_toNat]
    obtain ⟨i, hi⟩ := Option.isSome_iff_exists.1 hsome
    obtain ⟨hop, hctx⟩ := decodeOpcode_some hi
    have hrsvd : rsvdField w = 0 := BitVec.eq_of_toNat_eq ((rsvdField_toNat w).trans hr)
    exact ⟨i, decode_eq_ok_iff.2 ⟨hi, hrsvd⟩, by rw [hop, opcodeField_toNat], by rw [hctx, ctxField_toNat]⟩

/-- Settles O1: each of the twelve words is evaluated. -/
theorem decodeOfWrittenOutWords : Obligations.DecodeOfWrittenOutWords := by
  unfold Obligations.DecodeOfWrittenOutWords
  decide

end Sys2Proof
end

section
/-! SUPPORT. That reset meets the invariant of the machine and every input a step can serve keeps it; and from it the
statements about the invariant and about the key lengths AES sees under it (10_state.md R33 to R35, R43, R45, R48,
R53). -/

namespace Sys2Proof.Machine

variable {s t : State}

/-! ### Reset -/

/-- Every slot of the reset state is the reset slot (70_reset_and_hazards.md R331). -/
theorem State.reset_slot?_eq {c : Nat} {k : Slot} (h : State.reset.slot? c = some k) : k = Slot.reset := by
  simp only [State.slot?, State.reset, Vector.getElem?_replicate] at h
  split_ifs at h
  exact (Option.some.inj h).symm

theorem State.reset_ok : State.reset.Ok where
  slots := fun _ _ h => State.reset_slot?_eq h ▸ Slot.reset_ok
  buf := ⟨List.Pairwise.nil, fun _ h => nomatch h⟩
  latch := rfl
  noFault := rfl
  busy_clear := nofun
  noErr_clear := fun _ => ⟨rfl, rfl⟩
  err_code := nofun

/-- Settles O12: every slot is `Slot.reset`, the buffer is empty, and STATUS is 0. -/
theorem resetMeetsInvariant : Obligations.ResetMeetsInvariant := State.reset_ok

/-- The inputs still to come are no part of the invariant. -/
theorem State.Ok.withSchedule (h : s.Ok) (rest : List Event) : ({ s with schedule := rest } : State).Ok :=
  ⟨h.slots, h.buf, h.latch, h.noFault, h.busy_clear, h.noErr_clear, h.err_code⟩

theorem State.Ok.driveRead (h : s.Ok) (v : Word) : (s.driveRead v).Ok :=
  ⟨h.slots, h.buf, h.latch, h.noFault, h.busy_clear, h.noErr_clear, h.err_code⟩

theorem State.Ok.hardReset (s : State) : s.hardReset.Ok := State.reset_ok.withSchedule s.schedule

/-! ### Host writes -/

theorem State.Ok.store (h : s.Ok) {a : Nat} {v : Bytes} (ha : a + v.length ≤ Config.bufBytes) : (s.store a v).Ok :=
  ⟨h.slots, Memory.writeBytes_wf _ _ _ h.buf ha, h.latch, h.noFault, h.busy_clear, h.noErr_clear, h.err_code⟩

/-- A CMD write latches the word in both CMD and LCMD with the completion bits clear, or sets OVERRUN alone
(30_encoding.md R113; 60_exceptions.md R305). -/
theorem State.Ok.writeCmd (h : s.Ok) (w : Word) : (s.writeCmd w).Ok := by
  unfold State.writeCmd
  split_ifs with hb
  · refine ⟨h.slots, h.buf, h.latch, h.noFault, fun _ => ?_, h.noErr_clear, h.err_code⟩
    obtain ⟨hstatus, hinfo⟩ := h.busy_clear hb
    exact ⟨by rw [hstatus], hinfo⟩
  · exact ⟨h.slots, h.buf, rfl, h.noFault, fun _ => ⟨rfl, rfl⟩, fun _ => ⟨rfl, rfl⟩, nofun⟩

/-- A STATUS write clears DONE and OVERRUN at most, on which nothing of the invariant rests (10_state.md R43). -/
theorem State.Ok.clearWritten (h : s.Ok) (v : Word) :
    ({ s with status := s.status.clearWritten v } : State).Ok := by
  refine ⟨h.slots, h.buf, h.latch, h.noFault, fun hb => ?_, h.noErr_clear, h.err_code⟩
  obtain ⟨hstatus, hinfo⟩ := h.busy_clear hb
  refine ⟨?_, hinfo⟩
  rw [hstatus]
  rfl

theorem State.Ok.writeReg (h : s.Ok) (r : Reg) (v : Word) : (s.writeReg r v).Ok := by
  cases r with
  | cmd => exact h.writeCmd v
  | status => exact h.clearWritten v
  | irqEnable | arg => exact ⟨h.slots, h.buf, h.latch, h.noFault, h.busy_clear, h.noErr_clear, h.err_code⟩
  | id | version | caps0 | caps1 | caps2 | errInfo | res | reserved => exact h

theorem State.Ok.hostWrite (h : s.Ok) {off : Nat} {w : Width} {v : Word} (ht : s.hostWrite off w v = .next t) :
    t.Ok := by
  obtain ⟨r, rfl⟩ | ⟨-, a, b, rfl, hab⟩ | rfl := State.hostWrite_next ht
  · exact h.writeReg r v
  · exact h.store hab
  · exact h

/-! ### Commands -/

/-- Every slot meets the slot invariants (10_state.md R34). -/
def State.SlotsOk (s : State) : Prop := ∀ c k, s.slot? c = some k → k.Ok

theorem State.SlotsOk.setSlot (h : s.SlotsOk) {c : Nat} {k : Slot} (hk : k.Ok) : (s.setSlot c k).SlotsOk := by
  intro j l hl
  rw [State.slot?_setSlot] at hl
  split_ifs at hl
  · exact Option.some.inj hl ▸ hk
  · exact h j l hl

/-- Every command keeps the slot invariants: the slot it writes is reset, constructed, derived or advanced. -/
theorem State.SlotsOk.exec {i : Instr} (h : s.SlotsOk) (ht : exec i s = .next t) : t.SlotsOk := by
  cases i with
  | nop c =>
    obtain rfl := execNop_next (c := c) ht
    exact h
  | ctxNew c =>
    obtain ⟨e, info, rfl, -⟩ | ⟨q, ssrc, kdr, mk, ms, mki, -, hq, hmk, hms, hmki, rfl⟩ := execCtxNew_next ht
    · exact h
    · exact h.setSlot (newSlot_ok hq ssrc kdr hmk hms hmki)
  | ctxClone c =>
    obtain ⟨e, info, rfl, -⟩ | ⟨u, -, hu, -, rfl⟩ := execCtxClone_next ht
    · exact h
    · exact h.setSlot (cloneSlot_ok (h _ u hu) _ _ _)
  | ctxDestroy c =>
    obtain ⟨e, info, rfl, -⟩ | ⟨-, rfl⟩ := execCtxDestroy_next ht
    · exact h
    · exact h.setSlot Slot.reset_ok
  | ctxStatus c =>
    obtain ⟨e, info, rfl, -⟩ | ⟨k, -, rfl⟩ := execCtxStatus_next ht <;> exact h
  | derive c =>
    obtain ⟨e, info, rfl, -⟩ | ⟨k, hk, hv, ⟨hkdf, rfl⟩ | ⟨-, rfl⟩⟩ := execDerive_next ht
    · exact h
    · exact h.setSlot (Slot.deriveKeys_ok (h c k hk) hkdf hv _)
    · exact h
  | guess c =>
    obtain ⟨e, info, rfl, -⟩ | ⟨k, hk, hv, hkind, rfl⟩ := execGuess_next ht
    · exact h
    · exact h.setSlot (Slot.guess_ok (h c k hk) hv hkind _ s.seqOperand_le)
  | check c =>
    obtain ⟨e, info, rfl, -⟩ | ⟨k, hk, hv, rfl⟩ := execCheck_next ht
    · exact h
    · exact h.setSlot (Slot.check_ok (h c k hk) hv _ State.xOperand_le)
  | update c =>
    obtain ⟨e, info, rfl, -⟩ | ⟨k, hk, hv, rfl⟩ := execUpdate_next ht
    · exact h
    · exact h.setSlot (Slot.update_ok (h c k hk) hv _ State.xOperand_le)
  | encrypt c =>
    obtain ⟨e, info, rfl, -⟩ | ⟨k, d, hdr, hk, hv, -, -, -, rfl⟩ := execEncrypt_next ht
    · exact h
    · have hset := h.setSlot (c := c) (Slot.rekeyed_ok (h c k hk) hv (s.encryptIndex k.kind))
      unfold State.encrypted
      dsimp only
      split_ifs <;> exact hset
  | auth c =>
    obtain ⟨e, info, rfl, -⟩ | ⟨k, -, -, -, ⟨-, rfl⟩ | ⟨m, -, -, -, rfl⟩⟩ := execAuth_next ht <;> exact h

/-- An error of a command in flight: issue had cleared ACCEPT and the CFG bits, which it leaves (60_exceptions.md
R302). -/
theorem State.Ok.raise (h : s.Ok) (hb : s.status.busy = true) (e : CmdError) (info : Word) : (s.raise e info).Ok := by
  obtain ⟨hstatus, -⟩ := h.busy_clear hb
  obtain ⟨hlo, hhi⟩ := e.code_bounds
  refine ⟨h.slots, h.buf, h.latch, h.noFault, nofun, nofun, fun _ => ⟨hlo, hhi, ?_⟩⟩
  rw [State.raise_status, hstatus]
  exact ⟨rfl, rfl, rfl⟩

/-- A command in flight that completes without an error: ERR, ERRCODE and ERRINFO stay as issue cleared them. -/
theorem State.Ok.did {i : Instr} (h : s.Ok) (hb : s.status.busy = true) (ht : exec i s = .next t) (hdid : s.Did t i) :
    t.Ok := by
  obtain ⟨hstatus, hinfo⟩ := h.busy_clear hb
  obtain ⟨acc, enc, auth, htstatus⟩ := hdid.status
  rw [hstatus] at htstatus
  refine ⟨State.SlotsOk.exec h.slots ht, ?buf, ?latch, ?noFault, ?busy, ?noErr, ?err⟩
  case buf =>
    obtain hbuf | ⟨a, v, hbuf, hav⟩ := hdid.buf
    · exact hbuf ▸ h.buf
    · exact hbuf ▸ Memory.writeBytes_wf _ _ _ h.buf hav
  case latch => rw [hdid.hostSide.cmd, hdid.hostSide.lcmd, h.latch]
  case noFault => rw [hdid.hostSide.faulted, h.noFault]
  case busy => rw [htstatus]; nofun
  case noErr => exact fun _ => ⟨by rw [htstatus]; rfl, by rw [hdid.errInfo, hinfo]⟩
  case err => rw [htstatus]; nofun

theorem State.Ok.engineTurn (h : s.Ok) (ht : s.engineTurn = .next t) : t.Ok := by
  obtain ⟨-, rfl⟩ | ⟨hb, hrun⟩ := State.engineTurn_next ht
  · exact h
  · obtain ⟨i, -, hexec⟩ | ⟨e, info, rfl, -⟩ := State.runLatched_next hrun
    · obtain ⟨e, info, rfl, -⟩ | hdid := exec_next hexec
      · exact h.raise hb e info
      · exact h.did hb hexec hdid
    · exact h.raise hb e info

/-! ### The step -/

theorem State.Ok.serve (h : s.Ok) {e : Event} (ht : s.serve e = .next t) : t.Ok := by
  cases e with
  | read off w =>
    obtain ⟨v, rfl⟩ := State.hostRead_next ht
    exact h.driveRead v
  | write off w v => exact h.hostWrite ht
  | engine => exact h.engineTurn ht
  | reset =>
    cases ht
    exact State.Ok.hardReset s

/-- Settles O13: a step serves one input, and each of the four inputs keeps the invariant. -/
theorem stepKeepsInvariant : Obligations.StepKeepsInvariant := by
  intro s t h ht
  obtain ⟨-, ⟨-, hturn⟩ | ⟨e, rest, -, hserve⟩⟩ := step_next ht
  · exact h.engineTurn hturn
  · exact (h.withSchedule rest).serve hserve

/-! ### The key lengths AES sees -/

/-- A usable master key is 16 or 32 bytes (10_state.md R35). -/
theorem Slot.masterKeyBytes_length_of_kdfOk {k : Slot} (hk : k.kdfOk = true) :
    k.masterKeyBytes.length = 16 ∨ k.masterKeyBytes.length = 32 := by
  have h := (beq_16_or_32 _).1 hk
  rw [Slot.masterKeyBytes, fieldBytes_length]
  omega

/-- The masked key of F8 is as long as the cipher key (41_cipher_modes.md R163). -/
theorem f8MaskedKey_length (ke ks : Bytes) : (f8MaskedKey ke ks).length = ke.length := by
  rw [f8MaskedKey, xorBytes_length, List.length_append, rep_length]
  omega

/-- A salt of at most 14 bytes is aligned in 14 bytes (41_cipher_modes.md R167). -/
theorem salt14_length {salt : Bytes} (h : salt.length ≤ 14) : (salt14 salt).length = 14 := by
  rw [salt14, List.length_append, zeros_length]
  omega

/-- Settles O14: R34 (c) gives the cipher key's length, and a slot with derived keys has a usable master key. -/
theorem aesKeysAreSixteenOrThirtyTwoBytes : Obligations.AesKeysAreSixteenOrThirtyTwoBytes := by
  intro k h
  refine ⟨fun henc => ?cipher, Slot.masterKeyBytes_length_of_kdfOk,
    fun hkeys => Slot.masterKeyBytes_length_of_kdfOk (h.keys_usable hkeys), salt14_length ?session,
    salt14_length ?master⟩
  case cipher =>
    have hlen : k.cipherKey.length = k.nE.toNat := by
      rw [Slot.cipherKey, fieldBytes_length, Nat.min_eq_left h.nE_le]
    exact ⟨hlen, (h.enc_usable henc).2, by rw [f8MaskedKey_length, hlen]⟩
  case session | master => exact (fieldBytes_length _ _).trans_le (Nat.min_le_right _ _)

end Sys2Proof.Machine
end

section
/-! SUPPORT. That what a step does to everything but the slots' secrets does not depend on them: the functions of a slot
commute with blanking its secrets, the operations of a command keep agreement, and a host access does not look at the
slots; and from it the noninterference statement (10_state.md R32). -/

namespace Sys2Proof.Machine

/-! ### Functions of a slot and its secrets -/

section Redact

variable (k : Slot) (x : Word)

/-- The index functions of a slot commute with blanking its secrets (44_replay_index.md R221 to R229). -/
theorem Slot.redact_firstPacket (p : Config.RocPolicy) : (k.firstPacket p x).redact = k.redact.firstPacket p x := by
  unfold Slot.firstPacket
  rw [show k.redact.kind = k.kind from rfl]
  cases k.kind <;> rfl

theorem Slot.redact_recordGuess : (k.recordGuess x).redact = k.redact.recordGuess x := by
  unfold Slot.recordGuess
  rw [show k.redact.kind = k.kind from rfl]
  cases k.kind <;> rfl

theorem Slot.redact_delta : k.redact.delta x = k.delta x := rfl

theorem Slot.redact_commit : (k.commit x).redact = k.redact.commit x := by
  unfold Slot.commit
  simp only [Slot.redact_delta, ← Slot.redact_recordGuess]
  split_ifs <;> rfl

theorem Slot.redact_update (p : Config.RocPolicy) : (k.update p x).redact = k.redact.update p x := by
  unfold Slot.update
  rw [Slot.redact_commit, apply_ite Slot.redact, Slot.redact_firstPacket]
  rfl

theorem Slot.redact_check (p : Config.RocPolicy) : k.redact.check p x = ((k.check p x).1, (k.check p x).2.redact) := by
  unfold Slot.check
  rw [show k.redact.isNull = k.isNull from rfl, show k.redact.seqSet = k.seqSet from rfl, ← Slot.redact_firstPacket,
    ← Slot.redact_recordGuess]
  split_ifs <;> rfl

theorem Slot.redact_guess (p : Config.RocPolicy) : k.redact.guess p x = ((k.guess p x).1, (k.guess p x).2.redact) := by
  unfold Slot.guess
  rw [show k.redact.seqSet = k.seqSet from rfl, ← Slot.redact_firstPacket]
  split_ifs <;> rfl

/-- Of a derivation all but the session keys depends on no secret (43_key_derivation.md R204). -/
theorem Slot.redact_deriveKeys (i : BitVec 48) :
    (k.deriveKeys i).redact = { k.redact with keysValid := true, lastR := rOfIndex k.redact.kdr i } := by
  simp only [Slot.deriveKeys, Slot.redact]

theorem Slot.redact_cloneSlot (ssrc roc : Word) (kdr : BitVec 64) :
    (cloneSlot k ssrc roc kdr).redact = cloneSlot k.redact ssrc roc kdr := rfl

variable {k x} {l : Slot} (h : k.redact = l.redact)
include h

theorem Slot.statusWords_eq_of_redact_eq : k.statusWords = l.statusWords :=
  show k.redact.statusWords = l.redact.statusWords by rw [h]

theorem Slot.check_of_redact_eq (x : Word) (p : Config.RocPolicy) :
    (k.check p x).1 = (l.check p x).1 ∧ (k.check p x).2.redact = (l.check p x).2.redact := by
  rw [← Prod.mk.injEq, ← Slot.redact_check, ← Slot.redact_check, h]

theorem Slot.guess_of_redact_eq (x : Word) (p : Config.RocPolicy) :
    (k.guess p x).1 = (l.guess p x).1 ∧ (k.guess p x).2.redact = (l.guess p x).2.redact := by
  rw [← Prod.mk.injEq, ← Slot.redact_guess, ← Slot.redact_guess, h]

end Redact

/-! ### Agreement -/

/-- The slots of two states agree on everything but their secrets. -/
def State.SlotsAgree (s t : State) : Prop := ∀ c, (s.slot? c).map Slot.redact = (t.slot? c).map Slot.redact

/-- Where the first result is a next state, so is the second, and the two agree on everything but the slots' secrets. -/
def AgreeResults (r q : Result) : Prop := ∀ s', r = .next s' → ∃ t', q = .next t' ∧ s'.AgreeButSecrets t'

theorem AgreeResults.of_fault {f : Fault} {q : Result} : AgreeResults (.fault f) q := fun _ h => nomatch h

theorem AgreeResults.of_refused {r : Refusal} {q : Result} : AgreeResults (.refused r) q := fun _ h => nomatch h

variable {s t : State} {c : Nat}

/-- States that agree differ in their slot tables alone. -/
theorem State.AgreeButSecrets.exists_slots (h : s.AgreeButSecrets t) :
    ∃ v, t = { s with slots := v } ∧ s.SlotsAgree { s with slots := v } :=
  ⟨t.slots, h.2.symm, by rw [h.2]; exact h.1⟩

/-- A change that leaves the slots alone, made in two states that agree. -/
theorem State.SlotsAgree.next {s' t' : State} (h : s.SlotsAgree t) (hs : s'.slots = s.slots) (ht : t'.slots = t.slots)
    (hrest : ({ s' with slots := t'.slots } : State) = t') : AgreeResults (.next s') (.next t') := by
  rintro _ ⟨rfl⟩
  refine ⟨t', rfl, fun j => ?_, hrest⟩
  rw [State.slot?_congr hs, State.slot?_congr ht]
  exact h j

/-- States that agree in every field but the slots differ in their slot tables alone. -/
theorem State.withSlots_eq_of_fields {s' t' : State} (h : s'.cmd = t'.cmd ∧ s'.status = t'.status
    ∧ s'.doneIe = t'.doneIe ∧ s'.errInfo = t'.errInfo ∧ s'.arg = t'.arg ∧ s'.res = t'.res ∧ s'.lcmd = t'.lcmd
    ∧ s'.larg = t'.larg ∧ s'.buf = t'.buf ∧ s'.faulted = t'.faulted ∧ s'.readData = t'.readData
    ∧ s'.schedule = t'.schedule) : ({ s' with slots := t'.slots } : State) = t' := by
  obtain ⟨hcmd, hstatus, hdoneIe, herrInfo, harg, hres, hlcmd, hlarg, hbuf, hfaulted, hreadData, hschedule⟩ := h
  rw [hcmd, hstatus, hdoneIe, herrInfo, harg, hres, hlcmd, hlarg, hbuf, hfaulted, hreadData, hschedule]

/-- A change of one slot, made in two states that agree, to slots that agree. -/
theorem State.SlotsAgree.next_setSlot {s' t' : State} {k l : Slot} (h : s.SlotsAgree t)
    (hkl : k.redact = l.redact) (hs : s'.slots = (s.setSlot c k).slots) (ht : t'.slots = (t.setSlot c l).slots)
    (hrest : ({ s' with slots := t'.slots } : State) = t') : AgreeResults (.next s') (.next t') := by
  rintro _ ⟨rfl⟩
  refine ⟨t', rfl, fun j => ?_, hrest⟩
  rw [State.slot?_congr hs, State.slot?_congr ht, State.slot?_setSlot, State.slot?_setSlot]
  split_ifs
  · exact congrArg some hkl
  · exact h j

/-- The check that slot c exists goes the same way in states that agree. -/
theorem State.SlotsAgree.onSlot {f g : Slot → Result} (h : s.SlotsAgree t)
    (hraise : AgreeResults (.next (s.raise .badCtx (BitVec.ofNat 32 c))) (.next (t.raise .badCtx (BitVec.ofNat 32 c))))
    (hfg : ∀ k l, k.redact = l.redact → AgreeResults (f k) (g l)) : AgreeResults (s.onSlot c f) (t.onSlot c g) := by
  have hc := h c
  cases hk : s.slot? c with
  | none =>
    rw [hk, Option.map_none, eq_comm, Option.map_eq_none_iff] at hc
    rwa [State.onSlot_of_none hk, State.onSlot_of_none hc]
  | some k =>
    rw [hk, Option.map_some, eq_comm, Option.map_eq_some_iff] at hc
    obtain ⟨l, hl, hlk⟩ := hc
    rw [State.onSlot_of_some hk, State.onSlot_of_some hl]
    exact hfg k l hlk.symm

/-- Whether a slot is valid is no secret, so the check for a valid slot goes the same way too. -/
theorem State.SlotsAgree.onValidSlot {f g : Slot → Result} (h : s.SlotsAgree t)
    (hraise : AgreeResults (.next (s.raise .badCtx (BitVec.ofNat 32 c))) (.next (t.raise .badCtx (BitVec.ofNat 32 c))))
    (hfg : ∀ k l, k.redact = l.redact → AgreeResults (f k) (g l)) :
    AgreeResults (s.onValidSlot c f) (t.onValidSlot c g) := by
  have hvalid : ∀ u : State, ∀ f : Slot → Result, u.onValidSlot c f = u.onSlot c fun k =>
      if k.valid then f k else .next (u.raise .badCtx (BitVec.ofNat 32 c)) := by
    intro u f
    unfold State.onValidSlot State.validSlot? State.onSlot
    cases u.slot? c with
    | none => rfl
    | some k => cases hv : k.valid <;> simp [Option.filter, hv]
  rw [hvalid, hvalid]
  refine h.onSlot hraise fun k l hkl => ?_
  rw [show k.valid = l.valid from congrArg (·.valid) hkl]
  split_ifs
  · exact hfg k l hkl
  · exact hraise

/-! ### Commands -/

section Commands

variable {v : Vector Slot Config.numCtx}

/-- The operands are latched registers, which no slot has part in (30_encoding.md R104 to R107). -/
@[simp] theorem State.deriveIndex_withSlots (kind : Kind) :
    ({ s with slots := v } : State).deriveIndex kind = s.deriveIndex kind := rfl

@[simp] theorem State.seqOperand_withSlots : ({ s with slots := v } : State).seqOperand = s.seqOperand := rfl

@[simp] theorem State.xOperand_withSlots (kind : Kind) :
    ({ s with slots := v } : State).xOperand kind = s.xOperand kind := rfl

theorem State.SlotsAgree.raise (h : s.SlotsAgree { s with slots := v }) (e : CmdError) (info : Word) :
    AgreeResults (.next (s.raise e info)) (.next (({ s with slots := v } : State).raise e info)) :=
  h.next rfl rfl rfl

/-- A MemRead reads the same bytes in states that agree. -/
theorem State.agree_load {a n : Nat} {f g : Bytes → Result} (hfg : ∀ b, AgreeResults (f b) (g b)) :
    AgreeResults (s.load a n f) (({ s with slots := v } : State).load a n g) := by
  unfold State.load
  cases s.buf.readBytes a n with
  | error => exact .of_fault
  | ok b => exact hfg b

/-- Every command but ENCRYPT and AUTH does the same in states that agree: what it computes of a slot's secrets goes
into secrets (10_state.md R32). -/
theorem State.SlotsAgree.exec {i : Instr} (h : s.SlotsAgree { s with slots := v })
    (hi : ∀ c, i ≠ .encrypt c ∧ i ≠ .auth c) : AgreeResults (exec i s) (exec i { s with slots := v }) := by
  cases i with
  | nop c => exact h.next rfl rfl rfl
  | ctxNew c =>
    refine h.onSlot (h.raise _ _) fun _ _ _ => ?_
    dsimp only
    split_ifs
    · exact h.raise _ _
    · refine State.agree_load fun head => ?_
      split
      · exact h.raise _ _
      · exact State.agree_load fun _ => State.agree_load fun _ => State.agree_load fun _ => State.agree_load fun _ =>
          State.agree_load fun _ => h.next_setSlot rfl rfl rfl rfl
  | ctxClone c =>
    refine h.onSlot (h.raise _ _) fun _ _ _ => h.onValidSlot (h.raise _ _) fun k l hkl => ?_
    refine h.next_setSlot ?_ rfl rfl ?_
    · rw [Slot.redact_cloneSlot, hkl, ← Slot.redact_cloneSlot]
      rfl
    · have henc : k.encDis = l.encDis := congrArg (·.encDis) hkl
      have hauth : k.authDis = l.authDis := congrArg (·.authDis) hkl
      simp only [State.installSlot, State.setCfg, State.complete, State.setSlot, cloneSlot, henc, hauth]
  | ctxDestroy c => exact h.onSlot (h.raise _ _) fun _ _ _ => h.next_setSlot rfl rfl rfl rfl
  | ctxStatus c =>
    refine h.onSlot (h.raise _ _) fun k l hkl => ?_
    rw [Slot.statusWords_eq_of_redact_eq hkl]
    exact h.next rfl rfl rfl
  | derive c =>
    refine h.onValidSlot (h.raise _ _) fun k l hkl => ?_
    have hkind : k.kind = l.kind := congrArg (·.kind) hkl
    have hkdr : k.kdr = l.kdr := congrArg (·.kdr) hkl
    have hkdf : k.kdfOk = l.kdfOk := congrArg (·.kdfOk) hkl
    have hslot (j : BitVec 48) : (k.deriveKeys j).redact = (l.deriveKeys j).redact := by
      rw [Slot.redact_deriveKeys, hkl, ← Slot.redact_deriveKeys]
    dsimp only
    rw [hkind, hkdr, hkdf, State.deriveIndex_withSlots]
    split_ifs
    · exact h.next_setSlot (c := c) (hslot (s.deriveIndex l.kind)) (by simp) (by simp)
        (State.withSlots_eq_of_fields (by simp))
    · exact h.next rfl rfl rfl
  | guess c =>
    refine h.onValidSlot (h.raise _ _) fun k l hkl => ?_
    have hkind : k.kind = l.kind := congrArg (·.kind) hkl
    obtain ⟨hindex, hslot⟩ := Slot.guess_of_redact_eq hkl s.seqOperand Config.firstRocPolicy
    rw [hkind]
    cases l.kind with
    | srtcp => exact h.raise _ _
    | srtp =>
      dsimp only
      rw [State.seqOperand_withSlots, hindex]
      exact h.next_setSlot (c := c) hslot (by simp) (by simp) (State.withSlots_eq_of_fields (by simp))
  | check c =>
    refine h.onValidSlot (h.raise _ _) fun k l hkl => ?_
    have hkind : k.kind = l.kind := congrArg (·.kind) hkl
    obtain ⟨hverdict, hslot⟩ := Slot.check_of_redact_eq hkl (s.xOperand l.kind) Config.firstRocPolicy
    dsimp only
    rw [State.xOperand_withSlots, hkind, hverdict]
    exact h.next_setSlot (c := c) hslot (by simp) (by simp) (State.withSlots_eq_of_fields (by simp))
  | update c =>
    refine h.onValidSlot (h.raise _ _) fun k l hkl => ?_
    have hkind : k.kind = l.kind := congrArg (·.kind) hkl
    have hslot (x : Word) :
        (k.update Config.firstRocPolicy x).redact = (l.update Config.firstRocPolicy x).redact := by
      rw [Slot.redact_update, hkl, ← Slot.redact_update]
    rw [State.xOperand_withSlots, hkind]
    exact h.next_setSlot (c := c) (hslot (s.xOperand l.kind)) (by simp) (by simp)
      (State.withSlots_eq_of_fields (by simp))
  | encrypt c => exact absurd rfl (hi c).1
  | auth c => exact absurd rfl (hi c).2

theorem State.SlotsAgree.engineTurn (h : s.SlotsAgree { s with slots := v })
    (hcmd : s.status.busy = true → ∀ c, decode s.lcmd ≠ .ok (.encrypt c) ∧ decode s.lcmd ≠ .ok (.auth c)) :
    AgreeResults s.engineTurn ({ s with slots := v } : State).engineTurn := by
  unfold State.engineTurn
  dsimp only
  split_ifs with hb
  · unfold State.runLatched
    dsimp only
    split
    · rename_i i hdec
      refine h.exec fun c => ⟨?_, ?_⟩
      · rintro rfl
        exact (hcmd hb c).1 hdec
      · rintro rfl
        exact (hcmd hb c).2 hdec
    · exact h.raise _ _
    · exact h.raise _ _
  · exact h.next rfl rfl rfl

/-! ### Host accesses -/

/-- No register reads a slot (10_state.md R40 to R47). -/
theorem State.readReg_withSlots (s : State) (v : Vector Slot Config.numCtx) (r : Reg) :
    ({ s with slots := v } : State).readReg r = s.readReg r := by cases r <;> rfl

/-- A host read drives the same data in states that agree. -/
theorem State.SlotsAgree.hostRead (h : s.SlotsAgree { s with slots := v }) (off : Nat) (w : Width) :
    AgreeResults (s.hostRead off w) (({ s with slots := v } : State).hostRead off w) := by
  unfold State.hostRead
  rw [State.readReg_withSlots]
  dsimp only
  cases Region.ofOffset off with
  | registers =>
    dsimp only
    split_ifs
    · exact h.next rfl rfl rfl
    · exact .of_refused
  | window =>
    dsimp only
    split_ifs
    · exact .of_refused
    · exact .of_refused
    · cases s.buf.readBytes (off - windowBase) w.bytes with
      | error => exact .of_fault
      | ok b => exact h.next rfl rfl rfl
  | reserved =>
    dsimp only
    split_ifs
    · exact h.next rfl rfl rfl
    · exact .of_refused
  | outside => exact .of_refused

theorem State.SlotsAgree.writeReg (h : s.SlotsAgree { s with slots := v }) (r : Reg) (x : Word) :
    AgreeResults (.next (s.writeReg r x)) (.next (({ s with slots := v } : State).writeReg r x)) := by
  cases r with
  | cmd =>
    unfold State.writeReg State.writeCmd
    dsimp only
    split_ifs <;> exact h.next rfl rfl rfl
  | status | irqEnable | arg | id | version | caps0 | caps1 | caps2 | errInfo | res | reserved =>
    exact h.next rfl rfl rfl

/-- A host write has the same effect in states that agree. -/
theorem State.SlotsAgree.hostWrite (h : s.SlotsAgree { s with slots := v }) (off : Nat) (w : Width) (x : Word) :
    AgreeResults (s.hostWrite off w x) (({ s with slots := v } : State).hostWrite off w x) := by
  unfold State.hostWrite
  dsimp only
  cases Region.ofOffset off with
  | registers =>
    dsimp only
    split_ifs
    · exact h.writeReg _ _
    · exact .of_refused
  | window =>
    dsimp only
    split_ifs
    · exact .of_refused
    · exact .of_refused
    · exact h.next rfl rfl rfl
  | reserved =>
    dsimp only
    split_ifs
    · exact h.next rfl rfl rfl
    · exact .of_refused
  | outside => exact .of_refused

/-! ### The step -/

/-- Settles O33: the two states differ in their slot tables alone; a host access and the reset input do not look at the
slots, and the commands the premise leaves write what they compute of a secret into secrets only. -/
theorem secretsDoNotReachTheHost : Obligations.SecretsDoNotReachTheHost := by
  intro s t s' hst hcmd hstep
  obtain ⟨v, rfl, h⟩ := hst.exists_slots
  obtain ⟨hf, ⟨hs, hturn⟩ | ⟨e, rest, hs, hserve⟩⟩ := step_next hstep
  · rw [step_of_empty (s := { s with slots := v }) hf hs]
    exact h.engineTurn (fun hb => hcmd hb (by rw [hs]; rfl)) _ hturn
  · rw [step_of_schedule (s := { s with slots := v }) hf hs]
    have hrest : ({ s with schedule := rest } : State).SlotsAgree { s with slots := v, schedule := rest } := h
    cases e with
    | read off w => exact hrest.hostRead off w _ hserve
    | write off w x => exact hrest.hostWrite off w x _ hserve
    | engine => exact hrest.engineTurn (fun hb => hcmd hb (by rw [hs]; rfl)) _ hserve
    | reset => exact State.SlotsAgree.next (fun _ => rfl) rfl rfl rfl _ hserve

end Commands

end Sys2Proof.Machine
end

section
/-! SUPPORT. What every command answers, and what it leaves of the slots, the RES words, the buffer, STATUS and
ERRINFO; and from it the statements about all commands (10_state.md R33; 30_encoding.md R104, R113; 60_exceptions.md
R301, R302, R316). -/

namespace Sys2Proof.Machine

variable {s t : State} {c : Nat} {i : Instr}

/-! ### What a command answers -/

/-- A command's answer: a next state, or a fault at an unwritten buffer byte with the record of the state before it
(10_state.md R33; 60_exceptions.md R316). -/
def State.Answers (s : State) (r : Result) : Prop :=
  (∃ t, r = .next t) ∨ ∃ a, r = .fault (.commandReadUnwritten a s.recordFault) ∧ s.buf.read a = none

theorem State.answers_next (s t : State) : s.Answers (.next t) := .inl ⟨t, rfl⟩

theorem State.answers_onSlot {f : Slot → Result} (hf : ∀ k, s.Answers (f k)) : s.Answers (s.onSlot c f) := by
  unfold State.onSlot
  cases s.slot? c with
  | none => exact s.answers_next _
  | some k => exact hf k

theorem State.answers_onValidSlot {f : Slot → Result} (hf : ∀ k, s.Answers (f k)) : s.Answers (s.onValidSlot c f) := by
  unfold State.onValidSlot
  cases s.validSlot? c with
  | none => exact s.answers_next _
  | some k => exact hf k

/-- A MemRead faults at the first unwritten byte of its range (10_state.md R33). -/
theorem State.answers_load {a n : Nat} {f : Bytes → Result} (hf : ∀ b, s.Answers (f b)) : s.Answers (s.load a n f) := by
  unfold State.load
  cases hr : s.buf.readBytes a n with
  | error x =>
    obtain ⟨-, -, hx, -⟩ := (Memory.readBytes_eq_error _ _ _ _).1 hr
    exact .inr ⟨x, rfl, hx⟩
  | ok b => exact hf b

theorem State.answers_loadParamRest {pb : Nat} {q : ParamHead}
    {f : Word → BitVec 64 → Bytes → Bytes → Bytes → Result}
    (hf : ∀ ssrc kdr mk ms mki, s.Answers (f ssrc kdr mk ms mki)) :
    s.Answers (s.loadParamRest pb q f) :=
  answers_load fun _ => answers_load fun _ => answers_load fun _ => answers_load fun _ => answers_load fun _ =>
    hf _ _ _ _ _

theorem State.answers_cipherPayload {k : Slot} {p h l : Nat} {ssrc : Word} {x : BitVec 48} {f : Bytes → Result}
    (hf : ∀ b, s.Answers (f b)) : s.Answers (s.cipherPayload k p h l ssrc x f) := by
  refine State.answers_load fun d => ?_
  cases k.encAlgo with
  | null | aesCm => exact hf _
  | aesF8 => exact State.answers_load fun hdr => hf _

theorem execCtxNew_answers (c : Nat) (s : State) : s.Answers (execCtxNew c s) := by
  refine State.answers_onSlot fun _ => ?_
  dsimp only
  split_ifs
  · exact s.answers_next _
  · refine State.answers_load fun head => ?_
    cases (ParamHead.ofBytes head).overCapacity with
    | some off => exact s.answers_next _
    | none => exact State.answers_loadParamRest fun _ _ _ _ _ => s.answers_next _

theorem execEncrypt_answers (c : Nat) (s : State) : s.Answers (execEncrypt c s) := by
  refine State.answers_onValidSlot fun k => ?_
  dsimp only
  split_ifs
  · exact s.answers_next _
  · exact s.answers_next _
  · exact State.answers_cipherPayload fun _ => s.answers_next _
  · exact s.answers_next _

theorem execAuth_answers (c : Nat) (s : State) : s.Answers (execAuth c s) := by
  refine State.answers_onValidSlot fun k => ?_
  dsimp only
  split_ifs
  · exact s.answers_next _
  · exact s.answers_next _
  · exact s.answers_next _
  · exact State.answers_load fun _ => s.answers_next _

/-- The check that slot c exists answers a next state where all that follows it does. -/
theorem State.onSlot_isNext {f : Slot → Result} (hf : ∀ k, ∃ t, f k = .next t) : ∃ t, s.onSlot c f = .next t := by
  unfold State.onSlot
  cases s.slot? c with
  | none => exact ⟨_, rfl⟩
  | some k => exact hf k

theorem State.onValidSlot_isNext {f : Slot → Result} (hf : ∀ k, ∃ t, f k = .next t) :
    ∃ t, s.onValidSlot c f = .next t := by
  unfold State.onValidSlot
  cases s.validSlot? c with
  | none => exact ⟨_, rfl⟩
  | some k => exact hf k

/-- The commands that read no buffer byte answer a next state (60_exceptions.md R316). -/
theorem exec_isNext_of_reads_nothing (c : Nat) (s : State) : ∀ i ∈ [Instr.nop c, .ctxClone c, .ctxDestroy c,
    .ctxStatus c, .derive c, .guess c, .check c, .update c], ∃ t, exec i s = .next t := by
  simp only [List.forall_mem_cons]
  refine ⟨⟨_, rfl⟩, ?ctxClone, ?ctxDestroy, ?ctxStatus, ?derive, ?guess, ?check, ?update, nofun⟩
  case ctxClone => exact State.onSlot_isNext fun _ => State.onValidSlot_isNext fun _ => ⟨_, rfl⟩
  case ctxDestroy | ctxStatus => exact State.onSlot_isNext fun _ => ⟨_, rfl⟩
  case check | update => exact State.onValidSlot_isNext fun _ => ⟨_, rfl⟩
  case derive =>
    refine State.onValidSlot_isNext fun k => ?_
    dsimp only
    split_ifs <;> exact ⟨_, rfl⟩
  case guess =>
    refine State.onValidSlot_isNext fun k => ?_
    cases k.kind <;> exact ⟨_, rfl⟩

theorem exec_answers (i : Instr) (s : State) : s.Answers (exec i s) := by
  cases i with
  | ctxNew c => exact execCtxNew_answers c s
  | encrypt c => exact execEncrypt_answers c s
  | auth c => exact execAuth_answers c s
  | nop c | ctxClone c | ctxDestroy c | ctxStatus c | derive c | guess c | check c | update c =>
    exact .inl (exec_isNext_of_reads_nothing c s _ (by simp))

/-- Settles O25: a command's answer is a next state or a fault, and only CTX_NEW, ENCRYPT and AUTH read the buffer. -/
theorem commandsAreNeverRefused : Obligations.CommandsAreNeverRefused := by
  refine ⟨fun i s r hr => ?_, exec_isNext_of_reads_nothing⟩
  obtain ⟨t, ht⟩ | ⟨a, ha, -⟩ := exec_answers i s
  · exact nomatch hr.symm.trans ht
  · exact nomatch hr.symm.trans ha

/-- Settles O26: the one fault a command can answer is that of a MemRead at an unwritten byte. -/
theorem commandsFaultOnlyAtUnwrittenBytes : Obligations.CommandsFaultOnlyAtUnwrittenBytes := by
  intro i s f hf
  obtain ⟨t, ht⟩ | ⟨a, ha, hread⟩ := exec_answers i s
  · exact nomatch hf.symm.trans ht
  · exact ⟨a, Host.Outcome.fault.inj (hf.symm.trans ha), hread⟩

/-! ### Completion -/

/-- Settles O24: an error and a command's work both clear BUSY, set DONE, and write nothing on the host's side but
STATUS, ERRINFO and RES. -/
theorem completionOfEveryCommand : Obligations.CompletionOfEveryCommand := by
  intro i s t h
  obtain ⟨e, info, rfl, -⟩ | hdid := exec_next h
  · exact ⟨rfl, rfl, rfl, Bool.true_and _, (s.raise_errs e info).hostSide⟩
  · obtain ⟨acc, enc, auth, hstatus⟩ := hdid.status
    refine ⟨by rw [hstatus], by rw [hstatus], by rw [hstatus], ?_, hdid.hostSide⟩
    rw [State.irq, hstatus, hdid.hostSide.doneIe]
    exact Bool.true_and _

/-! ### Slots and RES words -/

theorem State.keepsSlots_of_eq (h : t.slots = s.slots) : s.KeepsSlots t := State.slot?_congr h

theorem exec_keepsOtherSlots (h : exec i s = .next t) : s.KeepsOtherSlots t i.ctx := by
  intro j hj
  obtain ⟨e, info, rfl, -⟩ | hdid := exec_next h
  · rfl
  · obtain hslots | ⟨k, hslots⟩ := hdid.slots
    · exact State.slot?_congr hslots j
    · exact (State.slot?_congr hslots j).trans (State.slot?_setSlot_other k hj)

/-- NOP, CTX_STATUS and AUTH write no slot (46_context_mgmt.md R270, R275; 45_packet_ops.md R251). -/
theorem exec_slots_eq (hi : i = .nop c ∨ i = .ctxStatus c ∨ i = .auth c) (h : exec i s = .next t) :
    t.slots = s.slots := by
  obtain rfl | rfl | rfl := hi
  · obtain rfl := execNop_next (c := c) h
    rfl
  · obtain ⟨e, info, rfl, -⟩ | ⟨k, -, rfl⟩ := execCtxStatus_next h <;> rfl
  · obtain ⟨e, info, rfl, -⟩ | ⟨k, -, -, -, ⟨-, rfl⟩ | ⟨m, -, -, -, rfl⟩⟩ := execAuth_next h <;> rfl

theorem exec_keepsResFrom (h : exec i s = .next t) : s.KeepsResFrom t i.resWords := by
  obtain ⟨e, info, rfl, -⟩ | hdid := exec_next h
  · exact fun _ _ _ => rfl
  · exact hdid.res

/-! ### The buffer -/

/-- No command but ENCRYPT and AUTH writes the buffer (20_memory.md R78). -/
theorem exec_buf_eq (hi : ∀ c, i ≠ .encrypt c ∧ i ≠ .auth c) (h : exec i s = .next t) : t.buf = s.buf := by
  cases i with
  | nop c =>
    obtain rfl := execNop_next (c := c) h
    rfl
  | ctxNew c =>
    obtain ⟨e, info, rfl, -⟩ | ⟨q, ssrc, kdr, mk, ms, mki, -, -, -, -, -, rfl⟩ := execCtxNew_next h <;> rfl
  | ctxClone c => obtain ⟨e, info, rfl, -⟩ | ⟨u, -, -, -, rfl⟩ := execCtxClone_next h <;> rfl
  | ctxDestroy c => obtain ⟨e, info, rfl, -⟩ | ⟨-, rfl⟩ := execCtxDestroy_next h <;> rfl
  | ctxStatus c => obtain ⟨e, info, rfl, -⟩ | ⟨k, -, rfl⟩ := execCtxStatus_next h <;> rfl
  | derive c => obtain ⟨e, info, rfl, -⟩ | ⟨k, -, -, ⟨-, rfl⟩ | ⟨-, rfl⟩⟩ := execDerive_next h <;> rfl
  | guess c => obtain ⟨e, info, rfl, -⟩ | ⟨k, -, -, -, rfl⟩ := execGuess_next h <;> rfl
  | check c => obtain ⟨e, info, rfl, -⟩ | ⟨k, -, -, rfl⟩ := execCheck_next h <;> rfl
  | update c => obtain ⟨e, info, rfl, -⟩ | ⟨k, -, -, rfl⟩ := execUpdate_next h <;> rfl
  | encrypt c => exact absurd rfl (hi c).1
  | auth c => exact absurd rfl (hi c).2

theorem State.keepsBufferOutside_of_eq (h : t.buf = s.buf) (a n : Nat) : s.KeepsBufferOutside t a n :=
  fun _ _ => by rw [h]

/-- A range write leaves every byte outside any range that covers it. -/
theorem State.keepsBufferOutside_of_writeBytes {a n : Nat} {v : Bytes} (h : t.buf = s.buf.writeBytes a v)
    (hn : v.length ≤ n) : s.KeepsBufferOutside t a n := by
  intro x hx
  rw [h]
  exact Memory.read_writeBytes_outside _ _ _ _ (by omega)

/-- The slot ENCRYPT stores past its checks (45_packet_ops.md R250). -/
theorem State.encrypted_slots (s : State) (c : Nat) (k : Slot) (d hdr : Bytes) :
    (s.encrypted c k d hdr).slots = (s.setSlot c (k.rekeyed (s.encryptIndex k.kind))).slots := by
  unfold State.encrypted
  dsimp only
  split_ifs <;> simp

/-- What ENCRYPT leaves of the buffer past its checks (45_packet_ops.md R250). -/
theorem State.encrypted_buf (s : State) (c : Nat) (k : Slot) (d hdr : Bytes) :
    (s.encrypted c k d hdr).buf = if (k.rekeyed (s.encryptIndex k.kind)).encrypts then
      s.buf.writeBytes (s.larg[0].toNat + s.larg[1].toNat) (xorBytes d ((k.rekeyed (s.encryptIndex k.kind)).stream hdr
        s.larg[5] (s.encryptIndex k.kind) s.larg[2].toNat))
      else s.buf := by
  unfold State.encrypted
  dsimp only
  split_ifs <;> simp

theorem execEncrypt_keepsBufferOutside (h : execEncrypt c s = .next t) :
    s.KeepsBufferOutside t (s.larg[0].toNat + s.larg[1].toNat) s.larg[2].toNat := by
  obtain ⟨e, info, rfl, -⟩ | ⟨k, d, hdr, -, -, -, -, hd, rfl⟩ := execEncrypt_next h
  · exact State.keepsBufferOutside_of_eq rfl _ _
  · have hbuf := s.encrypted_buf c k d hdr
    split_ifs at hbuf with henc
    · refine State.keepsBufferOutside_of_writeBytes hbuf ?_
      rw [xorBytes_length, (hd henc).1]
      exact Nat.min_le_left _ _
    · exact State.keepsBufferOutside_of_eq hbuf _ _

theorem execAuth_keepsBufferOutside {k : Slot} (hk : s.slot? c = some k) (h : execAuth c s = .next t) :
    s.KeepsBufferOutside t s.larg[3].toNat k.tagLen.toNat := by
  obtain ⟨e, info, rfl, -⟩ | ⟨l, hl, -, -, ⟨-, rfl⟩ | ⟨m, -, -, -, rfl⟩⟩ := execAuth_next h
  · exact State.keepsBufferOutside_of_eq rfl _ _
  · exact State.keepsBufferOutside_of_eq rfl _ _
  · cases hk.symm.trans hl
    exact State.keepsBufferOutside_of_writeBytes rfl (k.tag_length_le m _)

/-- Settles O27: every part of the frame is what the inversion lemmas of the commands leave. -/
theorem frameOfEveryCommand : Obligations.FrameOfEveryCommand := by
  intro i s t h
  refine ⟨exec_keepsOtherSlots h, fun c hi => State.keepsSlots_of_eq (exec_slots_eq hi h), exec_keepsResFrom h,
    fun hi a => by rw [exec_buf_eq hi h], ?encrypt, ?auth⟩
  case encrypt =>
    rintro c rfl
    exact execEncrypt_keepsBufferOutside h
  case auth =>
    rintro c k rfl hk
    exact execAuth_keepsBufferOutside hk h

/-! ### STATUS and ERRINFO -/

/-- An error a command's meaning raises has one of the codes 3 to 6 and changes nothing else (60_exceptions.md R300). -/
theorem State.RaisedFrom.errs (h : s.RaisedFrom t) :
    ∃ code info, s.Errs t code info ∧ 3 ≤ code.toNat ∧ code.toNat ≤ 6 := by
  obtain ⟨e, info, rfl, he⟩ := h
  refine ⟨e.code, info, s.raise_errs e info, ?_⟩
  obtain rfl | rfl | rfl | rfl := he <;> decide

theorem State.encrypted_status (s : State) (c : Nat) (k : Slot) (d hdr : Bytes) :
    (s.encrypted c k d hdr).status = { s.status with busy := false, done := true } := by
  unfold State.encrypted
  dsimp only
  split_ifs <;> rfl

/-- A command but CHECK that ends without an error leaves ACCEPT; one but CTX_NEW and CTX_CLONE leaves the CFG bits
(44_replay_index.md R228; 60_exceptions.md R306). -/
theorem exec_keeps_accept_cfg (h : exec i s = .next t) (hr : ¬ s.RaisedFrom t) :
    ((∀ c, i ≠ .check c) → t.status.accept = s.status.accept)
      ∧ ((∀ c, i ≠ .ctxNew c ∧ i ≠ .ctxClone c) →
          t.status.cfgEncDis = s.status.cfgEncDis ∧ t.status.cfgAuthDis = s.status.cfgAuthDis) := by
  cases i with
  | ctxNew c =>
    obtain ⟨q, ssrc, kdr, mk, ms, mki, -, -, -, -, -, rfl⟩ := (execCtxNew_next h).resolve_left hr
    exact ⟨fun _ => rfl, fun hi => absurd rfl (hi c).1⟩
  | ctxClone c =>
    obtain ⟨u, -, -, -, rfl⟩ := (execCtxClone_next h).resolve_left hr
    exact ⟨fun _ => rfl, fun hi => absurd rfl (hi c).2⟩
  | check c =>
    obtain ⟨k, -, -, rfl⟩ := (execCheck_next h).resolve_left hr
    exact ⟨fun hi => absurd rfl (hi c), fun _ => ⟨rfl, rfl⟩⟩
  | nop c =>
    obtain rfl := execNop_next (c := c) h
    exact ⟨fun _ => rfl, fun _ => ⟨rfl, rfl⟩⟩
  | ctxDestroy c =>
    obtain ⟨-, rfl⟩ := (execCtxDestroy_next h).resolve_left hr
    exact ⟨fun _ => rfl, fun _ => ⟨rfl, rfl⟩⟩
  | ctxStatus c =>
    obtain ⟨k, -, rfl⟩ := (execCtxStatus_next h).resolve_left hr
    exact ⟨fun _ => rfl, fun _ => ⟨rfl, rfl⟩⟩
  | derive c =>
    obtain ⟨k, -, -, ⟨-, rfl⟩ | ⟨-, rfl⟩⟩ := (execDerive_next h).resolve_left hr <;>
      exact ⟨fun _ => rfl, fun _ => ⟨rfl, rfl⟩⟩
  | guess c =>
    obtain ⟨k, -, -, -, rfl⟩ := (execGuess_next h).resolve_left hr
    exact ⟨fun _ => rfl, fun _ => ⟨rfl, rfl⟩⟩
  | update c =>
    obtain ⟨k, -, -, rfl⟩ := (execUpdate_next h).resolve_left hr
    exact ⟨fun _ => rfl, fun _ => ⟨rfl, rfl⟩⟩
  | encrypt c =>
    obtain ⟨k, d, hdr, -, -, -, -, -, rfl⟩ := (execEncrypt_next h).resolve_left hr
    rw [State.encrypted_status]
    exact ⟨fun _ => rfl, fun _ => ⟨rfl, rfl⟩⟩
  | auth c =>
    obtain ⟨k, -, -, -, ⟨-, rfl⟩ | ⟨m, -, -, -, rfl⟩⟩ := (execAuth_next h).resolve_left hr <;>
      exact ⟨fun _ => rfl, fun _ => ⟨rfl, rfl⟩⟩

/-- Settles O28: an error leaves ACCEPT and the CFG bits and has one of four codes; a command's work leaves ERR,
ERRCODE and ERRINFO. -/
theorem statusFrameOfEveryCommand : Obligations.StatusFrameOfEveryCommand := by
  intro i s t h
  by_cases hr : s.RaisedFrom t
  · obtain ⟨e, info, rfl, -⟩ := id hr
    exact ⟨fun _ => rfl, fun _ => ⟨rfl, rfl⟩, .inr hr.errs⟩
  · have hdid := (exec_next h).resolve_left hr
    obtain ⟨acc, enc, auth, hstatus⟩ := hdid.status
    obtain ⟨haccept, hcfg⟩ := exec_keeps_accept_cfg h hr
    exact ⟨haccept, hcfg, .inl ⟨by rw [hstatus], by rw [hstatus], hdid.errInfo⟩⟩

/-- Settles O29: of the two ways a command ends, only an error can set ERR. -/
theorem errorsChangeOnlyStatusAndErrinfo : Obligations.ErrorsChangeOnlyStatusAndErrinfo := by
  intro i s t h hs ht
  obtain hr | hdid := exec_next h
  · exact hr.errs
  · obtain ⟨acc, enc, auth, hstatus⟩ := hdid.status
    rw [hstatus] at ht
    exact absurd (hs.symm.trans ht) Bool.false_ne_true

/-- Settles O31: both slot checks raise BadCtx where there is no valid slot, and CTX_CLONE checks its source with
ARG0. -/
theorem invalidSlotRaisesBadCtx : Obligations.InvalidSlotRaisesBadCtx := by
  refine ⟨fun c s k hk hv => ?commands, fun c s hc hsrc => ?clone⟩
  case commands =>
    refine exec_errs_of_no_valid_slot fun l hl => ?_
    cases hk.symm.trans hl
    exact hv
  case clone =>
    obtain ⟨k, hk⟩ := s.exists_slot_of_lt hc
    have h : exec (.ctxClone c) s = .next (s.raise .badCtx (BitVec.ofNat 32 s.larg[0].toNat)) :=
      (State.onSlot_of_some hk).trans (State.onValidSlot_of_none hsrc)
    rw [BitVec.ofNat_toNat, BitVec.setWidth_eq] at h
    exact ⟨_, h, s.raise_errs .badCtx _⟩

/-! ### The fields of a slot -/

/-- What a command that constructs and destroys no slot can make of a slot (10_state.md R29 to R31). -/
inductive State.SlotBecomes (s : State) (k : Slot) : Instr → Slot → Prop where
  | same (i : Instr) : s.SlotBecomes k i k
  | derived (c : Nat) (x : BitVec 48) : s.SlotBecomes k (.derive c) (k.deriveKeys x)
  | rekeyed (c : Nat) (x : BitVec 48) : s.SlotBecomes k (.encrypt c) (k.rekeyed x)
  | guessed (c : Nat) : s.SlotBecomes k (.guess c) (k.guess Config.firstRocPolicy s.seqOperand).2
  | checked (c : Nat) : s.SlotBecomes k (.check c) (k.check Config.firstRocPolicy (s.xOperand k.kind)).2
  | updated (c : Nat) : s.SlotBecomes k (.update c) (k.update Config.firstRocPolicy (s.xOperand k.kind))

section SlotBecomes

variable {j : Nat} {k l : Slot} (hk : s.slot? j = some k) (hl : t.slot? j = some l)
include hk hl

theorem State.SlotBecomes.of_slots_eq (h : t.slots = s.slots) : s.SlotBecomes k i l := by
  rw [State.slot?_congr h, hk] at hl
  cases hl
  exact .same i

/-- Where one slot was written, every slot is as it was or is that slot. -/
theorem State.SlotBecomes.of_setSlot {u m : Slot} (hu : s.slot? c = some u) (h : t.slots = (s.setSlot c m).slots)
    (hm : s.SlotBecomes u i m) : s.SlotBecomes k i l := by
  rw [State.slot?_congr h, State.slot?_setSlot] at hl
  split_ifs at hl with hc
  · obtain ⟨rfl, -⟩ := hc
    cases hl
    cases hu.symm.trans hk
    exact hm
  · cases hk.symm.trans hl
    exact .same i

theorem exec_slotBecomes (h : exec i s = .next t) (hi : ∀ c, i ≠ .ctxNew c ∧ i ≠ .ctxClone c ∧ i ≠ .ctxDestroy c) :
    s.SlotBecomes k i l := by
  by_cases hr : s.RaisedFrom t
  · obtain ⟨e, info, rfl, -⟩ := hr
    exact .of_slots_eq hk hl rfl
  cases i with
  | nop c => exact .of_slots_eq hk hl (exec_slots_eq (.inl rfl) h)
  | ctxStatus c => exact .of_slots_eq hk hl (exec_slots_eq (.inr (.inl rfl)) h)
  | auth c => exact .of_slots_eq hk hl (exec_slots_eq (.inr (.inr rfl)) h)
  | ctxNew c => exact absurd rfl (hi c).1
  | ctxClone c => exact absurd rfl (hi c).2.1
  | ctxDestroy c => exact absurd rfl (hi c).2.2
  | derive c =>
    obtain ⟨u, hu, -, ⟨-, rfl⟩ | ⟨-, rfl⟩⟩ := (execDerive_next h).resolve_left hr
    · exact .of_setSlot hk hl hu (by simp) (.derived c (s.deriveIndex u.kind))
    · exact .of_slots_eq hk hl rfl
  | guess c =>
    obtain ⟨u, hu, -, -, rfl⟩ := (execGuess_next h).resolve_left hr
    exact .of_setSlot hk hl hu (by simp) (.guessed c)
  | check c =>
    obtain ⟨u, hu, -, rfl⟩ := (execCheck_next h).resolve_left hr
    exact .of_setSlot hk hl hu (by simp) (.checked c)
  | update c =>
    obtain ⟨u, hu, -, rfl⟩ := (execUpdate_next h).resolve_left hr
    exact .of_setSlot hk hl hu (by simp) (.updated c)
  | encrypt c =>
    obtain ⟨u, d, hdr, hu, -, -, -, -, rfl⟩ := (execEncrypt_next h).resolve_left hr
    exact .of_setSlot hk hl hu (s.encrypted_slots c u d hdr) (.rekeyed c _)

end SlotBecomes

/-- Settles O32: a derivation writes the session keys alone, and the index functions the index state alone. -/
theorem whichCommandsWriteWhichSlotFields : Obligations.WhichCommandsWriteWhichSlotFields := by
  intro i s t j k l h hk hl hi
  cases exec_slotBecomes hk hl h hi with
  | same => exact ⟨.refl k, fun _ => .refl k, fun _ => .refl k⟩
  | derived c x =>
    exact ⟨k.deriveKeys_sameConfig x, fun hi => absurd rfl (hi c).1, fun _ => k.deriveKeys_sameIndex x⟩
  | rekeyed c x => exact ⟨k.rekeyed_sameConfig x, fun hi => absurd rfl (hi c).2, fun _ => k.rekeyed_sameIndex x⟩
  | guessed c =>
    have hg := k.guess_indexOnly Config.firstRocPolicy s.seqOperand
    exact ⟨hg.config, fun _ => hg.keys, fun hi => absurd rfl (hi c).1⟩
  | checked c =>
    have hg := k.check_indexOnly Config.firstRocPolicy (s.xOperand k.kind)
    exact ⟨hg.config, fun _ => hg.keys, fun hi => absurd rfl (hi c).2.1⟩
  | updated c =>
    have hg := k.update_indexOnly Config.firstRocPolicy (s.xOperand k.kind)
    exact ⟨hg.config, fun _ => hg.keys, fun hi => absurd rfl (hi c).2.2⟩

end Sys2Proof.Machine
end

section
/-! SUPPORT. What the engine's turn, a CMD write, the reset input and an assembled line's writes bring about; and from
it the statements about the issue protocol and reset (30_encoding.md R113, R114, R116; 70_reset_and_hazards.md R330,
R331, R345). -/

namespace Sys2Proof.Machine

variable {s t : State} {rest : List Event}

/-! ### The engine's turn -/

/-- With a command in flight the engine's turn is that command (30_encoding.md R112, R113). -/
theorem State.engineTurn_of_decode {i : Instr} (hb : s.status.busy = true) (hdec : decode s.lcmd = .ok i) :
    s.engineTurn = exec i s := by
  rw [State.engineTurn_of_busy hb, State.runLatched, hdec]

theorem State.runLatched_of_illegalOpcode {op : Byte} (h : decode s.lcmd = .error (.illegalOpcode op)) :
    s.runLatched = .next (s.raise .illegalOpcode (op.setWidth 32)) := by
  rw [State.runLatched, h]

/-- Settles O4: the step is the engine's turn, with no input left or with the engine's turn the oldest. -/
theorem stepRunsTheDecodedCommand : Obligations.StepRunsTheDecodedCommand := by
  intro s i hf hb hdec
  refine ⟨fun hs => ?_, fun rest hs => ?_⟩
  · rw [step_of_empty hf hs, State.engineTurn_of_decode hb hdec]
  · rw [step_of_schedule hf hs]
    exact State.engineTurn_of_decode hb hdec

/-- Settles O6: the word decodes to IllegalOpcode with its OPCODE, and `raise` is all that runs. -/
theorem illegalWordRaisesIllegalOpcode : Obligations.IllegalWordRaisesIllegalOpcode := by
  intro s hf hb hs hop
  have hinfo : (BitVec.ofNat 8 (s.lcmd.toNat % 256)).setWidth 32 = BitVec.ofNat 32 (s.lcmd.toNat % 256) :=
    BitVec.eq_of_toNat_eq (by simp)
  refine ⟨_, ?_, State.raise_errs _ .illegalOpcode _⟩
  calc step s
      = ({ s with schedule := s.schedule.tail } : State).engineTurn := step_of_engine_next hf hs
    _ = ({ s with schedule := s.schedule.tail } : State).runLatched := State.engineTurn_of_busy hb
    _ = _ := State.runLatched_of_illegalOpcode (decode_of_illegal hop)
    _ = _ := by rw [hinfo]

/-- The command in flight completes with BUSY clear and DONE set, or faults at an unwritten byte. -/
theorem State.runLatched_completes_or_faults (s : State) :
    (∃ t, s.runLatched = .next t ∧ t.status.busy = false ∧ t.status.done = true)
      ∨ ∃ a r, s.runLatched = .fault (.commandReadUnwritten a r) ∧ s.buf.read a = none := by
  unfold State.runLatched
  cases decode s.lcmd with
  | error e => cases e <;> exact .inl ⟨_, rfl, rfl, rfl⟩
  | ok i =>
    obtain ⟨t, ht⟩ | ⟨a, ha, hread⟩ := exec_answers i s
    · obtain ⟨hbusy, hdone, -⟩ := completionOfEveryCommand i s t ht
      exact .inl ⟨t, ht, hbusy, hdone⟩
    · exact .inr ⟨a, _, ha, hread⟩

/-- Settles O9: the step runs the latched word, whose command answers a next state or a fault at an unwritten byte. -/
theorem commandInFlightCompletes : Obligations.CommandInFlightCompletes := by
  intro s hf hb hs
  have hstep : step s = ({ s with schedule := s.schedule.tail } : State).runLatched :=
    (step_of_engine_next hf hs).trans (State.engineTurn_of_busy hb)
  rw [hstep]
  exact State.runLatched_completes_or_faults _

/-! ### Issue -/

theorem State.writeReg_cmd_of_idle (hb : s.status.busy = false) (w : Word) : s.writeReg .cmd w = s.issue w :=
  if_neg (by rw [hb]; exact Bool.false_ne_true)

/-- STATUS as issue leaves it reads BUSY and the old OVERRUN alone (30_encoding.md R113). -/
theorem Status.issued_toWord (u : Status) : u.issued.toWord = if u.overrun then 0x11#32 else 0x01#32 := by
  unfold Status.issued
  cases u.overrun <;> decide

/-- A step that serves a CMD write while idle is the issue of the word. -/
theorem step_of_cmd_write {w : Word} (hf : s.faulted = false) (hb : s.status.busy = false)
    (hs : s.schedule = .write 0x010 .w32 w :: rest) :
    step s = .next (({ s with schedule := rest } : State).issue w) :=
  (step_of_register_write (r := .cmd) hf hs (by decide) rfl rfl).trans
    (congrArg Host.Outcome.next (State.writeReg_cmd_of_idle (s := { s with schedule := rest }) hb w))

/-- Settles O7: the step is `issue`, which latches the word and the ARG registers. -/
theorem cmdWriteWhileIdleIssues : Obligations.CmdWriteWhileIdleIssues := by
  intro s w rest hf hb hs
  exact ⟨_, step_of_cmd_write hf hb hs, rfl, rfl, rfl, s.status.issued_toWord, rfl, rfl, rfl, rfl, rfl, rfl, hf, rfl,
    rfl⟩

/-! ### The reset input -/

theorem Status.reset_toWord : Status.reset.toWord = 0 := by decide

/-- Settles O10: the step is `hardReset`, which keeps the schedule alone. -/
theorem resetInputLeavesResetValues : Obligations.ResetInputLeavesResetValues := by
  intro s rest hf hs
  refine ⟨({ s with schedule := rest } : State).hardReset, step_of_schedule hf hs, fun c hc => ?slots, rfl, rfl,
    Status.reset_toWord, rfl, rfl, fun i hi => ?registers, fun _ => rfl, rfl, rfl, rfl⟩
  case slots =>
    obtain ⟨k, hk⟩ := State.reset.exists_slot_of_lt hc
    exact hk.trans (congrArg some (State.reset_slot?_eq hk))
  case registers => simp [State.reset]

/-! ### Assembled lines -/

/-- The ARG registers after successive writes from ARGi on. -/
def setArgs (arg : Vector Word 8) : Nat → List Word → Vector Word 8
  | _, [] => arg
  | i, v :: vs => setArgs (arg.setIfInBounds i v) (i + 1) vs

theorem set_eq_setIfInBounds (arg : Vector Word 8) {i : Nat} (hi : i < 8) (v : Word) :
    arg.set i v = arg.setIfInBounds i v :=
  Vector.ext fun j hj => by rw [Vector.getElem_set, Vector.getElem_setIfInBounds]

/-- The written registers hold the values, and the others what they held. -/
theorem setArgs_getElem (arg : Vector Word 8) (i : Nat) (vs : List Word) (j : Nat) (hj : j < 8) :
    (setArgs arg i vs)[j] = if i ≤ j then vs.getD (j - i) arg[j] else arg[j] := by
  induction vs generalizing arg i with
  | nil => simp [setArgs]
  | cons v vs ih =>
    rw [setArgs, ih, Vector.getElem_setIfInBounds]
    rcases Nat.lt_trichotomy i j with hlt | rfl | hgt
    · obtain ⟨d, rfl⟩ := Nat.exists_eq_add_of_lt hlt
      simp [show i + d + 1 - i = d + 1 by omega, show i + d + 1 - (i + 1) = d by omega, show i + 1 ≤ i + d + 1 by omega,
        show i ≤ i + d + 1 by omega, show ¬ i = i + d + 1 by omega]
    · simp
    · simp [show ¬ i ≤ j by omega, show ¬ i + 1 ≤ j by omega, show ¬ i = j by omega]

/-- The ARG registers stand four bytes apart (10_state.md R46). -/
theorem Reg.ofOffset_arg (i : Fin 8) : Reg.ofOffset (0x040 + 4 * i.val) = .arg i := by
  revert i
  decide

/-- A step that serves a write of ARGi stores the word there (10_state.md R46). -/
theorem step_of_arg_write {i : Nat} {v : Word} (hi : i < 8) (hf : s.faulted = false)
    (hs : s.schedule = .write (0x040 + 4 * i) .w32 v :: rest) :
    step s = .next { s with arg := s.arg.set i v, schedule := rest } :=
  step_of_register_write hf hs (by unfold windowBase; omega) (by omega) (Reg.ofOffset_arg ⟨i, hi⟩)

/-- The steps that serve an assembled line's ARG writes store its values (30_encoding.md R116). -/
theorem run_writeArgs (vs : List Word) (i n : Nat) (hi : i + vs.length ≤ 8) (hf : s.faulted = false)
    (hs : s.schedule = writeArgs i vs ++ rest) :
    Host.Core.run Sys2Proof.core (vs.length + n) s
      = Host.Core.run Sys2Proof.core n { s with arg := setArgs s.arg i vs, schedule := rest } := by
  induction vs generalizing s i with
  | nil =>
    rw [List.length_nil, Nat.zero_add]
    congr 1
    rw [← show s.schedule = rest from hs]
    rfl
  | cons v vs ih =>
    rw [List.length_cons] at hi
    have hstep : step s = .next { s with arg := s.arg.set i v, schedule := writeArgs (i + 1) vs ++ rest } :=
      step_of_arg_write (by omega) hf hs
    have hrest := ih (s := { s with arg := s.arg.set i v, schedule := writeArgs (i + 1) vs ++ rest }) (i + 1) (by omega)
      hf rfl
    rw [set_eq_setIfInBounds] at hstep hrest
    rw [List.length_cons, Nat.add_right_comm]
    exact (run_succ _ hstep).trans hrest

/-- A field of a word is the number shifted down, modulo its width. -/
theorem extractLsb'_eq_ofNat {w : Nat} (v : BitVec w) (i n : Nat) :
    v.extractLsb' i n = BitVec.ofNat n (v.toNat / 2 ^ i) := by
  rw [BitVec.extractLsb', Nat.shiftRight_eq_div_pow]

theorem hi16_eq_ofNat (v : BitVec 48) : hi16 v = BitVec.ofNat 32 (v.toNat / 2 ^ 32) := by
  apply BitVec.eq_of_toNat_eq
  have := v.isLt
  rw [hi16, extractLsb'_eq_ofNat]
  simp
  omega

/-- The low bits of a word are the number modulo their width. -/
theorem extractLsb'_zero_eq_ofNat {w : Nat} (v : BitVec w) (n : Nat) :
    v.extractLsb' 0 n = BitVec.ofNat n (v.toNat % 2 ^ n) := by
  apply BitVec.eq_of_toNat_eq
  simp

theorem lo32_eq_ofNat (v : BitVec 48) : lo32 v = BitVec.ofNat 32 (v.toNat % 2 ^ 32) := extractLsb'_zero_eq_ofNat v 32

/-- Every line writes its ARG values from ARG0 on, and there are registers for all of them. -/
theorem AsmCommand.args_length_le (a : AsmCommand) : a.args.length ≤ 8 := by cases a <;> simp [AsmCommand.args]

/-- An assembled line served from an idle state leaves its command issued, with its ARG values latched (30_encoding.md
R113, R116). -/
theorem run_assembled (a : AsmCommand) (hf : s.faulted = false) (hb : s.status.busy = false)
    (hs : s.schedule = a.events ++ rest) :
    Host.Core.run Sys2Proof.core (a.args.length + 1) s = .next (({ s with
      arg := setArgs s.arg 0 a.args, schedule := .engine :: rest } : State).issue (encode a.instr)) := by
  rw [AsmCommand.events, List.append_assoc] at hs
  have hargs := run_writeArgs a.args 0 1 (by have := a.args_length_le; omega) hf hs
  exact hargs.trans (run_succ 0 (step_of_cmd_write hf hb rfl))

/-- Settles O11: the ARG writes store the row's values and the CMD write issues the row's word; the row is the line's
slot number, its command's opcode and its ARG values. -/
theorem assembledLineIssuesItsCommand : Obligations.AssembledLineIssuesItsCommand := by
  intro s a rest hf hb hs row
  have hrow : row = (a.instr.ctx, a.instr.opcode.toNat, a.args) := by
    cases a with
    | nop | ctxNew | ctxDestroy | ctxStatus | check | update | auth => rfl
    | guess c seq => exact congrArg (fun x => (c, 0x20, [x])) (BitVec.ofNat_toNat 32 seq)
    | ctxClone c src ssrc roc kdr =>
      exact congrArg₂ (fun x y => (c, 0x02, [src, ssrc, roc, x, y])) (extractLsb'_eq_ofNat kdr 32 32).symm
        (extractLsb'_zero_eq_ofNat kdr 32).symm
    | derive c x => exact congrArg₂ (fun x y => (c, 0x10, [x, y])) (hi16_eq_ofNat x).symm (lo32_eq_ofNat x).symm
    | encrypt c p h l x v =>
      exact congrArg₂ (fun x y => (c, 0x30, [p, h, l, x, y, v])) (hi16_eq_ofNat x).symm (lo32_eq_ofNat x).symm
  rw [hrow]
  refine ⟨_, run_assembled a hf hb hs, rfl, rfl, fun hc => ?word, fun i hi => ?larg, rfl, rfl, rfl, rfl⟩
  case word => exact (encode_toNat _).trans (by rw [Nat.mod_eq_of_lt hc]; rfl)
  case larg => exact setArgs_getElem s.arg 0 a.args i hi

end Sys2Proof.Machine
end

section
/-! SUPPORT. What one step does with a read of STATUS and a write of it, an access to a reserved offset, a register
access that is refused, an access to the buffer window while idle, and the registers no other part is about; and from
it the statements about the host port (20_memory.md R71 to R74; 10_state.md R33, R41 to R47). -/

namespace Sys2Proof.Machine

variable {s : State} {rest : List Event} {off : Nat} {width : Width} {v : Word}

/-! ### STATUS -/

/-- The flags of STATUS, and bit 7 (10_state.md R43). -/
theorem Status.toWord_flags (u : Status) :
    u.toWord.getLsbD 0 = u.busy ∧ u.toWord.getLsbD 1 = u.done ∧ u.toWord.getLsbD 2 = u.err
      ∧ u.toWord.getLsbD 3 = u.accept ∧ u.toWord.getLsbD 4 = u.overrun ∧ u.toWord.getLsbD 5 = u.cfgEncDis
      ∧ u.toWord.getLsbD 6 = u.cfgAuthDis ∧ u.toWord.getLsbD 7 = false := by
  simp [Status.toWord, flagAt]

/-- Above its low byte STATUS is ERRCODE (10_state.md R43). -/
theorem Status.toWord_div_256 (u : Status) : u.toWord.toNat / 256 = u.errCode.toNat := by
  have hcode : u.toWord.extractLsb' 8 8 = u.errCode := by
    simp only [Status.toWord, flagAt, BitVec.extractLsb'_or]
    simp [extractLsb'_shiftLeft_same, extractLsb'_shiftLeft_disjoint, -BitVec.shiftLeft_zero]
  have hhigh : u.toWord.extractLsb' 16 16 = 0 := by
    simp only [Status.toWord, flagAt, BitVec.extractLsb'_or]
    simp [extractLsb'_shiftLeft_disjoint, -BitVec.shiftLeft_zero]
  have hcode := congrArg BitVec.toNat hcode
  have hhigh := congrArg BitVec.toNat hhigh
  simp only [BitVec.extractLsb'_toNat, Nat.shiftRight_eq_div_pow] at hcode hhigh
  have := u.toWord.isLt
  simp at hhigh
  omega

/-- Settles O16: the step drives `toWord`, which is read bit by bit and above its low byte. -/
theorem statusReadsItsFields : Obligations.StatusReadsItsFields := by
  intro s rest hf hs
  obtain ⟨hbusy, hdone, herr, haccept, hoverrun, henc, hauth, hbit7⟩ := s.status.toWord_flags
  exact ⟨s.status.toWord, step_of_register_read (r := .status) hf hs (by decide) rfl rfl, hbusy, hdone, herr, haccept,
    hoverrun, henc, hauth, hbit7, s.status.toWord_div_256⟩

/-- A flag in bit n is that bit alone. -/
theorem flagAt_getLsbD (b : Bool) {n i : Nat} (hi : i < 32) : (flagAt b n).getLsbD i = (decide (i = n) && b) := by
  rcases Nat.lt_trichotomy i n with h | rfl | h
  · simp [flagAt, h, h.ne]
  · simp [flagAt, hi]
  · simp [flagAt, h.ne', show i - n ≠ 0 by omega]

/-- The bits of STATUS a write can clear (10_state.md R43). -/
theorem clearable_getLsbD {i : Nat} (hi : i < 32) : (0x12#32).getLsbD i = (decide (i = 1) || decide (i = 4)) := by
  revert i
  decide

/-- STATUS, bit by bit (10_state.md R43). -/
theorem Status.toWord_getLsbD (u : Status) {i : Nat} (hi : i < 32) : u.toWord.getLsbD i =
    (decide (i = 0) && u.busy || decide (i = 1) && u.done || decide (i = 2) && u.err || decide (i = 3) && u.accept
      || decide (i = 4) && u.overrun || decide (i = 5) && u.cfgEncDis || decide (i = 6) && u.cfgAuthDis
      || (u.errCode.setWidth 32 <<< 8).getLsbD i) := by
  simp only [Status.toWord, BitVec.getLsbD_or, flagAt_getLsbD _ hi]

theorem Status.clearWritten_toWord (u : Status) (v : Word) :
    (u.clearWritten v).toWord = u.toWord &&& ~~~(v &&& 0x12#32) := by
  apply BitVec.eq_of_getLsbD_eq
  intro i hi
  rw [BitVec.getLsbD_and, BitVec.getLsbD_not, BitVec.getLsbD_and, clearable_getLsbD hi, Status.toWord_getLsbD _ hi,
    Status.toWord_getLsbD _ hi]
  by_cases h1 : i = 1
  · subst h1
    simp
  · by_cases h4 : i = 4
    · subst h4
      simp
    · simp [h1, h4, hi]

/-- Settles O17: `clearWritten` touches DONE and OVERRUN alone, which are the bits of 0x12. -/
theorem statusWriteClearsDoneAndOverrun : Obligations.StatusWriteClearsDoneAndOverrun := by
  intro s v rest hf hs
  exact ⟨_, step_of_register_write (r := .status) hf hs (by decide) rfl rfl, s.status.clearWritten_toWord v, rfl⟩

/-! ### Reserved offsets and refused register accesses -/

/-- The offsets behind ERRINFO and behind RES7 are reserved (20_memory.md R71). -/
theorem Reg.ofOffset_reserved (ha : off % 4 = 0) (h : 0x024 ≤ off ∧ off < 0x040 ∨ 0x080 ≤ off) :
    Reg.ofOffset off = .reserved := by
  unfold Reg.ofOffset
  repeat rw [if_neg (by omega)]

/-- The reserved region runs from the window's end to the aperture's (20_memory.md R71). -/
theorem Region.ofOffset_of_reserved (hle : windowBase + Config.bufBytes ≤ off) (hlt : off < apertureBytes) :
    Region.ofOffset off = .reserved := by
  rw [Region.ofOffset, if_neg (by omega), if_neg (by omega), if_pos hlt]

theorem Width.bytes_pos (w : Width) : 0 < w.bytes := by cases w <;> decide

/-- Settles O19: below the window the register at the offset is the reserved one, above it the region is. -/
theorem reservedOffsetsReadZeroAndIgnoreWrites : Obligations.ReservedOffsetsReadZeroAndIgnoreWrites := by
  intro s off width v rest hf hoff
  obtain ⟨rfl, ha, hrange⟩ | ⟨hle, hend⟩ := hoff
  · have hlt : off < windowBase := by unfold windowBase; omega
    have hreg : Reg.ofOffset off = .reserved := Reg.ofOffset_reserved ha (by omega)
    exact ⟨fun hs => step_of_register_read hf hs hlt ha hreg, fun hs => step_of_register_write hf hs hlt ha hreg⟩
  · have hregion : Region.ofOffset off = .reserved :=
      Region.ofOffset_of_reserved hle (by have := width.bytes_pos; unfold apertureBytes; omega)
    have hfit : off + width.bytes ≤ apertureBytes := hend
    refine ⟨fun hs => ?_, fun hs => ?_⟩
    · simp [step_of_schedule hf hs, State.serve, State.hostRead, hregion, hfit, State.driveRead]
    · simp [step_of_schedule hf hs, State.serve, State.hostWrite, hregion, hfit]

/-- An access to the register region that is no aligned 32-bit one (20_memory.md R72). -/
theorem not_aligned_word (h : width ≠ .w32 ∨ off % 4 ≠ 0) : ¬ (width = .w32 ∧ aligned off width = true) := by
  rintro ⟨rfl, ha⟩
  exact h.elim (absurd rfl) fun hne => hne (eq_of_beq ha)

/-- Settles O20: below the window both accesses ask for an aligned 32-bit one. -/
theorem registerAccessesAreAlignedWords : Obligations.RegisterAccessesAreAlignedWords := by
  intro s off width v rest hf hlt hbad hs
  have hregion : Region.ofOffset off = .registers := Region.ofOffset_of_lt_window hlt
  rcases hs with hs | hs
  · rw [step_of_schedule hf hs]
    simp only [State.serve, State.hostRead, hregion, if_neg (not_aligned_word hbad)]
  · rw [step_of_schedule hf hs]
    simp only [State.serve, State.hostWrite, hregion, if_neg (not_aligned_word hbad)]

/-! ### The lanes of a window access -/

/-- Byte j of a narrow or a full word is its bits [8j+7:8j] (20_memory.md R74). -/
theorem leBytes_getElem (n : Nat) (v : Word) (j : Nat) (hj : j < (leBytes n v).length) :
    (leBytes n v)[j] = v.extractLsb' (8 * j) 8 := by
  induction n generalizing v j with
  | zero => simp [leBytes] at hj
  | succ n ih =>
    cases j with
    | zero =>
      ext i hi
      simp [leBytes]
    | succ j =>
      simp only [leBytes, List.getElem_cons_succ]
      rw [ih]
      ext i hi
      simp [show 8 + (8 * j + i) = 8 * (j + 1) + i by omega]

/-- The word of at most four bytes has byte j in bits [8j+7:8j] (20_memory.md R74). -/
theorem leWord_extractLsb' (b : Bytes) (hb : b.length ≤ 4) (j : Nat) (hj : j < b.length) :
    (leWord b).extractLsb' (8 * j) 8 = b[j] := by
  induction b generalizing j with
  | nil => simp at hj
  | cons x b ih =>
    rw [List.length_cons] at hb hj
    rw [leWord, BitVec.extractLsb'_or]
    cases j with
    | zero =>
      ext i hi
      simp [hi, show i < 32 by omega]
    | succ j =>
      rw [List.getElem_cons_succ, ← ih (by omega) j (by omega)]
      ext i hi
      simp [show 8 * (j + 1) + i < 32 by omega, show 8 * (j + 1) + i - 8 = 8 * j + i by omega,
        show ¬ 8 * (j + 1) + i < 8 by omega, BitVec.getLsbD_eq_getElem (show 8 * j + i < 32 by omega),
        BitVec.getLsbD_of_ge x (8 * (j + 1) + i) (by omega)]

/-- Nothing stands above the bytes of a word (log entry 18). -/
theorem leWord_toNat_lt (b : Bytes) : (leWord b).toNat < 2 ^ (8 * b.length) := by
  induction b with
  | nil => simp [leWord]
  | cons x b ih =>
    have hx : (x.setWidth 32).toNat < 2 ^ (8 * (x :: b).length) := by
      rw [BitVec.toNat_setWidth, List.length_cons, Nat.mul_succ, Nat.pow_add]
      calc x.toNat % 2 ^ 32 ≤ x.toNat := Nat.mod_le _ _
        _ < 2 ^ 8 := x.isLt
        _ ≤ 2 ^ (8 * b.length) * 2 ^ 8 := Nat.le_mul_of_pos_left _ (Nat.two_pow_pos _)
    rw [leWord, BitVec.toNat_or]
    refine Nat.or_lt_two_pow ?_ hx
    rw [BitVec.toNat_shiftLeft, Nat.shiftLeft_eq]
    calc (leWord b).toNat * 2 ^ 8 % 2 ^ 32
        ≤ (leWord b).toNat * 2 ^ 8 := Nat.mod_le _ _
      _ < 2 ^ (8 * b.length) * 2 ^ 8 := Nat.mul_lt_mul_of_pos_right ih (by decide)
      _ = 2 ^ (8 * (x :: b).length) := by rw [← Nat.pow_add, List.length_cons]; congr 1

/-! ### The buffer window while idle -/

/-- Every access's size divides the window's base (20_memory.md R71). -/
theorem aligned_windowBase_add (w : Nat) (width : Width) :
    aligned (windowBase + w) width = decide (w % width.bytes = 0) := by
  have h : (windowBase + w) % width.bytes = w % width.bytes := by
    unfold windowBase
    cases width <;> simp only [Width.bytes] <;> omega
  rw [aligned, h]
  rfl

section Window

variable {w : Nat} (hb : s.status.busy = false) (hw : w < Config.bufBytes)
include hb hw

/-- An aligned window write while idle stores its lanes (20_memory.md R74). -/
theorem State.hostWrite_window (ha : w % width.bytes = 0) :
    s.hostWrite (windowBase + w) width v = .next (s.store w (leBytes width.bytes v)) := by
  have hregion := Region.ofOffset_of_mem_window (Nat.le_add_right windowBase w) (Nat.add_lt_add_left hw _)
  simp [State.hostWrite, hregion, hb, aligned_windowBase_add, ha]

theorem State.hostWrite_window_of_misaligned (ha : w % width.bytes ≠ 0) :
    s.hostWrite (windowBase + w) width v = .refused (.bufferMisaligned (windowBase + w)) := by
  have hregion := Region.ofOffset_of_mem_window (Nat.le_add_right windowBase w) (Nat.add_lt_add_left hw _)
  simp [State.hostWrite, hregion, hb, aligned_windowBase_add, ha]

theorem State.hostRead_window_of_misaligned (ha : w % width.bytes ≠ 0) :
    s.hostRead (windowBase + w) width = .refused (.bufferMisaligned (windowBase + w)) := by
  have hregion := Region.ofOffset_of_mem_window (Nat.le_add_right windowBase w) (Nat.add_lt_add_left hw _)
  simp [State.hostRead, hregion, hb, aligned_windowBase_add, ha]

/-- An aligned window read of written bytes while idle drives their word (20_memory.md R74). -/
theorem State.hostRead_window_of_ok {b : Bytes} (ha : w % width.bytes = 0)
    (hr : s.buf.readBytes w width.bytes = .ok b) :
    s.hostRead (windowBase + w) width = .next (s.driveRead (leWord b)) := by
  have hregion := Region.ofOffset_of_mem_window (Nat.le_add_right windowBase w) (Nat.add_lt_add_left hw _)
  simp [State.hostRead, hregion, hb, aligned_windowBase_add, ha, hr]

/-- An aligned window read that covers an unwritten byte faults (10_state.md R33). -/
theorem State.hostRead_window_of_error {x : Nat} (ha : w % width.bytes = 0)
    (hr : s.buf.readBytes w width.bytes = .error x) :
    s.hostRead (windowBase + w) width = .fault (.hostReadUnwritten x s.recordFault) := by
  have hregion := Region.ofOffset_of_mem_window (Nat.le_add_right windowBase w) (Nat.add_lt_add_left hw _)
  simp [State.hostRead, hregion, hb, aligned_windowBase_add, ha, hr]

end Window

/-- Settles O22: an aligned write is one `store` of the word's lanes; alignment is checked before any byte is touched.
-/
theorem windowWriteStoresLanes : Obligations.WindowWriteStoresLanes := by
  intro s w width v rest hf hb hw
  refine ⟨fun ha hs => ?aligned, fun ha hs => ?misaligned⟩
  case aligned =>
    have hlen : (leBytes width.bytes v).length = width.bytes := leBytes_length _ _
    refine ⟨_, (step_of_schedule hf hs).trans (State.hostWrite_window (s := { s with schedule := rest }) hb hw ha),
      fun j hj => ?_, State.keepsBufferOutside_of_writeBytes rfl hlen.le, rfl⟩
    have hj' : j < (leBytes width.bytes v).length := hlen.symm ▸ hj
    exact (Memory.read_writeBytes_inside _ _ _ _ hj').trans (congrArg some (leBytes_getElem _ _ _ hj'))
  case misaligned =>
    rcases hs with hs | hs
    · exact (step_of_schedule hf hs).trans
        (State.hostWrite_window_of_misaligned (s := { s with schedule := rest }) hb hw ha)
    · exact (step_of_schedule hf hs).trans
        (State.hostRead_window_of_misaligned (s := { s with schedule := rest }) hb hw ha)

/-- Settles O23: the read is one `readBytes` of the access's range, and its bytes are the lanes of the word driven. -/
theorem windowReadReturnsLanes : Obligations.WindowReadReturnsLanes := by
  intro s w width rest hf hb hend ha hs
  have hw : w < Config.bufBytes := by
    have := width.bytes_pos
    omega
  refine ⟨fun b hl hh => ?written, fun hnot => ?unwritten⟩
  case written =>
    have hr : s.buf.readBytes w width.bytes = .ok b := (Memory.readBytes_eq_ok _ _ _ _).2 ⟨hl, hh⟩
    have hl4 : b.length ≤ 4 := by
      rw [hl]
      cases width <;> decide
    exact ⟨leWord b,
      (step_of_schedule hf hs).trans (State.hostRead_window_of_ok (s := { s with schedule := rest }) hb hw ha hr),
      leWord_extractLsb' b hl4, hl ▸ leWord_toNat_lt b⟩
  case unwritten =>
    cases hr : s.buf.readBytes w width.bytes with
    | ok b => exact absurd ((Memory.readBytes_ok_iff_written _ _ _).1 ⟨b, hr⟩) hnot
    | error x =>
      exact ⟨x, _, (step_of_schedule hf hs).trans
        (State.hostRead_window_of_error (s := { s with schedule := rest }) hb hw ha hr), rfl⟩

/-! ### The other registers -/

/-- The RES registers stand four bytes apart (10_state.md R47). -/
theorem Reg.ofOffset_res (i : Fin 8) : Reg.ofOffset (0x060 + 4 * i.val) = .res i := by
  revert i
  decide

/-- CAPS2 as a number, field by field (10_state.md R41). -/
theorem State.readReg_caps2 (s : State) : s.readReg .caps2 = BitVec.ofNat 32 ((if Config.hasSkein then 1 else 0)
    + Config.maxAuthKeyBytes * 2 ^ 8 + Config.maxMkiBytes * 2 ^ 16
    + (if Config.hasSkein then Config.skeinMacBytes else 0) * 2 ^ 24) := by
  rw [State.readReg, caps2Value]
  simp [Config.hasSkein]
  decide

/-- Settles O60: the offsets are the registers', whose reads and writes are `readReg`'s and `writeReg`'s cases. -/
theorem registersReadBackAndIgnoreWrites : Obligations.RegistersReadBackAndIgnoreWrites := by
  intro s v rest hf
  have hbelow : ∀ off, off < 0x080 → off < windowBase := fun off h => by unfold windowBase; omega
  refine ⟨?reads, fun i hi => ⟨fun hs => ?readArg, fun hs => ?readRes, fun hs => ?writeArg, fun hs => ?writeRes⟩,
    ?ignored⟩
  case reads =>
    simp only [List.forall_mem_cons]
    refine ⟨fun hs => ?_, fun hs => ?_, fun hs => ?_, fun hs => ?_, fun hs => ?_, nofun⟩
    · exact step_of_register_read (r := .caps0) hf hs (by decide) rfl rfl
    · exact step_of_register_read (r := .caps1) hf hs (by decide) rfl rfl
    · exact step_of_register_read (r := .cmd) hf hs (by decide) rfl rfl
    · rw [← s.readReg_caps2]
      exact step_of_register_read (r := .caps2) hf hs (by decide) rfl rfl
    · exact step_of_register_read (r := .errInfo) hf hs (by decide) rfl rfl
  case readArg =>
    exact step_of_register_read hf hs (hbelow _ (by omega)) (by omega) (Reg.ofOffset_arg ⟨i, hi⟩)
  case readRes =>
    exact step_of_register_read hf hs (hbelow _ (by omega)) (by omega) (Reg.ofOffset_res ⟨i, hi⟩)
  case writeArg => exact step_of_arg_write hi hf hs
  case writeRes =>
    exact step_of_register_write hf hs (hbelow _ (by omega)) (by omega) (Reg.ofOffset_res ⟨i, hi⟩)
  case ignored =>
    simp only [List.forall_mem_cons]
    refine ⟨fun hs => ?_, fun hs => ?_, fun hs => ?_, fun hs => ?_, nofun⟩
    · exact step_of_register_write (r := .caps0) hf hs (by decide) rfl rfl
    · exact step_of_register_write (r := .caps1) hf hs (by decide) rfl rfl
    · exact step_of_register_write (r := .caps2) hf hs (by decide) rfl rfl
    · exact step_of_register_write (r := .errInfo) hf hs (by decide) rfl rfl

end Sys2Proof.Machine
end

section
/-! SUPPORT. The slot CTX_NEW builds from its parameter block and the slot CTX_CLONE builds from its source; and from
it the statements about construction (46_context_mgmt.md R271 to R273; 30_encoding.md R106, R108, R110). -/

namespace Sys2Proof.Machine

variable {s : State} {c : Nat}

/-! ### The bytes of a block -/

/-- The n bytes of a block from byte lo on. -/
def blockBytes (b : Nat → Byte) (lo n : Nat) : Bytes := (List.range n).map fun j => b (lo + j)

@[simp] theorem blockBytes_length (b : Nat → Byte) (lo n : Nat) : (blockBytes b lo n).length = n := by simp [blockBytes]

theorem blockBytes_getD (b : Nat → Byte) (lo n j : Nat) :
    (blockBytes b lo n).getD j 0 = if j < n then b (lo + j) else 0 := by
  split_ifs with h
  · rw [List.getD_eq_getElem _ _ (by simpa using h)]
    simp [blockBytes]
  · exact List.getD_eq_default _ _ (by simpa using h)

theorem holds_blockBytes {m : Memory} {pb lo n : Nat} {b : Nat → Byte}
    (h : ∀ j, lo ≤ j → j < lo + n → m.read (pb + j) = some (b j)) : m.holds (pb + lo) (blockBytes b lo n) := by
  intro j hj
  rw [blockBytes_length] at hj
  rw [Nat.add_assoc, h (lo + j) (by omega) (by omega)]
  simp [blockBytes]

/-- A byte string with one more byte behind it, as a number. -/
theorem append_byte_toNat {w : Nat} (x : BitVec w) (y : Byte) : (x ++ y).toNat = x.toNat * 256 + y.toNat := by
  rw [BitVec.toNat_append, ← Nat.shiftLeft_add_eq_or_of_lt y.isLt, Nat.shiftLeft_eq]

/-- Four bytes of the block, most significant first (20_memory.md R80). -/
theorem beval_blockBytes_four (b : Nat → Byte) (lo : Nat) :
    BitVec.ofNat 32 (beval (blockBytes b lo 4)) = b lo ++ b (lo + 1) ++ b (lo + 2) ++ b (lo + 3) := by
  apply BitVec.eq_of_toNat_eq
  simp only [append_byte_toNat, BitVec.toNat_ofNat]
  simp [beval, blockBytes, List.range_succ]
  omega

/-- Eight bytes of the block, most significant first (20_memory.md R80). -/
theorem beval_blockBytes_eight (b : Nat → Byte) (lo : Nat) :
    BitVec.ofNat 64 (beval (blockBytes b lo 8)) = b lo ++ b (lo + 1) ++ b (lo + 2) ++ b (lo + 3) ++ b (lo + 4)
      ++ b (lo + 5) ++ b (lo + 6) ++ b (lo + 7) := by
  apply BitVec.eq_of_toNat_eq
  simp only [append_byte_toNat, BitVec.toNat_ofNat]
  simp [beval, blockBytes, List.range_succ]
  omega

/-! ### The effective algorithms (46_context_mgmt.md R271) -/

/-- The supported ids of encryption algorithms (30_encoding.md R110). -/
theorem EncAlgo.ofByte_cases (b : Byte) :
    (b.toNat = 0 ∧ EncAlgo.ofByte b = some .null) ∨ (b.toNat = 1 ∧ EncAlgo.ofByte b = some .aesCm)
      ∨ (b.toNat = 2 ∧ EncAlgo.ofByte b = some .aesF8) ∨ (2 < b.toNat ∧ EncAlgo.ofByte b = none) := by
  simp only [EncAlgo.ofByte, ← BitVec.toNat_inj]
  split_ifs <;> simp_all
  omega

/-- The supported ids of authentication algorithms (30_encoding.md R110). -/
theorem AuthAlgo.ofByte_cases (b : Byte) :
    (b.toNat = 0 ∧ AuthAlgo.ofByte b = some .null) ∨ (b.toNat = 1 ∧ AuthAlgo.ofByte b = some .hmacSha1)
      ∨ (b.toNat = 2 ∧ AuthAlgo.ofByte b = some .hmacSkein) ∨ (2 < b.toNat ∧ AuthAlgo.ofByte b = none) := by
  simp only [AuthAlgo.ofByte, ← BitVec.toNat_inj]
  split_ifs <;> simp_all
  omega

section Configure

variable (q : ParamHead)

theorem ParamHead.kdfOk_iff : q.kdfOk = true ↔ q.mkLen.toNat = 16 ∨ q.mkLen.toNat = 32 := beq_16_or_32 _

/-- The effective encryption algorithm and its Dis bit, in the numbers of the block. -/
theorem ParamHead.effectiveEnc_iff :
    (q.effectiveEnc = .aesCm ↔ q.encAlgo.toNat = 1 ∧ (q.mkLen.toNat = 16 ∨ q.mkLen.toNat = 32)
        ∧ (q.nE.toNat = 16 ∨ q.nE.toNat = 32))
      ∧ (q.effectiveEnc = .aesF8 ↔ q.encAlgo.toNat = 2 ∧ (q.mkLen.toNat = 16 ∨ q.mkLen.toNat = 32)
        ∧ (q.nE.toNat = 16 ∨ q.nE.toNat = 32) ∧ q.nS.toNat ≤ q.nE.toNat)
      ∧ ((!q.encOk) = true ↔ q.effectiveEnc = .null ∧ q.encAlgo.toNat ≠ 0) := by
  rw [← beq_16_or_32 q.nE, ← q.kdfOk_iff]
  unfold ParamHead.effectiveEnc ParamHead.encOk
  obtain ⟨hid, hb⟩ | ⟨hid, hb⟩ | ⟨hid, hb⟩ | ⟨hid, hb⟩ := EncAlgo.ofByte_cases q.encAlgo
  · simp [hid, hb]
  · cases q.kdfOk <;> cases q.nE == 16 || q.nE == 32 <;> simp [hid, hb]
  · by_cases hsalt : q.nS.toNat ≤ q.nE.toNat <;> cases q.kdfOk <;> cases q.nE == 16 || q.nE == 32 <;>
      simp [hid, hb, hsalt]
  · simp [hb, show q.encAlgo.toNat ≠ 0 by omega, show q.encAlgo.toNat ≠ 1 by omega, show q.encAlgo.toNat ≠ 2 by omega]

/-- The effective authentication algorithm and its Dis bit, in the numbers of the block. -/
theorem ParamHead.effectiveAuth_iff (hasSkein : Bool) (n : Nat) :
    (q.effectiveAuth hasSkein n = .hmacSha1 ↔ q.authAlgo.toNat = 1 ∧ (q.mkLen.toNat = 16 ∨ q.mkLen.toNat = 32)
        ∧ q.tagLen.toNat ≤ 20)
      ∧ (q.effectiveAuth hasSkein n = .hmacSkein ↔ q.authAlgo.toNat = 2 ∧ hasSkein = true
        ∧ (q.mkLen.toNat = 16 ∨ q.mkLen.toNat = 32) ∧ q.tagLen.toNat ≤ n)
      ∧ ((!q.authOk hasSkein n) = true ↔ q.effectiveAuth hasSkein n = .null ∧ q.authAlgo.toNat ≠ 0) := by
  rw [← q.kdfOk_iff]
  unfold ParamHead.effectiveAuth ParamHead.authOk
  obtain ⟨hid, hb⟩ | ⟨hid, hb⟩ | ⟨hid, hb⟩ | ⟨hid, hb⟩ := AuthAlgo.ofByte_cases q.authAlgo
  · simp [hid, hb]
  · by_cases htag : q.tagLen.toNat ≤ 20 <;> cases q.kdfOk <;> simp [hid, hb, Config.hmacSha1Bytes, htag]
  · by_cases htag : q.tagLen.toNat ≤ n <;> cases hasSkein <;> cases q.kdfOk <;> simp [hid, hb, htag]
  · simp [hb, show q.authAlgo.toNat ≠ 0 by omega, show q.authAlgo.toNat ≠ 1 by omega,
      show q.authAlgo.toNat ≠ 2 by omega]

end Configure

/-! ### CTX_NEW -/

/-- The head of a block whose byte j is b j (30_encoding.md R108). -/
def blockHead (b : Nat → Byte) : ParamHead := ⟨b 0, b 1, b 2, b 3, b 4, b 5, b 6, b 7, b 8, b 9⟩

theorem ParamHead.ofBytes_blockBytes (b : Nat → Byte) : ParamHead.ofBytes (blockBytes b 0 10) = blockHead b := by
  simp only [ParamHead.ofBytes, blockHead, blockBytes_getD, Nat.zero_add, Nat.reduceLT, if_true]

/-- The slot CTX_NEW builds from a block whose byte j is b j (46_context_mgmt.md R272). -/
def slotOfBlock (b : Nat → Byte) : Slot :=
  newSlot Config.hasSkein Config.skeinMacBytes (blockHead b) (BitVec.ofNat 32 (beval (blockBytes b 12 4)))
    (BitVec.ofNat 64 (beval (blockBytes b 16 8))) (blockBytes b 24 (b 3).toNat) (blockBytes b 56 (b 4).toNat)
    (blockBytes b 72 (b 9).toNat)

/-- A block within its capacities, with the bytes CTX_NEW reads written, is installed as its slot. -/
theorem execCtxNew_of_block {b : Nat → Byte} (hc : c < Config.numCtx) (hfit : s.larg[0].toNat + 88 ≤ Config.bufBytes)
    (hb : ∀ j, (j < 10 ∨ (12 ≤ j ∧ j < 24) ∨ (24 ≤ j ∧ j < 24 + (b 3).toNat) ∨ (56 ≤ j ∧ j < 56 + (b 4).toNat)
      ∨ (72 ≤ j ∧ j < 72 + (b 9).toNat)) → s.buf.read (s.larg[0].toNat + j) = some (b j))
    (hq : (blockHead b).overCapacity = none) : execCtxNew c s = .next (s.installSlot c (slotOfBlock b)) := by
  obtain ⟨k, hk⟩ := s.exists_slot_of_lt hc
  have hhead : s.buf.holds s.larg[0].toNat (blockBytes b 0 10) := holds_blockBytes fun j _ _ => hb j (by omega)
  have hssrc : s.buf.holds (s.larg[0].toNat + 12) (blockBytes b 12 4) := holds_blockBytes fun j _ _ => hb j (by omega)
  have hkdr : s.buf.holds (s.larg[0].toNat + 16) (blockBytes b 16 8) := holds_blockBytes fun j _ _ => hb j (by omega)
  have hmk : s.buf.holds (s.larg[0].toNat + 24) (blockBytes b 24 (b 3).toNat) :=
    holds_blockBytes fun j _ _ => hb j (by omega)
  have hms : s.buf.holds (s.larg[0].toNat + 56) (blockBytes b 56 (b 4).toNat) :=
    holds_blockBytes fun j _ _ => hb j (by omega)
  have hmki : s.buf.holds (s.larg[0].toNat + 72) (blockBytes b 72 (b 9).toNat) :=
    holds_blockBytes fun j _ _ => hb j (by omega)
  rw [execCtxNew, State.onSlot_of_some hk]
  simp only [(fits_iff _ _).2 hfit, paramBlockBytes, Bool.not_true, Bool.false_eq_true, if_false]
  rw [State.load_of_holds (blockBytes_length _ _ _) hhead, ParamHead.ofBytes_blockBytes, hq]
  dsimp only [State.loadParamRest, blockHead]
  rw [State.load_of_holds (blockBytes_length _ _ _) hssrc, State.load_of_holds (blockBytes_length _ _ _) hkdr,
    State.load_of_holds (blockBytes_length _ _ _) hmk, State.load_of_holds (blockBytes_length _ _ _) hms,
    State.load_of_holds (blockBytes_length _ _ _) hmki]
  rfl

/-- Settles O35: the block is installed as `slotOfBlock`, whose fields are read off the block's bytes. -/
theorem ctxNewBuildsTheSlotFromTheBlock : Obligations.CtxNewBuildsTheSlotFromTheBlock := by
  intro c s b hc hfit hb h0 h3 h4 h5 h6 h7 h9 kdf aesKey
  have hq : (blockHead b).overCapacity = none := by
    refine ParamHead.overCapacity_eq_none fun o ho => ?_
    simp only [ParamHead.Exceeds, blockHead] at ho
    omega
  obtain ⟨hcm, hf8, hencDis⟩ := (blockHead b).effectiveEnc_iff
  obtain ⟨hsha1, hskein, hauthDis⟩ := (blockHead b).effectiveAuth_iff Config.hasSkein Config.skeinMacBytes
  refine ⟨_, slotOfBlock b, execCtxNew_of_block hc hfit hb hq, State.slot?_setSlot_same _ hc, rfl, ?kind, rfl, rfl, rfl,
    rfl, rfl, rfl, rfl, beval_blockBytes_four b 12, beval_blockBytes_eight b 16, fun j hj => ?masterKey,
    fun j hj => ?masterSalt, fun j hj => ?mki, hcm, hf8, hencDis, hsha1, hskein, hauthDis, ?keys, ?index, rfl, rfl⟩
  case kind =>
    show Kind.ofByte (b 0) = .srtcp ↔ (b 0).toNat = 1
    simp only [Kind.ofByte, ← BitVec.toNat_inj]
    split_ifs with h <;> simp at h ⊢ <;> omega
  case masterKey | masterSalt | mki =>
    exact (padTo_getElem _ _ _ _).trans (blockBytes_getD _ _ _ _)
  case keys => constructor <;> rfl
  case index => constructor <;> rfl

/-! ### CTX_CLONE -/

/-- The rate operand as a number (30_encoding.md R106). -/
theorem State.kdrOperand_eq (s : State) :
    s.kdrOperand = BitVec.ofNat 64 (s.larg[3].toNat * 2 ^ 32 + s.larg[4].toNat) := by
  apply BitVec.eq_of_toNat_eq
  have hhi := s.larg[3].isLt
  have hlo := s.larg[4].isLt
  refine (BitVec.toNat_append _ _).trans ?_
  rw [← Nat.shiftLeft_add_eq_or_of_lt hlo, Nat.shiftLeft_eq, BitVec.toNat_ofNat, Nat.mod_eq_of_lt]
  omega

/-- The roc of a clone: the operand in an SRTP slot, 0 in an SRTCP slot (46_context_mgmt.md R273). -/
theorem cloneSlot_roc (u : Slot) (ssrc roc : Word) (kdr : BitVec 64) :
    (u.kind = .srtp → (cloneSlot u ssrc roc kdr).roc = roc ∧ (cloneSlot u ssrc roc kdr).guessedRoc = roc)
      ∧ (u.kind = .srtcp → (cloneSlot u ssrc roc kdr).roc = 0 ∧ (cloneSlot u ssrc roc kdr).guessedRoc = 0) := by
  constructor <;> intro h <;> simp [cloneSlot, h]

/-- Settles O37: the destination is `cloneSlot` of the source, with the operands' SSRC, roc and rate. -/
theorem ctxCloneCopiesTheSource : Obligations.CtxCloneCopiesTheSource := by
  intro c s u hc hu hv
  obtain ⟨k, hk⟩ := s.exists_slot_of_lt hc
  obtain ⟨hsrtp, hsrtcp⟩ := cloneSlot_roc u s.larg[1] s.larg[2] s.kdrOperand
  refine ⟨_, cloneSlot u s.larg[1] s.larg[2] s.kdrOperand,
    (State.onSlot_of_some hk).trans (State.onValidSlot_of_some hu hv), State.slot?_setSlot_same _ hc, ?config, ?keys,
    rfl, rfl, rfl, hsrtp, hsrtcp, rfl, rfl⟩
  case config =>
    rw [State.kdrOperand_eq]
    exact ⟨hv.symm, rfl, rfl, rfl, rfl, rfl, rfl, rfl, rfl, rfl, rfl, rfl, rfl, rfl, rfl, rfl, rfl, rfl⟩
  case keys => constructor <;> rfl

end Sys2Proof.Machine
end

section
/-! SUPPORT. The session keys DERIVE writes, as 43_key_derivation.md writes the KDF out; and from it the statements
about DERIVE (43_key_derivation.md R200 to R204, R207). -/

namespace Sys2Proof.Machine

variable {s : State} {c : Nat} {k : Slot}

/-- A string of at most n bytes, padded, is the string and zeros (10_state.md R34 (a)). -/
theorem padTo_toList (n : Nat) (b : Bytes) (h : b.length ≤ n) : (padTo n b).toList = b ++ zeros (n - b.length) := by
  apply List.ext_getElem
  · simp
    omega
  · intro i hi _
    have hi : i < n := by simpa using hi
    rw [Vector.getElem_toList, padTo_getElem, List.getElem_append]
    split_ifs with hb
    · exact List.getD_eq_getElem _ _ hb
    · rw [List.getD_eq_default _ _ (by omega)]
      simp [zeros]

/-- The KDF on a slot's master key and salt, as R200 and R202 write it out. -/
theorem Slot.kdf_eq_kdfBytes (k : Slot) (i : BitVec 48) (label n : Nat) :
    kdf label (rOfIndex k.kdr i) k.masterKeyBytes k.masterSaltBytes n = k.kdfBytes label (k.rNat i.toNat) n := by
  rw [kdf, kdfIv, rOfIndex_toNat, Slot.kdfBytes]
  rfl

theorem Slot.kdfBytes_length (k : Slot) (label r n : Nat) : (k.kdfBytes label r n).length = n :=
  cmKeystream_length _ _ _

/-- The key fields of a slot whose keys are derived: each label's KDF output and zeros behind it (43_key_derivation.md
R203, R204). -/
theorem Slot.deriveKeys_toList (k : Slot) (i : BitVec 48) (hnE : k.nE.toNat ≤ 32)
    (hnA : k.nA.toNat ≤ Config.maxAuthKeyBytes) (hnS : k.nS.toNat ≤ 14) :
    (k.deriveKeys i).kE.toList
        = k.kdfBytes (kdfLabel k.kind) (k.rNat i.toNat) k.nE.toNat ++ zeros (32 - k.nE.toNat)
      ∧ (k.deriveKeys i).kA.toList
        = k.kdfBytes (kdfLabel k.kind + 1) (k.rNat i.toNat) k.nA.toNat ++ zeros (Config.maxAuthKeyBytes - k.nA.toNat)
      ∧ (k.deriveKeys i).kS.toList
        = k.kdfBytes (kdfLabel k.kind + 2) (k.rNat i.toNat) k.nS.toNat ++ zeros (14 - k.nS.toNat) := by
  simp only [Slot.deriveKeys_kE, Slot.deriveKeys_kA, Slot.deriveKeys_kS, Slot.kdf_eq_kdfBytes]
  refine ⟨?_, ?_, ?_⟩
  · rw [padTo_toList _ _ (by rwa [Slot.kdfBytes_length]), Slot.kdfBytes_length]
  · rw [padTo_toList _ _ (by rwa [Slot.kdfBytes_length]), Slot.kdfBytes_length]
  · rw [padTo_toList _ _ (by rwa [Slot.kdfBytes_length]), Slot.kdfBytes_length]

theorem execDerive_of_kdfOk (hk : s.slot? c = some k) (hv : k.valid = true) (hkdf : k.kdfOk = true) :
    execDerive c s = .next ((s.setSlot c (k.deriveKeys (s.deriveIndex k.kind))).setDeriveResult 1
      (rOfIndex k.kdr (s.deriveIndex k.kind))).complete := by
  rw [execDerive, State.onValidSlot_of_some hk hv]
  exact if_pos hkdf

theorem execDerive_of_not_kdfOk (hk : s.slot? c = some k) (hv : k.valid = true) (hkdf : k.kdfOk = false) :
    execDerive c s = .next (s.setDeriveResult 0 0).complete := by
  rw [execDerive, State.onValidSlot_of_some hk hv]
  exact if_neg (by rw [hkdf]; exact Bool.false_ne_true)

/-- The three RES words of DERIVE, the index as a number (43_key_derivation.md R207). -/
theorem State.setDeriveResult_words (s : State) (d : Word) (r : BitVec 48) :
    (s.setDeriveResult d r).res[0] = d ∧ (s.setDeriveResult d r).res[1].toNat = r.toNat / 2 ^ 32
      ∧ (s.setDeriveResult d r).res[2].toNat = r.toNat % 2 ^ 32 := by
  have hr := r.isLt
  simp [hi16_eq_ofNat, lo32_eq_ofNat]
  omega

/-- Settles O41: DERIVE stores `deriveKeys`, whose key fields are the KDF's outputs, and reports the index they were
derived at. -/
theorem deriveWritesTheSessionKeys : Obligations.DeriveWritesTheSessionKeys := by
  intro c s k hk hv hmk hnE hnA hnS i r mk ms label key
  have hi : i = (s.deriveIndex k.kind).toNat := (indexOperand_toNat k.kind s.larg[0] s.larg[1]).symm
  have hr : r = k.rNat (s.deriveIndex k.kind).toNat := by rw [← hi]; rfl
  have hlabel : label = kdfLabel k.kind := by
    simp only [label]
    cases k.kind <;> rfl
  have hkey : ∀ l n, key l n = k.kdfBytes l r n := fun _ _ => rfl
  obtain ⟨hkE, hkA, hkS⟩ := k.deriveKeys_toList (s.deriveIndex k.kind) hnE hnA hnS
  obtain ⟨hres0, hres1, hres2⟩ := (s.setSlot c (k.deriveKeys (s.deriveIndex k.kind))).setDeriveResult_words 1
    (rOfIndex k.kdr (s.deriveIndex k.kind))
  rw [rOfIndex_toNat, ← hr] at hres1 hres2
  rw [← hr, ← hlabel, ← hkey] at hkE hkA hkS
  have hslot := (k.deriveKeys_derivedAt (s.deriveIndex k.kind)).rest
  rw [← hr] at hslot
  refine ⟨_, _, _, _, execDerive_of_kdfOk hk hv ((beq_16_or_32 _).2 hmk), ⟨rfl, rfl⟩, ?slot, hkE, hkA, hkS, hres0,
    hres1, hres2⟩
  case slot => exact (State.slot?_setSlot_same _ (State.slot?_lt hk)).trans (congrArg some hslot)

/-- Settles O42: without a usable master key DERIVE writes zeros to RES0 to RES2 and stores no slot. -/
theorem deriveWithoutMasterKeyIsANoOp : Obligations.DeriveWithoutMasterKeyIsANoOp := by
  intro c s k hk hv h16 h32
  have hkdf : k.kdfOk = false := by
    rw [← Bool.not_eq_true, Slot.kdfOk, beq_16_or_32]
    omega
  obtain ⟨hres0, hres1, hres2⟩ := s.setDeriveResult_words 0 0
  exact ⟨_, execDerive_of_not_kdfOk hk hv hkdf, ⟨rfl, rfl⟩, rfl, hres0, BitVec.eq_of_toNat_eq hres1,
    BitVec.eq_of_toNat_eq hres2⟩

end Sys2Proof.Machine
end

section
/-! SUPPORT. The index arithmetic on where packets stand: the index GUESS answers, the verdict of CHECK, what UPDATE
commits, and that a committed packet is rejected; and from it the statements about the three commands and the
roll-over counter (44_replay_index.md R221 to R230). -/

namespace Sys2Proof.Machine

variable {s t : State} {c : Nat} {k : Slot}

/-! ### First packets and guesses -/

/-- A first packet, by the slot's kind (44_replay_index.md R221). -/
theorem Slot.firstPacket_eq (k : Slot) (x : Word) (p : Config.RocPolicy) : k.firstPacket p x = match k.kind with
    | .srtp => { k with sL := x, seqSet := true, roc := k.firstRoc p, guessedRoc := k.firstRoc p }
    | .srtcp => { k with sL := x, seqSet := true } := by
  unfold Slot.firstPacket Slot.firstRoc
  cases k.kind <;> rfl

/-- The packet operand is its number (30_encoding.md R107). -/
theorem State.xOperand_eq_ofNat (s : State) (kind : Kind) : s.xOperand kind = BitVec.ofNat 32 (s.xNat kind) := by
  rw [← State.xOperand_toNat, BitVec.ofNat_toNat, BitVec.setWidth_eq]

/-- The guess recorded in a slot, by its kind (44_replay_index.md R228, R229). -/
theorem Slot.recordGuess_eq (k : Slot) (x : Word) : k.recordGuess x = match k.kind with
    | .srtp => { k with guessedRoc := BitVec.ofNat 32 (k.guessNat x.toNat) }
    | .srtcp => k := by
  rw [Slot.recordGuess, Slot.guessRoc_eq] <;> cases k.kind <;> rfl

/-! ### Result words -/

theorem State.complete_setRes_zero (u : State) (a : Word) : (u.setRes 0 a).complete.res[0] = a := by simp

theorem State.complete_setRes_two (u : State) (a b : Word) : ((u.setRes 0 a).setRes 1 b).complete.res[0] = a
    ∧ ((u.setRes 0 a).setRes 1 b).complete.res[1] = b := by simp

/-! ### GUESS -/

/-- The 48-bit index, as its two result words (44_replay_index.md R223, R227). -/
theorem packetIndex_words (v seq : Word) (hseq : seq.toNat < 65536) :
    (hi16 (packetIndex v seq)).toNat * 2 ^ 32 + (lo32 (packetIndex v seq)).toNat = v.toNat * 65536 + seq.toNat := by
  have hv := v.isLt
  rw [hi16_eq_ofNat, lo32_eq_ofNat, packetIndex]
  simp only [BitVec.toNat_ofNat]
  omega

theorem execGuess_of_srtp (hk : s.slot? c = some k) (hv : k.valid = true) (hkind : k.kind = .srtp) :
    execGuess c s = .next (((s.setSlot c (k.guess Config.firstRocPolicy s.seqOperand).2).setRes 0
      (hi16 (k.guess Config.firstRocPolicy s.seqOperand).1)).setRes 1
      (lo32 (k.guess Config.firstRocPolicy s.seqOperand).1)).complete := by
  rw [execGuess, State.onValidSlot_of_some hk hv]
  simp only [hkind]

theorem Slot.guess_of_seqSet (hs : k.seqSet = true) (x : Word) (p : Config.RocPolicy) :
    k.guess p x = (packetIndex (k.guessRoc x) x, { k with guessedRoc := k.guessRoc x }) := by
  rw [Slot.guess, if_pos hs]

theorem Slot.guess_of_first (hs : k.seqSet = false) (hkind : k.kind = .srtp) (x : Word) (p : Config.RocPolicy) :
    k.guess p x = (packetIndex (k.firstRoc p) x,
      { k with sL := x, seqSet := true, roc := k.firstRoc p, guessedRoc := k.firstRoc p }) := by
  rw [Slot.guess, if_neg (by rw [hs]; exact Bool.false_ne_true), Slot.firstPacket_eq]
  simp only [hkind]

/-- Settles O43: the two branches of `guess`, with the index split over RES0 and RES1. -/
theorem guessAnswersTheIndex : Obligations.GuessAnswersTheIndex := by
  intro c s k hk hv hkind seq roc0 v
  have hseq : s.seqOperand.toNat = seq := s.xOperand_toNat .srtp
  have hx : s.seqOperand = BitVec.ofNat 32 seq := s.xOperand_eq_ofNat .srtp
  obtain ⟨g, hg, hguess⟩ : ∃ g : Word, g.toNat = v ∧ k.guess Config.firstRocPolicy s.seqOperand
      = (packetIndex g s.seqOperand, if k.seqSet then { k with guessedRoc := BitVec.ofNat 32 v }
        else { k with sL := BitVec.ofNat 32 seq, seqSet := true, roc := roc0, guessedRoc := roc0 }) := by
    by_cases hs : k.seqSet = true
    · have hv : v = k.guessNat seq := if_pos hs
      exact ⟨k.guessRoc s.seqOperand, by rw [Slot.guessRoc_toNat, hseq, hv],
        by rw [Slot.guess_of_seqSet hs, if_pos hs, Slot.guessRoc_eq, hseq, hv]⟩
    · have hv : v = roc0.toNat := if_neg hs
      exact ⟨roc0, hv.symm, by rw [Slot.guess_of_first (by simpa using hs) hkind, if_neg hs, ← hx]⟩
  refine ⟨_, execGuess_of_srtp hk hv hkind, ⟨rfl, rfl⟩, ?index, ?slot⟩
  case index =>
    obtain ⟨hres0, hres1⟩ := State.complete_setRes_two (s.setSlot c (k.guess Config.firstRocPolicy s.seqOperand).2)
      (hi16 (k.guess Config.firstRocPolicy s.seqOperand).1) (lo32 (k.guess Config.firstRocPolicy s.seqOperand).1)
    rw [hres0, hres1, hguess, packetIndex_words g s.seqOperand (by omega), hg, hseq]
  case slot =>
    rw [hguess]
    exact State.slot?_setSlot_same _ (State.slot?_lt hk)

/-- Settles O44: GUESS looks at the kind first. -/
theorem guessOnSrtcpRaisesBadKind : Obligations.GuessOnSrtcpRaisesBadKind := by
  intro c s k hk hv hkind
  have h : exec (.guess c) s = .next (s.raise .badKind (BitVec.ofNat 32 c)) := by
    refine (State.onValidSlot_of_some hk hv).trans ?_
    rw [hkind]
  exact ⟨_, h, s.raise_errs .badKind _⟩

/-! ### CHECK -/

/-- The verdict on a packet that is not the first, on where the packets stand (44_replay_index.md R225, R228). -/
theorem acceptDelta_iff (mask : BitVec 64) (last current : Nat) :
    acceptDelta mask ((current : Int) - last) = true ↔ last < current ∨ last = current + 64
      ∨ (last < current + 64 ∧ mask.getLsbD (last - current) = false) := by
  have hoff : (-((current : Int) - last)).toNat = last - current := by omega
  rw [acceptDelta, hoff, replayBit]
  split_ifs with hnew hfar hend
  · simp [show last < current by omega]
  · simp; omega
  · simp; omega
  · simp [show ¬ last < current by omega, show last ≠ current + 64 by omega, show last < current + 64 by omega]

theorem execCheck_of_valid (hk : s.slot? c = some k) (hv : k.valid = true) :
    execCheck c s = .next (((s.setSlot c (k.check Config.firstRocPolicy (s.xOperand k.kind)).2).setAccept
      (k.check Config.firstRocPolicy (s.xOperand k.kind)).1).setRes 0
      (flagAt (k.check Config.firstRocPolicy (s.xOperand k.kind)).1 0)).complete := by
  rw [execCheck, State.onValidSlot_of_some hk hv]

theorem Slot.isNull_iff (k : Slot) : k.isNull = true ↔ k.encAlgo = .null ∧ k.authAlgo = .null := by
  simp [Slot.isNull]

/-- Settles O45: the three branches of `check`, with the verdict on the delta as where the packets stand. -/
theorem checkVerdict : Obligations.CheckVerdict := by
  intro c s k hk hv x roc0
  refine ⟨_, (k.check Config.firstRocPolicy (s.xOperand k.kind)).1,
    (k.check Config.firstRocPolicy (s.xOperand k.kind)).2,
    execCheck_of_valid hk hv, State.slot?_setSlot_same _ (State.slot?_lt hk), rfl, rfl, ?res, fun hnull => ?null,
    fun hnull hfirst => ?first, fun hnull hseq => ?later⟩
  case res => exact (State.complete_setRes_zero _ _).trans (flagAt_zero _)
  case null => rw [Slot.check, if_pos (k.isNull_iff.2 hnull)]; exact ⟨rfl, rfl⟩
  case first =>
    have hx : s.xOperand k.kind = BitVec.ofNat 32 x := s.xOperand_eq_ofNat k.kind
    rw [Slot.check, if_neg (hnull ∘ k.isNull_iff.1), if_pos (by rw [hfirst]; rfl), hx]
    exact ⟨rfl, k.firstPacket_eq (BitVec.ofNat 32 x) Config.firstRocPolicy⟩
  case later =>
    have hx : (s.xOperand k.kind).toNat = x := s.xOperand_toNat k.kind
    rw [Slot.check, if_neg (hnull ∘ k.isNull_iff.1), if_neg (by rw [hseq]; exact Bool.false_ne_true), Slot.delta_eq,
      acceptDelta_iff, ← hx]
    exact ⟨Iff.rfl, k.recordGuess_eq _⟩

/-! ### UPDATE -/

/-- The window of a newer packet: shifted by its lead d, with bit 0 set (44_replay_index.md R226, R229). -/
theorem shiftWindow_or_one (mask : BitVec 64) (d : Nat) :
    shiftWindow mask d ||| 1 = if d < 64 then BitVec.ofNat 64 (mask.toNat * 2 ^ d) ||| 1 else 1 := by
  unfold shiftWindow
  by_cases hd : d < 64
  · have hshift : mask <<< d = BitVec.ofNat 64 (mask.toNat * 2 ^ d) := by
      apply BitVec.eq_of_toNat_eq
      rw [BitVec.toNat_shiftLeft, Nat.shiftLeft_eq, BitVec.toNat_ofNat]
    rw [if_neg (by omega), if_pos hd, hshift]
  · rw [if_pos (by omega), if_neg hd]
    rfl

theorem one_shiftLeft_eq_ofNat (d : Nat) : 1#64 <<< d = BitVec.ofNat 64 (2 ^ d) := by
  apply BitVec.eq_of_toNat_eq
  rw [BitVec.toNat_shiftLeft, Nat.shiftLeft_eq, BitVec.toNat_ofNat, BitVec.toNat_ofNat, Nat.one_mod, Nat.one_mul]

/-- The commit of a packet newer than the last one (44_replay_index.md R229). -/
theorem Slot.commit_of_newer {x : Word} (h : k.lastNat < k.currentNat x.toNat) : k.commit x = { k.recordGuess x with
    replayMask := shiftWindow k.replayMask (k.currentNat x.toNat - k.lastNat) ||| 1
    sL := x
    roc := match k.kind with
      | .srtp => k.guessRoc x
      | .srtcp => k.roc } := by
  rw [Slot.commit, Slot.delta_eq]
  dsimp only
  rw [if_pos (by omega),
    show ((k.currentNat x.toNat : Int) - k.lastNat).toNat = k.currentNat x.toNat - k.lastNat by omega] <;> rfl

/-- The commit of a packet that is no newer than the last one: its bit where the window reaches it (44_replay_index.md
R229). -/
theorem Slot.commit_of_older {x : Word} (h : k.currentNat x.toNat ≤ k.lastNat) : k.commit x = { k.recordGuess x with
    replayMask := if k.lastNat - k.currentNat x.toNat < 64 then
        k.replayMask ||| (1#64 <<< (k.lastNat - k.currentNat x.toNat))
      else k.replayMask } := by
  have hmask : (k.recordGuess x).replayMask = k.replayMask := by
    unfold Slot.recordGuess
    cases k.kind <;> rfl
  rw [Slot.commit, Slot.delta_eq]
  dsimp only
  rw [if_neg (by omega),
    show (-((k.currentNat x.toNat : Int) - k.lastNat)).toNat = k.lastNat - k.currentNat x.toNat by omega]
  split_ifs
  · rfl
  · rw [← hmask]

theorem Slot.update_of_seqSet (hs : k.seqSet = true) (x : Word) (p : Config.RocPolicy) : k.update p x = k.commit x := by
  rw [Slot.update, if_pos hs]

theorem execUpdate_of_valid (hk : s.slot? c = some k) (hv : k.valid = true) : execUpdate c s
    = .next (s.setSlot c (k.update Config.firstRocPolicy (s.xOperand k.kind))).complete := by
  rw [execUpdate, State.onValidSlot_of_some hk hv]

/-- Settles O46: the two branches of `commit`, on where the packets stand. -/
theorem updateCommitsThePacket : Obligations.UpdateCommitsThePacket := by
  intro c s k hk hv hs x lead behind g
  have hx : (s.xOperand k.kind).toNat = x := s.xOperand_toNat k.kind
  have hxw : s.xOperand k.kind = BitVec.ofNat 32 x := s.xOperand_eq_ofNat k.kind
  have hg : k.recordGuess (s.xOperand k.kind) = g := by
    rw [Slot.recordGuess_eq, hx] <;> rfl
  have hslot : (s.setSlot c (k.update Config.firstRocPolicy (s.xOperand k.kind))).complete.slot? c
      = some (k.commit (s.xOperand k.kind)) := by
    rw [Slot.update_of_seqSet hs]
    exact State.slot?_setSlot_same _ (State.slot?_lt hk)
  refine ⟨_, execUpdate_of_valid hk hv, ⟨rfl, rfl⟩, fun hnewer => ?newer, fun holder => ?older⟩
  case newer =>
    rw [hslot, Slot.commit_of_newer (by rwa [hx]), hg, hx, shiftWindow_or_one, Slot.guessRoc_eq, hx, ← hxw] <;>
      rfl
  case older =>
    rw [hslot, Slot.commit_of_older (by rwa [hx]), hg, hx, one_shiftLeft_eq_ofNat]

/-! ### The last packet again -/

section Last

variable {x : Word} (h : k.sL = x)
include h

/-- The guess for the packet that is the last one is roc. -/
theorem Slot.guessNat_of_last : k.guessNat x.toNat = k.roc.toNat := by
  have hx := congrArg BitVec.toNat h
  obtain ⟨_, _, _⟩ | ⟨_, _, _⟩ | ⟨_, _, hguess⟩ | ⟨_, _, _⟩ := k.guessNat_cases x.toNat <;> omega

theorem Slot.currentNat_of_last : k.currentNat x.toNat = k.lastNat := by
  rw [Slot.currentNat, Slot.lastNat, Slot.guessNat_of_last h, h]

theorem Slot.recordGuess_of_last (hg : k.kind = .srtp → k.guessedRoc = k.roc) : k.recordGuess x = k := by
  unfold Slot.recordGuess
  split
  case h_1 hkind =>
    have hguess : k.guessRoc x = k.guessedRoc := by
      rw [Slot.guessRoc_eq, Slot.guessNat_of_last h, BitVec.ofNat_toNat, BitVec.setWidth_eq, hg hkind]
    rw [hguess]
  case h_2 => rfl

/-- A commit of the packet that is the last one sets bit 0 alone (44_replay_index.md R229). -/
theorem Slot.commit_of_last (hg : k.kind = .srtp → k.guessedRoc = k.roc) :
    k.commit x = { k with replayMask := k.replayMask ||| 1 } := by
  rw [Slot.commit_of_older (Slot.currentNat_of_last h).le, Slot.recordGuess_of_last h hg, Slot.currentNat_of_last h,
    Nat.sub_self]
  rfl

end Last

/-! ### UPDATE of a first packet -/

theorem Slot.firstPacket_sL (k : Slot) (x : Word) (p : Config.RocPolicy) : (k.firstPacket p x).sL = x := by
  rw [Slot.firstPacket_eq]
  cases k.kind <;> rfl

theorem Slot.firstPacket_replayMask (k : Slot) (x : Word) (p : Config.RocPolicy) :
    (k.firstPacket p x).replayMask = k.replayMask := by
  rw [Slot.firstPacket_eq]
  cases k.kind <;> rfl

theorem Slot.firstPacket_guessedRoc (k : Slot) (x : Word) (p : Config.RocPolicy)
    (hkind : (k.firstPacket p x).kind = .srtp) : (k.firstPacket p x).guessedRoc = (k.firstPacket p x).roc := by
  rw [(k.firstPacket_indexOnly p x).config.kind] at hkind
  rw [Slot.firstPacket_eq, hkind]

/-- UPDATE of a first packet: the index state initialised, and bit 0 of the window set (44_replay_index.md R221,
R229). -/
theorem Slot.update_of_first (hs : k.seqSet = false) (x : Word) (p : Config.RocPolicy) :
    k.update p x = { k.firstPacket p x with replayMask := k.replayMask ||| 1 } := by
  rw [Slot.update, if_neg (by rw [hs]; exact Bool.false_ne_true),
    Slot.commit_of_last (k.firstPacket_sL x p) (k.firstPacket_guessedRoc x p), Slot.firstPacket_replayMask]

/-- Settles O47: a first packet is its own last one, so the commit after `firstPacket` sets bit 0 alone. -/
theorem updateOfAFirstPacket : Obligations.UpdateOfAFirstPacket := by
  intro c s k hk hv hs x roc0
  have hx : s.xOperand k.kind = BitVec.ofNat 32 x := s.xOperand_eq_ofNat k.kind
  refine ⟨_, execUpdate_of_valid hk hv, ⟨rfl, rfl⟩,
    (State.slot?_setSlot_same _ (State.slot?_lt hk)).trans (congrArg some ?_)⟩
  rw [Slot.update_of_first hs, hx, Slot.firstPacket_eq]
  cases k.kind <;> rfl

/-! ### CHECK after UPDATE -/

/-- A recorded guess and a bit in the window leave where the packets stand (44_replay_index.md R224). -/
theorem Slot.lastNat_recordGuess (k : Slot) (y : Word) (mask : BitVec 64) :
    ({ k.recordGuess y with replayMask := mask } : Slot).lastNat = k.lastNat := by
  unfold Slot.recordGuess
  split <;> rfl

theorem Slot.currentNat_recordGuess (k : Slot) (y : Word) (mask : BitVec 64) (x : Nat) :
    ({ k.recordGuess y with replayMask := mask } : Slot).currentNat x = k.currentNat x := by
  unfold Slot.recordGuess
  split <;> rfl

/-- A packet whose bit in the window is set is rejected (44_replay_index.md R228). -/
theorem Slot.rejects_of_bit {x : Word} (hle : k.currentNat x.toNat ≤ k.lastNat)
    (hlt : k.lastNat < k.currentNat x.toNat + 64)
    (hbit : k.replayMask.getLsbD (k.lastNat - k.currentNat x.toNat) = true) :
    acceptDelta k.replayMask (k.delta x) = false := by
  rw [Slot.delta_eq, ← Bool.not_eq_true, acceptDelta_iff, hbit]
  rintro (h | h | ⟨-, h⟩)
  · omega
  · omega
  · cases h

/-- A committed packet that the window reaches is rejected (44_replay_index.md R228, R229). -/
theorem Slot.commit_rejects {x : Word} (h : k.lastNat < k.currentNat x.toNat + 64) :
    acceptDelta (k.commit x).replayMask ((k.commit x).delta x) = false := by
  rcases Nat.lt_or_ge k.lastNat (k.currentNat x.toNat) with hnewer | holder
  · have hcommit := Slot.commit_of_newer hnewer
    have hstands : (k.commit x).currentNat x.toNat = (k.commit x).lastNat :=
      Slot.currentNat_of_last (by rw [hcommit])
    refine Slot.rejects_of_bit hstands.le (by omega) ?_
    rw [hstands, Nat.sub_self, hcommit]
    simp
  · rw [Slot.commit_of_older holder, if_pos (by omega)]
    refine Slot.rejects_of_bit ?_ ?_ ?_ <;> rw [Slot.lastNat_recordGuess, Slot.currentNat_recordGuess]
    · exact holder
    · exact h
    · simp [show k.lastNat - k.currentNat x.toNat < 64 by omega]

theorem Slot.commit_seqSet (k : Slot) (x : Word) : (k.commit x).seqSet = k.seqSet := by
  rw [← k.recordGuess_seqSet x]
  rcases Nat.lt_or_ge k.lastNat (k.currentNat x.toNat) with hnewer | holder
  · rw [Slot.commit_of_newer hnewer]
  · rw [Slot.commit_of_older holder]

/-- After UPDATE of a packet the window reaches, CHECK of the same packet rejects it (44_replay_index.md R228, R229). -/
theorem Slot.check_update {x : Word} (p : Config.RocPolicy) (hnull : k.isNull = false)
    (h : k.seqSet = true → k.lastNat < k.currentNat x.toNat + 64) : ((k.update p x).check p x).1 = false := by
  have hconfig := (k.update_indexOnly p x).config
  have hnull' : (k.update p x).isNull = false := by
    rw [← hnull, Slot.isNull, Slot.isNull, hconfig.encAlgo, hconfig.authAlgo]
  have hupdate : (k.update p x).seqSet = true
      ∧ acceptDelta (k.update p x).replayMask ((k.update p x).delta x) = false := by
    unfold Slot.update
    split_ifs with hs
    · exact ⟨(k.commit_seqSet x).trans hs, Slot.commit_rejects (h hs)⟩
    · refine ⟨(Slot.commit_seqSet _ x).trans (k.firstPacket_seqSet p x), Slot.commit_rejects ?_⟩
      rw [Slot.currentNat_of_last (k.firstPacket_sL x p)]
      omega
  rw [Slot.check, hnull', hupdate.1]
  exact hupdate.2

/-- Settles O48: UPDATE sets the packet's bit and leaves or becomes the last packet, so the same packet's delta finds
that bit. -/
theorem checkAfterUpdateRejects : Obligations.CheckAfterUpdateRejects := by
  intro c s t k hk hv hnull hreach h
  cases (execUpdate_of_valid hk hv).symm.trans h
  have hconfig := (k.update_indexOnly Config.firstRocPolicy (s.xOperand k.kind)).config
  have hslot : (s.setSlot c (k.update Config.firstRocPolicy (s.xOperand k.kind))).complete.slot? c
      = some (k.update Config.firstRocPolicy (s.xOperand k.kind)) := State.slot?_setSlot_same _ (State.slot?_lt hk)
  have hverdict : ((k.update Config.firstRocPolicy (s.xOperand k.kind)).check Config.firstRocPolicy
      (s.xOperand k.kind)).1 = false := by
    refine Slot.check_update _ (by rw [← Bool.not_eq_true, Slot.isNull_iff]; exact hnull) ?_
    rwa [State.xOperand_toNat]
  have hcheck := execCheck_of_valid hslot (hconfig.valid.trans hv)
  rw [hconfig.kind] at hcheck
  refine ⟨_, hcheck, hverdict, (State.complete_setRes_zero _ _).trans ?_⟩
  exact congrArg (flagAt · 0) hverdict

/-! ### The roll-over counter -/

theorem Slot.recordGuess_roc (k : Slot) (x : Word) : (k.recordGuess x).roc = k.roc := by
  unfold Slot.recordGuess
  split <;> rfl

/-- A commit never lowers roc: a packet under a guess below roc is older (44_replay_index.md R229, R230). -/
theorem Slot.roc_le_commit {x : Word} (hx : k.kind = .srtp → x.toNat ≤ 65535) :
    k.roc.toNat ≤ (k.commit x).roc.toNat := by
  rcases Nat.lt_or_ge k.lastNat (k.currentNat x.toNat) with hnewer | holder
  · rw [Slot.commit_of_newer hnewer]
    dsimp only
    cases hkind : k.kind with
    | srtp =>
      have := hx hkind
      rw [Slot.lastNat, Slot.currentNat, hkind] at hnewer
      dsimp only at hnewer ⊢
      rw [Slot.guessRoc_toNat]
      omega
    | srtcp => exact Nat.le_refl _
  · rw [Slot.commit_of_older holder]
    exact (congrArg BitVec.toNat (k.recordGuess_roc x)).ge

/-- Settles O49: of the commands left only UPDATE writes roc in a started slot, and its commit never lowers it. -/
theorem rocNeverDecreases : Obligations.RocNeverDecreases := by
  intro i s t j k l h hk hl hs hi
  cases exec_slotBecomes hk hl h hi with
  | same => exact Nat.le_refl _
  | derived c x => rw [Slot.deriveKeys_roc]
  | rekeyed c x => rw [(k.rekeyed_sameIndex x).roc]
  | guessed c => rw [Slot.guess_of_seqSet hs]
  | checked c =>
    rw [Slot.check]
    split_ifs with hnull hfirst
    · exact Nat.le_refl _
    · simp [hs] at hfirst
    · rw [Slot.recordGuess_roc]
  | updated c =>
    rw [Slot.update_of_seqSet hs]
    exact Slot.roc_le_commit State.xOperand_le

end Sys2Proof.Machine
end

section
/-! SUPPORT. How a keystream begins, and how long SHA-1's padding and outputs are; and from it the statements about the
units (41_cipher_modes.md R161, R164; 42_authentication.md R181, R183, R185). -/

namespace Sys2Proof.Machine

/-! ### Keystreams -/

theorem blockCount_mono {m n : Nat} (h : m ≤ n) : blockCount m ≤ blockCount n :=
  Nat.div_le_div_right (Nat.add_le_add_right h 15)

/-- The first blocks of a longer counter-mode stream are the shorter one (41_cipher_modes.md R161). -/
theorem cmBlocks_take (k iv : Bytes) (m n j : Nat) : (cmBlocks k iv (m + n) j).take (16 * m) = cmBlocks k iv m j := by
  rw [cmBlocks_add, ← cmBlocks_length k iv m j]
  exact List.take_left

/-- Two strings that begin with the same whole blocks begin with the same bytes. -/
theorem take_eq_of_take_blocks {a b : Bytes} {m : Nat} (h : b.take (16 * blockCount m) = a) : b.take m = a.take m := by
  rw [← h, List.take_take, Nat.min_eq_left (blockCount_bytes m)]

theorem cmKeystream_take (k iv : Bytes) {m n : Nat} (h : m ≤ n) : (cmKeystream k iv n).take m = cmKeystream k iv m := by
  obtain ⟨d, hd⟩ := Nat.exists_eq_add_of_le (blockCount_mono h)
  rw [cmKeystream, cmKeystream, List.take_take, Nat.min_eq_left h, hd]
  exact take_eq_of_take_blocks (cmBlocks_take _ _ _ _ _)

theorem f8Keystream_take (k ks iv : Bytes) {m n : Nat} (h : m ≤ n) :
    (f8Keystream k ks iv n).take m = f8Keystream k ks iv m := by
  obtain ⟨d, hd⟩ := Nat.exists_eq_add_of_le (blockCount_mono h)
  rw [f8Keystream, f8Keystream, List.take_take, Nat.min_eq_left h, hd]
  exact take_eq_of_take_blocks (f8Blocks_take _ _ _ _ _ _)

/-- Settles O58: the shorter stream's blocks are the first of the longer one's, and both are cut to their lengths. -/
theorem keystreamsArePrefixes : Obligations.KeystreamsArePrefixes := fun k ks iv _ n h =>
  ⟨cmKeystream_length k iv n, cmKeystream_take k iv h, f8Keystream_length k ks iv n, f8Keystream_take k ks iv h⟩

/-! ### SHA-1 and HMAC -/

/-- The padding's zeros are the least that fill a block (42_authentication.md R181). -/
theorem sha1PadZeros_spec (n : Nat) : (n + 1 + sha1PadZeros n + 8) % 64 = 0
    ∧ ∀ y, y < sha1PadZeros n → (n + 1 + y + 8) % 64 ≠ 0 := by
  unfold sha1PadZeros
  exact ⟨by omega, fun y hy => by omega⟩

@[simp] theorem sha1_length (m : Bytes) : (sha1 m).length = 20 := by simp [sha1]

@[simp] theorem hmacSha1_length (key msg : Bytes) : (hmacSha1 key msg).length = 20 := sha1_length _

/-- Settles O59: the padding is `sha1Pad`'s own, its zeros are the least, and the digest is five words of four bytes. -/
theorem sha1PaddingAndLengths : Obligations.Sha1PaddingAndLengths := by
  intro key m
  obtain ⟨hfull, hleast⟩ := sha1PadZeros_spec m.length
  exact ⟨⟨sha1PadZeros m.length, rfl, hfull, hleast⟩, sha1_length m, hmacSha1_length key m⟩

end Sys2Proof.Machine
end

section
/-! SUPPORT. What ENCRYPT and AUTH do on a valid slot, check by check, and the keystreams and the tag they apply, as
the rules write them out; and from it the statements about the packet commands (45_packet_ops.md R250 to R252;
60_exceptions.md R301, R304, R307). -/

namespace Sys2Proof.Machine

variable {s t : State} {c : Nat} {k l : Slot}

/-! ### The checks of ENCRYPT and AUTH -/

section Checks

variable (hk : s.slot? c = some k) (hv : k.valid = true)
include hk hv

theorem execEncrypt_of_bounds (hb : Config.bufBytes < s.larg[0].toNat + (s.larg[1].toNat + s.larg[2].toNat)) :
    execEncrypt c s = .next (s.raise .bounds s.larg[0]) := by
  rw [execEncrypt, State.onValidSlot_of_some hk hv]
  exact if_pos (by rw [(fits_false_iff _ _).2 hb]; rfl)

theorem execEncrypt_of_short_header
    (hb : s.larg[0].toNat + (s.larg[1].toNat + s.larg[2].toNat) ≤ Config.bufBytes) (hf8 : k.encAlgo = .aesF8)
    (hh : s.larg[1].toNat < f8HeaderBytes k.kind) : execEncrypt c s = .next (s.raise .badParam s.larg[1]) := by
  rw [execEncrypt, State.onValidSlot_of_some hk hv]
  simp [(fits_iff _ _).2 hb, hf8, hh]

/-- Past its checks, ENCRYPT answers a next state only where the bytes it reads are written (45_packet_ops.md R250). -/
theorem execEncrypt_reads (hb : s.larg[0].toNat + (s.larg[1].toNat + s.larg[2].toNat) ≤ Config.bufBytes)
    (hf : k.encAlgo = .aesF8 → f8HeaderBytes k.kind ≤ s.larg[1].toNat) (h : execEncrypt c s = .next t) :
    ∃ d hdr : Bytes, (k.rekeyed (s.encryptIndex k.kind)).encrypts = true →
      d.length = s.larg[2].toNat ∧ s.buf.holds (s.larg[0].toNat + s.larg[1].toNat) d
        ∧ (k.encAlgo = .aesF8 → hdr.length = f8HeaderBytes k.kind ∧ s.buf.holds s.larg[0].toNat hdr) := by
  obtain hr | ⟨m, d, hdr, hm, -, -, -, hd, -⟩ := execEncrypt_next h
  · have hconfig := k.rekeyed_sameConfig (s.encryptIndex k.kind)
    rw [execEncrypt, State.onValidSlot_of_some hk hv] at h
    dsimp only at h
    rw [if_neg (by simpa using (fits_iff _ _).2 hb), if_neg (by simpa using hf)] at h
    split_ifs at h with henc
    · obtain ⟨d, hdr, hl, hd, hhdr, -⟩ := State.cipherPayload_next h
      rw [hconfig.encAlgo, hconfig.kind] at hhdr
      exact ⟨d, hdr, fun _ => ⟨hl, hd, hhdr⟩⟩
    · exact ⟨[], [], fun h => absurd h henc⟩
  · cases hk.symm.trans hm
    exact ⟨d, hdr, hd⟩

/-- What ENCRYPT can do on a valid slot, in the order of its checks (45_packet_ops.md R250). -/
theorem execEncrypt_cases (h : execEncrypt c s = .next t) :
    (Config.bufBytes < s.larg[0].toNat + (s.larg[1].toNat + s.larg[2].toNat) ∧ t = s.raise .bounds s.larg[0])
      ∨ (s.larg[0].toNat + (s.larg[1].toNat + s.larg[2].toNat) ≤ Config.bufBytes ∧ k.encAlgo = .aesF8
        ∧ s.larg[1].toNat < f8HeaderBytes k.kind ∧ t = s.raise .badParam s.larg[1])
      ∨ (s.larg[0].toNat + (s.larg[1].toNat + s.larg[2].toNat) ≤ Config.bufBytes
        ∧ (k.encAlgo = .aesF8 → f8HeaderBytes k.kind ≤ s.larg[1].toNat)
        ∧ ∃ d hdr : Bytes, t = s.encrypted c k d hdr ∧ ((k.rekeyed (s.encryptIndex k.kind)).encrypts = true →
          d.length = s.larg[2].toNat ∧ s.buf.holds (s.larg[0].toNat + s.larg[1].toNat) d
            ∧ (k.encAlgo = .aesF8 → hdr.length = f8HeaderBytes k.kind ∧ s.buf.holds s.larg[0].toNat hdr))) := by
  rcases Nat.lt_or_ge Config.bufBytes (s.larg[0].toNat + (s.larg[1].toNat + s.larg[2].toNat)) with hb | hb
  · cases (execEncrypt_of_bounds hk hv hb).symm.trans h
    exact .inl ⟨hb, rfl⟩
  by_cases hf : k.encAlgo = .aesF8 → f8HeaderBytes k.kind ≤ s.larg[1].toNat
  · obtain ⟨d, hdr, hd⟩ := execEncrypt_reads hk hv hb hf h
    cases (execEncrypt_of_holds hk hv hb hf hd).symm.trans h
    exact .inr (.inr ⟨hb, hf, d, hdr, rfl, hd⟩)
  · obtain ⟨hf8, hh⟩ := Classical.not_imp.1 hf
    cases (execEncrypt_of_short_header hk hv hb hf8 (Nat.lt_of_not_le hh)).symm.trans h
    exact .inr (.inl ⟨hb, hf8, Nat.lt_of_not_le hh, rfl⟩)

theorem execAuth_of_bounds (hb : Config.bufBytes < s.larg[0].toNat + s.larg[1].toNat) :
    execAuth c s = .next (s.raise .bounds s.larg[0]) := by
  rw [execAuth, State.onValidSlot_of_some hk hv]
  exact if_pos (by rw [(fits_false_iff _ _).2 hb]; rfl)

section Fits

variable (hb : s.larg[0].toNat + s.larg[1].toNat ≤ Config.bufBytes)
include hb

theorem execAuth_of_not_authenticates (ha : k.authenticates = false) :
    execAuth c s = .next (s.setRes 0 0).complete := by
  rw [execAuth, State.onValidSlot_of_some hk hv]
  simp [(fits_iff _ _).2 hb, ha]

theorem execAuth_of_tag_bounds (ha : k.authenticates = true)
    (ht : Config.bufBytes < s.larg[3].toNat + k.tagLen.toNat) :
    execAuth c s = .next (s.raise .bounds s.larg[3]) := by
  rw [execAuth, State.onValidSlot_of_some hk hv]
  simp [(fits_iff _ _).2 hb, ha, (fits_false_iff _ _).2 ht]

theorem execAuth_of_holds {m : Bytes} (ha : k.authenticates = true)
    (ht : s.larg[3].toNat + k.tagLen.toNat ≤ Config.bufBytes) (hl : m.length = s.larg[1].toNat)
    (hm : s.buf.holds s.larg[0].toNat m) : execAuth c s
      = .next ((s.store s.larg[3].toNat (k.tag m s.larg[2])).setRes 0 (k.tagLen.setWidth 32)).complete := by
  rw [execAuth, State.onValidSlot_of_some hk hv]
  simp [(fits_iff _ _).2 hb, ha, (fits_iff _ _).2 ht, State.load_of_holds hl hm]

end Fits

end Checks

/-- Settles O53: each range and the header are checked before any byte is read. -/
theorem rangeErrors : Obligations.RangeErrors := by
  refine ⟨fun c s hc hb => ?ctxNew, fun c s k hk hv => ⟨fun hb => ?payload, fun hb hf8 hh => ?header, fun hb => ?region,
    fun hb hauth hkeys ht => ?tag⟩⟩
  case ctxNew =>
    obtain ⟨k, hk⟩ := s.exists_slot_of_lt hc
    have h : exec (.ctxNew c) s = .next (s.raise .bounds s.larg[0]) :=
      (State.onSlot_of_some hk).trans (if_pos (by rw [paramBlockBytes, (fits_false_iff _ _).2 hb]; rfl))
    exact ⟨_, h, s.raise_errs .bounds _⟩
  case payload => exact ⟨_, execEncrypt_of_bounds hk hv (by omega), s.raise_errs .bounds _⟩
  case header => exact ⟨_, execEncrypt_of_short_header hk hv (by omega) hf8 hh, s.raise_errs .badParam _⟩
  case region => exact ⟨_, execAuth_of_bounds hk hv hb, s.raise_errs .bounds _⟩
  case tag =>
    have ha : k.authenticates = true := by simp [Slot.authenticates, hauth, hkeys]
    exact ⟨_, execAuth_of_tag_bounds hk hv hb ha ht, s.raise_errs .bounds _⟩

end Sys2Proof.Machine
end

section
/-! SUPPORT. What ENCRYPT leaves past its checks, with its keystreams as the rules write them out, what AUTH leaves
with its tag written out, and on what parts of a slot both depend; and from it the statements about the packet
commands (45_packet_ops.md R250 to R252; 60_exceptions.md R307). -/

namespace Sys2Proof.Machine

variable {s t : State} {c : Nat} {k l : Slot}

/-! ### The buffer -/

namespace Memory

/-- A range just written holds the bytes written. -/
theorem holds_writeBytes (m : Memory) (a : Nat) (v : Bytes) : (m.writeBytes a v).holds a v :=
  fun j hj => read_writeBytes_inside m a j v hj

/-- A range outside the one written holds what it held. -/
theorem holds.writeBytes_outside {m : Memory} {a b : Nat} {v w : Bytes} (h : m.holds a v) (hb : a + v.length ≤ b) :
    (m.writeBytes b w).holds a v := by
  intro j hj
  rw [read_writeBytes_outside _ _ _ _ (by omega), h j hj]

/-- Writing back the bytes a range held restores the buffer. -/
theorem writeBytes_restore {m : Memory} {a : Nat} {v w : Bytes} (hm : Memory.wf m) (h : m.holds a v)
    (hw : w.length = v.length) (hfit : a + v.length ≤ Config.bufBytes) : (m.writeBytes a w).writeBytes a v = m := by
  have hwf := writeBytes_wf _ a v (writeBytes_wf m a w hm (by omega)) hfit
  refine ext_of_read _ _ hwf.1 hm.1 fun x => ?_
  by_cases hx : x < a ∨ a + v.length ≤ x
  · rw [read_writeBytes_outside _ _ _ _ hx, read_writeBytes_outside _ _ _ _ (by omega)]
  · obtain ⟨j, rfl⟩ := Nat.exists_eq_add_of_le (Nat.le_of_not_lt fun h => hx (.inl h))
    have hj : j < v.length := by omega
    rw [read_writeBytes_inside _ _ _ _ hj, h j hj]

end Memory

/-! ### What ENCRYPT leaves past its checks -/

/-- A rekey changes nothing of whether a keystream is applied. -/
theorem Slot.rekeyed_encrypts (k : Slot) (x : BitVec 48) : (k.rekeyed x).encrypts = k.encrypts := by
  rw [Slot.encrypts, Slot.encrypts, k.rekeyed_keysValid, (k.rekeyed_sameConfig x).encAlgo]

theorem Slot.rekeyed_derivedAt {x : BitVec 48} (h : k.needRekey x = true) : k.DerivedAt (k.rekeyed x) x.toNat := by
  rw [Slot.rekeyed, if_pos h]
  exact k.deriveKeys_derivedAt x

theorem Slot.rekeyed_of_not_needRekey {x : BitVec 48} (h : k.needRekey x ≠ true) : k.rekeyed x = k := if_neg h

section Encrypted

variable (s) (c : Nat) (k : Slot) (d hdr : Bytes)

theorem State.encrypted_completes : s.Completes (s.encrypted c k d hdr) := by
  refine ⟨s.encrypted_status c k d hdr, ?_⟩
  unfold State.encrypted
  dsimp only
  split_ifs <;> rfl

@[simp] theorem State.encrypted_larg : (s.encrypted c k d hdr).larg = s.larg := by
  unfold State.encrypted
  dsimp only
  split_ifs <;> rfl

theorem State.encrypted_res : (s.encrypted c k d hdr).res
    = s.res.set 0 (encryptResult k.encrypts (k.needRekey (s.encryptIndex k.kind))) := by
  rw [← k.rekeyed_encrypts (s.encryptIndex k.kind)]
  unfold State.encrypted
  dsimp only
  split_ifs with h
  · rw [h]
    rfl
  · rw [Bool.eq_false_of_not_eq_true h]
    rfl

theorem State.encrypted_res_zero : (s.encrypted c k d hdr).res[0]
    = encryptResult k.encrypts (k.needRekey (s.encryptIndex k.kind)) := by
  simp [State.encrypted_res]

end Encrypted

theorem State.encrypted_slot? (hk : s.slot? c = some k) (d hdr : Bytes) :
    (s.encrypted c k d hdr).slot? c = some (k.rekeyed (s.encryptIndex k.kind)) :=
  (State.slot?_congr (s.encrypted_slots c k d hdr) c).trans (State.slot?_setSlot_same _ (State.slot?_lt hk))

/-- The payload ENCRYPT leaves where it applies a keystream (45_packet_ops.md R250). -/
theorem State.encrypted_holds {d : Bytes} (henc : k.encrypts = true) (hd : d.length = s.larg[2].toNat) (c : Nat)
    (hdr : Bytes) : (s.encrypted c k d hdr).buf.holds (s.larg[0].toNat + s.larg[1].toNat)
      (xorBytes d ((k.rekeyed (s.encryptIndex k.kind)).stream hdr s.larg[5] (s.encryptIndex k.kind) d.length)) := by
  rw [State.encrypted_buf, if_pos (by rwa [Slot.rekeyed_encrypts]), hd]
  exact Memory.holds_writeBytes _ _ _

/-! ### The keystreams, written out -/

/-- The SRTCP index is the low word of the 48-bit one (30_encoding.md R105). -/
theorem State.lo32_encryptIndex_srtcp (s : State) : lo32 (s.encryptIndex .srtcp) = s.larg[4] := by
  apply BitVec.eq_of_toNat_eq
  have h : (s.encryptIndex .srtcp).toNat = s.larg[4].toNat := indexOperand_toNat .srtcp s.larg[3] s.larg[4]
  have hlt := s.larg[4].isLt
  rw [lo32_eq_ofNat, h, BitVec.toNat_ofNat]
  omega

/-- The counter-mode IV at ENCRYPT's index, in both kinds (41_cipher_modes.md R168, R169). -/
theorem Slot.cmIv_encryptIndex {k : Slot} {kind : Kind} (hk : k.kind = kind) (s : State) (ssrc : Word) :
    k.cmIv ssrc (s.encryptIndex kind) = cmIvRtp k.sessionSalt ssrc (s.encryptIndex kind) := by
  rw [Slot.cmIv, hk]
  cases kind
  · rfl
  · simp only [cmIvRtcp, State.lo32_encryptIndex_srtcp]
    rfl

/-- The ROC part of a 48-bit index as a number (30_encoding.md R105). -/
theorem rocPart_toNat (x : BitVec 48) : (rocPart x).toNat = x.toNat / 2 ^ 16 := by
  have hx := x.isLt
  rw [rocPart, extractLsb'_eq_ofNat, BitVec.toNat_ofNat]
  omega

/-- The F8 IV at ENCRYPT's index from exactly the header bytes it needs, in both kinds (41_cipher_modes.md R170,
R171). -/
theorem Slot.f8Iv_encryptIndex (k : Slot) (kind : Kind) (hdr : Bytes) (s : State) :
    k.kind = kind → hdr.length = f8HeaderBytes kind → k.f8Iv hdr (s.encryptIndex kind) = match kind with
      | .srtp => 0x00 :: (hdr.drop 1 ++ be 4 ((s.encryptIndex kind).toNat / 2 ^ 16))
      | .srtcp => zeros 4 ++ be 4 (0x80000000#32 ||| s.larg[4]).toNat ++ hdr := by
  intro hk hh
  rw [Slot.f8Iv, hk]
  cases kind
  · have htake : hdr.take 12 = hdr := List.take_of_length_le (Nat.le_of_eq hh)
    simp only [f8IvRtp, rocPart_toNat, htake]
  · have htake : hdr.take 8 = hdr := List.take_of_length_le (Nat.le_of_eq hh)
    simp only [f8IvRtcp, State.lo32_encryptIndex_srtcp, htake]

theorem Slot.stream_of_aesCm (h : k.encAlgo = .aesCm) (hdr : Bytes) (ssrc : Word) (x : BitVec 48) (n : Nat) :
    k.stream hdr ssrc x n = cmKeystream k.cipherKey (k.cmIv ssrc x) n := by
  simp only [Slot.stream, h]

theorem Slot.stream_of_aesF8 (h : k.encAlgo = .aesF8) (hdr : Bytes) (ssrc : Word) (x : BitVec 48) (n : Nat) :
    k.stream hdr ssrc x n = f8Keystream k.cipherKey k.sessionSalt (k.f8Iv hdr x) n := by
  simp only [Slot.stream, h]

@[simp] theorem Slot.stream_length (k : Slot) (hdr : Bytes) (ssrc : Word) (x : BitVec 48) (n : Nat) :
    (k.stream hdr ssrc x n).length = n := by
  unfold Slot.stream
  cases k.encAlgo <;> simp [zeros]

/-- The key and salt ENCRYPT runs with: n_e and n_s are configuration, so a rekey keeps them (10_state.md R26). -/
theorem Slot.rekeyed_keys (k : Slot) (x : BitVec 48) :
    (k.rekeyed x).cipherKey = (k.rekeyed x).kE.toList.take k.nE.toNat
      ∧ (k.rekeyed x).sessionSalt = (k.rekeyed x).kS.toList.take k.nS.toNat := by
  rw [← (k.rekeyed_sameConfig x).nE, ← (k.rekeyed_sameConfig x).nS]
  exact ⟨rfl, rfl⟩

/-- The slot and the result of ENCRYPT past its checks, by whether the keys are derived again (43_key_derivation.md
R206; 45_packet_ops.md R250). -/
theorem State.encrypted_rekeys {rekeys : Prop} (h : k.needRekey (s.encryptIndex k.kind) = true ↔ rekeys) (c : Nat)
    (d hdr : Bytes) :
    (rekeys → k.DerivedAt (k.rekeyed (s.encryptIndex k.kind)) (s.encryptIndex k.kind).toNat
        ∧ (s.encrypted c k d hdr).res[0] = encryptResult k.encrypts true)
      ∧ (¬ rekeys → k.rekeyed (s.encryptIndex k.kind) = k
        ∧ (s.encrypted c k d hdr).res[0] = encryptResult k.encrypts false) := by
  rw [State.encrypted_res_zero, ← h]
  exact ⟨fun h => ⟨Slot.rekeyed_derivedAt h, by rw [h]⟩,
    fun h => ⟨Slot.rekeyed_of_not_needRekey h, by rw [Bool.eq_false_of_not_eq_true h]⟩⟩

/-- RES0 of an ENCRYPT that applied a keystream (45_packet_ops.md R250). -/
theorem encryptResult_applied : encryptResult true true = 3 ∧ encryptResult true false = 1 := by decide

/-- RES0 of an ENCRYPT that applied none (45_packet_ops.md R250). -/
theorem encryptResult_not_applied : encryptResult false true = 2 ∧ encryptResult false false = 0 := by decide

/-- NeedRekey at ENCRYPT's index, as the rule writes it, in a slot with session keys (43_key_derivation.md R206). -/
theorem Slot.needRekey_iff_of_keysValid (hkeys : k.keysValid = true) (x : BitVec 48) :
    k.needRekey x = true ↔ k.kdr ≠ 0 ∧ x.toNat / k.kdr.toNat ≠ k.lastR.toNat := by
  rw [Slot.needRekey_iff, and_iff_right hkeys]

/-! ### ENCRYPT's statements -/

/-- Settles O50: ENCRYPT is `encrypted`, whose stream at AES-CM is the counter-mode one at the packet's IV. -/
theorem encryptAppliesTheCounterModeKeystream : Obligations.EncryptAppliesTheCounterModeKeystream := by
  intro c s k d hk hv halg hkeys hb hl hd i rekeys
  have hi : (s.encryptIndex k.kind).toNat = i := indexOperand_toNat k.kind s.larg[3] s.larg[4]
  have henc : k.encrypts = true := by simp [Slot.encrypts, halg, hkeys]
  have hf8 : k.encAlgo ≠ .aesF8 := by rw [halg]; decide
  have hconfig := k.rekeyed_sameConfig (s.encryptIndex k.kind)
  obtain ⟨hkey, hsalt⟩ := k.rekeyed_keys (s.encryptIndex k.kind)
  obtain ⟨hderived, hkept⟩ := State.encrypted_rekeys (s := s) (Slot.needRekey_iff_of_keysValid hkeys _) c d []
  have hpayload := State.encrypted_holds (s := s) henc hl c []
  obtain ⟨hres3, hres1⟩ := encryptResult_applied
  rw [henc, hres3] at hderived
  rw [henc, hres1] at hkept
  rw [Slot.stream_of_aesCm (hconfig.encAlgo.trans halg), Slot.cmIv_encryptIndex hconfig.kind, hkey, hsalt, cmIvRtp,
    salt14] at hpayload
  rw [hi] at hderived hkept hpayload
  exact ⟨_, _, execEncrypt_of_holds hk hv hb (absurd · hf8) fun _ => ⟨hl, hd, (absurd · hf8)⟩,
    s.encrypted_completes c k d [], State.encrypted_slot? hk d [], hderived, hkept, hpayload⟩

/-- Settles O51: ENCRYPT is `encrypted`, whose stream at AES-F8 is the F8 one at the IV of the header. -/
theorem encryptAppliesTheF8Keystream : Obligations.EncryptAppliesTheF8Keystream := by
  intro c s k d hdr hk hv halg hkeys hb hl hd hhdr hh hm i rekeys iv
  have hi : (s.encryptIndex k.kind).toNat = i := indexOperand_toNat k.kind s.larg[3] s.larg[4]
  have henc : k.encrypts = true := by simp [Slot.encrypts, halg, hkeys]
  have hmin : hdr.length = f8HeaderBytes k.kind := hhdr
  have hconfig := k.rekeyed_sameConfig (s.encryptIndex k.kind)
  obtain ⟨hkey, hsalt⟩ := k.rekeyed_keys (s.encryptIndex k.kind)
  obtain ⟨hderived, hkept⟩ := State.encrypted_rekeys (s := s) (Slot.needRekey_iff_of_keysValid hkeys _) c d hdr
  have hpayload := State.encrypted_holds (s := s) henc hl c hdr
  obtain ⟨hres3, hres1⟩ := encryptResult_applied
  rw [henc, hres3] at hderived
  rw [henc, hres1] at hkept
  rw [Slot.stream_of_aesF8 (hconfig.encAlgo.trans halg), Slot.f8Iv_encryptIndex _ _ _ _ hconfig.kind hmin, hkey,
    hsalt] at hpayload
  rw [hi] at hderived hkept hpayload
  exact ⟨_, _, execEncrypt_of_holds hk hv hb (fun _ => hmin ▸ hh) fun _ => ⟨hl, hd, fun _ => ⟨hmin, hm⟩⟩,
    s.encrypted_completes c k d hdr, State.encrypted_slot? hk d hdr, hderived, hkept, hpayload⟩

/-- Settles O52: a slot that does not encrypt leaves `encrypted` its rekeyed slot and its result alone. -/
theorem encryptWithoutCipherOrKeysIsANoOp : Obligations.EncryptWithoutCipherOrKeysIsANoOp := by
  intro c s k hk hv hb hno i rekeys
  have hi : (s.encryptIndex k.kind).toNat = i := indexOperand_toNat k.kind s.larg[3] s.larg[4]
  have henc : k.encrypts = false := by
    obtain hnull | ⟨hkeys, -⟩ := hno
    · simp [Slot.encrypts, hnull]
    · simp [Slot.encrypts, hkeys]
  have hf8 : k.encAlgo = .aesF8 → f8HeaderBytes k.kind ≤ s.larg[1].toNat := by
    obtain hnull | ⟨-, hh⟩ := hno
    · rw [hnull]
      exact fun h => nomatch h
    · exact hh
  have hbuf := s.encrypted_buf c k [] []
  have hslots := s.encrypted_slots c k [] []
  obtain ⟨hderived, hkept⟩ := State.encrypted_rekeys (s := s) (k.needRekey_iff _) c [] []
  rw [Slot.rekeyed_encrypts, henc] at hbuf
  obtain ⟨hres2, hres0⟩ := encryptResult_not_applied
  rw [henc, hres2] at hderived
  rw [henc, hres0] at hkept
  rw [hi] at hderived hkept
  refine ⟨_, _, execEncrypt_of_holds hk hv hb hf8 fun h => ?noReads, s.encrypted_completes c k [] [], fun a => ?buffer,
    State.encrypted_slot? hk [] [], hderived, fun h => ?kept⟩
  case noReads =>
    rw [Slot.rekeyed_encrypts, henc] at h
    exact nomatch h
  case buffer => rw [hbuf, if_neg Bool.false_ne_true]
  case kept =>
    obtain ⟨hslot, hres⟩ := hkept h
    rw [hslot, State.setSlot_self hk] at hslots
    exact ⟨hslot, State.keepsSlots_of_eq hslots, hres⟩

/-! ### ENCRYPT again -/

@[simp] theorem State.encryptIndex_encrypted (c : Nat) (d hdr : Bytes) (kind : Kind) :
    (s.encrypted c k d hdr).encryptIndex kind = s.encryptIndex kind := by
  simp [State.encryptIndex]

/-- The payload ENCRYPT writes where it applies a keystream. -/
def State.ciphered (s : State) (k : Slot) (d hdr : Bytes) : Bytes :=
  xorBytes d ((k.rekeyed (s.encryptIndex k.kind)).stream hdr s.larg[5] (s.encryptIndex k.kind) s.larg[2].toNat)

theorem State.ciphered_length {d : Bytes} (hd : d.length = s.larg[2].toNat) (k : Slot) (hdr : Bytes) :
    (s.ciphered k d hdr).length = s.larg[2].toNat := by
  simp [State.ciphered, hd]

/-- The second ENCRYPT runs with the keys of the first, so its keystream takes the first one's back. -/
theorem State.ciphered_encrypted {d : Bytes} (hd : d.length = s.larg[2].toNat) (c : Nat) (k : Slot) (hdr : Bytes) :
    (s.encrypted c k d hdr).ciphered (k.rekeyed (s.encryptIndex k.kind)) (s.ciphered k d hdr) hdr = d := by
  rw [State.ciphered, (k.rekeyed_sameConfig _).kind, State.encryptIndex_encrypted, State.encrypted_larg,
    Slot.rekeyed_rekeyed, State.ciphered]
  exact xorBytes_xorBytes _ _ (by simp [hd])

theorem State.encrypted_buf_of_encrypts (henc : k.encrypts = true) (c : Nat) (d hdr : Bytes) :
    (s.encrypted c k d hdr).buf = s.buf.writeBytes (s.larg[0].toNat + s.larg[1].toNat) (s.ciphered k d hdr) := by
  rw [State.encrypted_buf, if_pos (by rwa [Slot.rekeyed_encrypts]), State.ciphered]

theorem State.encrypted_buf_of_not_encrypts (henc : k.encrypts = false) (c : Nat) (d hdr : Bytes) :
    (s.encrypted c k d hdr).buf = s.buf := by
  rw [State.encrypted_buf, if_neg (by rw [Slot.rekeyed_encrypts, henc]; exact Bool.false_ne_true)]

/-- Past its checks, a second ENCRYPT restores the buffer: the payload range does not meet the header both read
(45_packet_ops.md R252 (a)). -/
theorem execEncrypt_encrypted {d hdr : Bytes} (hm : Memory.wf s.buf) (hk : s.slot? c = some k) (hv : k.valid = true)
    (hb : s.larg[0].toNat + (s.larg[1].toNat + s.larg[2].toNat) ≤ Config.bufBytes)
    (hf : k.encAlgo = .aesF8 → f8HeaderBytes k.kind ≤ s.larg[1].toNat)
    (hd : k.encrypts = true → d.length = s.larg[2].toNat ∧ s.buf.holds (s.larg[0].toNat + s.larg[1].toNat) d
      ∧ (k.encAlgo = .aesF8 → hdr.length = f8HeaderBytes k.kind ∧ s.buf.holds s.larg[0].toNat hdr)) :
    ∃ u, execEncrypt c (s.encrypted c k d hdr) = .next u ∧ u.buf = s.buf := by
  have hconfig := k.rekeyed_sameConfig (s.encryptIndex k.kind)
  have henc := k.rekeyed_encrypts (s.encryptIndex k.kind)
  refine ⟨_, execEncrypt_of_holds (d := s.ciphered k d hdr) (hdr := hdr) (State.encrypted_slot? hk d hdr)
    (hconfig.valid.trans hv) (by simpa using hb) (by simpa [hconfig.encAlgo, hconfig.kind] using hf) fun h => ?reads,
    ?buf⟩
  case reads =>
    rw [Slot.rekeyed_encrypts, henc] at h
    obtain ⟨hl, -, hhdr⟩ := hd h
    rw [State.encrypted_larg, State.encrypted_buf_of_encrypts h, hconfig.encAlgo, hconfig.kind]
    refine ⟨State.ciphered_length hl k hdr, Memory.holds_writeBytes _ _ _, fun hf8 => ?_⟩
    obtain ⟨hmin, hhold⟩ := hhdr hf8
    have := hf hf8
    exact ⟨hmin, hhold.writeBytes_outside (by omega)⟩
  case buf =>
    cases h : k.encrypts with
    | false => rw [State.encrypted_buf_of_not_encrypts (henc.trans h), State.encrypted_buf_of_not_encrypts h]
    | true =>
      obtain ⟨hl, hhold, -⟩ := hd h
      rw [State.encrypted_buf_of_encrypts (henc.trans h), State.ciphered_encrypted hl, State.encrypted_larg,
        State.encrypted_buf_of_encrypts h]
      exact Memory.writeBytes_restore hm hhold ((State.ciphered_length hl k hdr).trans hl.symm) (by omega)

/-- Settles O54: an ENCRYPT that ends in an error ends in it again, and one that runs is undone by the next. -/
theorem encryptTwiceRestoresTheBuffer : Obligations.EncryptTwiceRestoresTheBuffer := by
  intro c s t hm h
  cases hs : s.validSlot? c with
  | none =>
    have hnone := State.validSlot?_eq_none.1 hs
    cases (State.onValidSlot_of_none hnone).symm.trans h
    exact ⟨_, State.onValidSlot_of_none hnone, rfl⟩
  | some k =>
    obtain ⟨hk, hv⟩ := State.validSlot?_eq_some.1 hs
    obtain ⟨hb, rfl⟩ | ⟨hb, hf8, hh, rfl⟩ | ⟨hb, hf, d, hdr, rfl, hd⟩ := execEncrypt_cases hk hv h
    · exact ⟨_, execEncrypt_of_bounds hk hv hb, rfl⟩
    · exact ⟨_, execEncrypt_of_short_header hk hv hb hf8 hh, rfl⟩
    · exact execEncrypt_encrypted hm hk hv hb hf (k.rekeyed_encrypts _ ▸ hd)

/-! ### AUTH -/

/-- What AUTH can do on a valid slot, in the order of its checks (45_packet_ops.md R251). -/
theorem execAuth_cases (hk : s.slot? c = some k) (hv : k.valid = true) (h : execAuth c s = .next t) :
    (Config.bufBytes < s.larg[0].toNat + s.larg[1].toNat ∧ t = s.raise .bounds s.larg[0])
      ∨ (s.larg[0].toNat + s.larg[1].toNat ≤ Config.bufBytes
        ∧ ((k.authenticates = false ∧ t = (s.setRes 0 0).complete)
          ∨ (k.authenticates = true
            ∧ ((Config.bufBytes < s.larg[3].toNat + k.tagLen.toNat ∧ t = s.raise .bounds s.larg[3])
              ∨ (s.larg[3].toNat + k.tagLen.toNat ≤ Config.bufBytes
                ∧ ∃ m : Bytes, m.length = s.larg[1].toNat ∧ s.buf.holds s.larg[0].toNat m
                  ∧ t = ((s.store s.larg[3].toNat (k.tag m s.larg[2])).setRes 0
                    (k.tagLen.setWidth 32)).complete))))) := by
  rcases Nat.lt_or_ge Config.bufBytes (s.larg[0].toNat + s.larg[1].toNat) with hb | hb
  · cases (execAuth_of_bounds hk hv hb).symm.trans h
    exact .inl ⟨hb, rfl⟩
  refine .inr ⟨hb, ?_⟩
  cases ha : k.authenticates with
  | false =>
    cases (execAuth_of_not_authenticates hk hv hb ha).symm.trans h
    exact .inl ⟨rfl, rfl⟩
  | true =>
    refine .inr ⟨rfl, ?_⟩
    rcases Nat.lt_or_ge Config.bufBytes (s.larg[3].toNat + k.tagLen.toNat) with ht | ht
    · cases (execAuth_of_tag_bounds hk hv hb ha ht).symm.trans h
      exact .inl ⟨ht, rfl⟩
    · rw [execAuth, State.onValidSlot_of_some hk hv] at h
      simp only [(fits_iff _ _).2 hb, ha, (fits_iff _ _).2 ht] at h
      obtain ⟨m, hread, h⟩ := State.load_next.1 h
      obtain ⟨hl, hm⟩ := (Memory.readBytes_eq_ok _ _ _ _).1 hread
      cases h
      exact .inr ⟨ht, m, hl, hm, rfl⟩

/-- The tag as 42_authentication.md R187 to R189 writes it out. -/
theorem Slot.tag_eq (ha : k.authAlgo ≠ .null) (m : Bytes) (roc : Word) : k.tag m roc =
    let key := k.kA.toList.take k.nA.toNat
    let input := match k.kind with
      | .srtp => m ++ be 4 roc.toNat
      | .srtcp => m
    let full := match k.authAlgo with
      | .hmacSkein => (Config.skeinMac key input).toList
      | _ => hmacSha1 key input
    full.take k.tagLen.toNat := by
  unfold Slot.tag tagOf mac macInput
  cases h : k.authAlgo with
  | null => exact absurd h ha
  | hmacSha1 => rfl
  | hmacSkein => rfl

theorem Slot.authenticates_iff (k : Slot) : k.authenticates = true ↔ k.authAlgo ≠ .null ∧ k.keysValid = true := by
  simp [Slot.authenticates]

/-- Settles O56: past its checks AUTH stores the slot's tag, which is the truncated MAC. -/
theorem authWritesTheTag : Obligations.AuthWritesTheTag := by
  intro c s k m hk hv hauth hkeys hb ht hl hm key input full
  refine ⟨_, execAuth_of_holds hk hv hb (k.authenticates_iff.2 ⟨hauth, hkeys⟩) ht hl hm, ⟨rfl, rfl⟩, ?tag, ?res⟩
  case tag =>
    have htag : full.take k.tagLen.toNat = k.tag m s.larg[2] := (Slot.tag_eq hauth m _).symm
    rw [htag]
    exact Memory.holds_writeBytes _ _ _
  case res =>
    rw [State.complete_setRes_zero, BitVec.toNat_setWidth_of_le (by decide)]

/-- Settles O57: a slot that does not authenticate leaves RES0 = 0 and no byte. -/
theorem authWithoutMacOrKeysIsANoOp : Obligations.AuthWithoutMacOrKeysIsANoOp := by
  intro c s k hk hv hno hb
  have ha : k.authenticates = false := by
    rw [← Bool.not_eq_true, Slot.authenticates_iff]
    rintro ⟨hauth, hkeys⟩
    obtain hnull | hinvalid := hno
    · exact hauth hnull
    · exact Bool.false_ne_true (hinvalid.symm.trans hkeys)
  exact ⟨_, execAuth_of_not_authenticates hk hv hb ha, ⟨rfl, rfl⟩, rfl, State.complete_setRes_zero _ _⟩

/-! ### What ENCRYPT and AUTH depend on -/

/-- A slot with its stream and its index state blanked: what ENCRYPT and AUTH depend on (45_packet_ops.md R252 (b)). -/
def Slot.crypto (k : Slot) : Slot :=
  { k with ssrc := 0, roc := 0, guessedRoc := 0, sL := 0, seqSet := false, replayMask := 0 }

theorem Slot.crypto_eq_of_same (hc : k.SameConfig { l with ssrc := k.ssrc }) (hk : k.SameKeys l) :
    l.crypto = k.crypto := by
  obtain ⟨⟩ := hc
  obtain ⟨⟩ := hk
  simp_all [Slot.crypto]

section Crypto

variable (h : l.crypto = k.crypto)
include h

theorem Slot.valid_of_crypto_eq : l.valid = k.valid := (congrArg Slot.valid h :)

theorem Slot.kind_of_crypto_eq : l.kind = k.kind := (congrArg Slot.kind h :)

theorem Slot.encAlgo_of_crypto_eq : l.encAlgo = k.encAlgo := (congrArg Slot.encAlgo h :)

theorem Slot.tagLen_of_crypto_eq : l.tagLen = k.tagLen := (congrArg Slot.tagLen h :)

theorem Slot.encrypts_of_crypto_eq : l.encrypts = k.encrypts := (congrArg Slot.encrypts h :)

theorem Slot.authenticates_of_crypto_eq : l.authenticates = k.authenticates := (congrArg Slot.authenticates h :)

theorem Slot.tag_of_crypto_eq (m : Bytes) (roc : Word) : l.tag m roc = k.tag m roc := congrArg (·.tag m roc) h

theorem Slot.needRekey_of_crypto_eq (x : BitVec 48) : l.needRekey x = k.needRekey x := congrArg (·.needRekey x) h

theorem Slot.stream_of_crypto_eq (hdr : Bytes) (ssrc : Word) (x : BitVec 48) (n : Nat) :
    l.stream hdr ssrc x n = k.stream hdr ssrc x n := congrArg (·.stream hdr ssrc x n) h

theorem Slot.crypto_deriveKeys (x : BitVec 48) : (l.deriveKeys x).crypto = (k.deriveKeys x).crypto :=
  congrArg (fun m => (m.deriveKeys x).crypto) h

theorem Slot.crypto_rekeyed (x : BitVec 48) : (l.rekeyed x).crypto = (k.rekeyed x).crypto := by
  rw [Slot.rekeyed, Slot.rekeyed, Slot.needRekey_of_crypto_eq h]
  split_ifs
  · exact Slot.crypto_deriveKeys h x
  · exact h

/-- ENCRYPT past its checks leaves two such slots' states the same buffer and results. -/
theorem State.encrypted_of_crypto_eq (s : State) (c d : Nat) (p hdr : Bytes) :
    (s.encrypted d l p hdr).buf = (s.encrypted c k p hdr).buf
      ∧ (s.encrypted d l p hdr).res = (s.encrypted c k p hdr).res := by
  have hr := Slot.crypto_rekeyed h (s.encryptIndex k.kind)
  rw [State.encrypted_buf, State.encrypted_buf, State.encrypted_res, State.encrypted_res, Slot.kind_of_crypto_eq h,
    Slot.encrypts_of_crypto_eq hr, Slot.stream_of_crypto_eq hr, Slot.encrypts_of_crypto_eq h,
    Slot.needRekey_of_crypto_eq h]
  exact ⟨rfl, rfl⟩

variable {d : Nat} (hk : s.slot? c = some k) (hl : s.slot? d = some l) (hv : k.valid = true)
include hk hl hv

theorem execEncrypt_of_crypto_eq (hn : execEncrypt c s = .next t) :
    ∃ u, execEncrypt d s = .next u ∧ u.buf = t.buf ∧ u.res = t.res := by
  have hvl := (Slot.valid_of_crypto_eq h).trans hv
  have halg := Slot.encAlgo_of_crypto_eq h
  have hkind := Slot.kind_of_crypto_eq h
  obtain ⟨hb, rfl⟩ | ⟨hb, hf8, hh, rfl⟩ | ⟨hb, hf, p, hdr, rfl, hp⟩ := execEncrypt_cases hk hv hn
  · exact ⟨_, execEncrypt_of_bounds hl hvl hb, rfl, rfl⟩
  · exact ⟨_, execEncrypt_of_short_header hl hvl hb (halg.trans hf8) (hkind ▸ hh), rfl, rfl⟩
  · rw [Slot.rekeyed_encrypts, ← Slot.encrypts_of_crypto_eq h, ← halg, ← hkind] at hp
    exact ⟨_, execEncrypt_of_holds hl hvl hb (by rwa [halg, hkind]) (by rwa [Slot.rekeyed_encrypts]),
      State.encrypted_of_crypto_eq h s c d p hdr⟩

theorem execAuth_of_crypto_eq (hn : execAuth c s = .next t) :
    ∃ u, execAuth d s = .next u ∧ u.buf = t.buf ∧ u.res = t.res := by
  have hvl := (Slot.valid_of_crypto_eq h).trans hv
  have hauth := Slot.authenticates_of_crypto_eq h
  have htag := Slot.tagLen_of_crypto_eq h
  obtain ⟨hb, rfl⟩ | ⟨hb, ⟨ha, rfl⟩ | ⟨ha, ⟨ht, rfl⟩ | ⟨ht, m, hm, hread, rfl⟩⟩⟩ := execAuth_cases hk hv hn
  · exact ⟨_, execAuth_of_bounds hl hvl hb, rfl, rfl⟩
  · exact ⟨_, execAuth_of_not_authenticates hl hvl hb (hauth.trans ha), rfl, rfl⟩
  · exact ⟨_, execAuth_of_tag_bounds hl hvl hb (hauth.trans ha) (htag ▸ ht), rfl, rfl⟩
  · refine ⟨_, execAuth_of_holds hl hvl hb (hauth.trans ha) (htag ▸ ht) hm hread, ?_⟩
    rw [Slot.tag_of_crypto_eq h, htag]
    exact ⟨rfl, rfl⟩

end Crypto

/-- Settles O55: two such slots have one `crypto`, which decides every check, keystream and tag. -/
theorem packetCommandsDependOnKeysAndOperands : Obligations.PacketCommandsDependOnKeysAndOperands :=
  fun _ _ _ _ _ _ hk hl hconfig hkeys =>
    have h := Slot.crypto_eq_of_same hconfig hkeys
    ⟨fun hn hv => execEncrypt_of_crypto_eq h hk hl hv hn, fun hn hv => execAuth_of_crypto_eq h hk hl hv hn⟩

end Sys2Proof.Machine
end
